-- ==== Sys2Proof/Word.lean ====
section
/-! DEFINITION. The words of the block: bytes, 16-bit values and byte sequences (spec/00_scope.md R7: every value is an
unsigned integer of a stated width; bit 0 is the least significant). -/

namespace Sys2Proof

/-- A byte is 8 bits (R7). -/
abbrev Byte := BitVec 8

/-- A `u16` (R7). -/
abbrev Half := BitVec 16

/-- A byte sequence; `s[0]` is its head (R7). -/
abbrev Bytes := List Byte

end Sys2Proof
end

