-- ==== Sys2Proof/Config.lean ====
section
/-! DEFINITION. What is fixed for one block and is not state: the parameters of spec/00_scope.md R5, with the spec's
defaults where it gives them, and the collaborators it leaves OPEN as opaque constants, of which nothing can be proved but
that they are functions. -/

namespace Sys2Proof

/-- The CRC parameters (40_checksum.md R71, R74): the reflected polynomial, the initial accumulator, the final XOR, and
whether the result's two bytes are exchanged. Held as data so that a claim can be stated for any choice (U6). -/
structure CrcParams where
  poly   : Half
  init   : Half
  xorOut : Half
  swap   : Bool
  deriving DecidableEq, Repr

/-- The checksum triple `(LRC_INIT, lrc_step, lrc_final)` (40_checksum.md R78), which a claim may quantify over (U7). -/
structure LrcParams where
  init  : Byte
  step  : Byte → Byte → Byte
  final : Byte → Byte

/-- The default CRC parameters of R71 and R74 (decision D7). TESTED on the one vector of the source, `E2 26` (log 12). -/
def Config.crc : CrcParams :=
  { poly := 0x8408, init := 0xFFFF, xorOut := 0xFFFF, swap := true }

/-- The default checksum parameters of R78 (decision D8): XOR from `0x55`, no final step. UNVERIFIED (log 13). -/
def Config.lrc : LrcParams :=
  { init := 0x55, step := fun a b => a ^^^ b, final := fun a => a }

/-- `KEY_BITS`, the width of `KEY`: OPEN (R5, R106), so any number (log 10). -/
opaque Config.keyBits : Nat

/-- `BLOCK`, the cipher's block size: OPEN (R5, R106); named only by `Config.CipherLen`. -/
opaque Config.block : Nat

/-- A key: `KEY_BITS` bits, handed to the `CIPHER` port and never looked at (R12). -/
abbrev Key := BitVec Config.keyBits

/-- A value of the OPEN type `Params` (R5, R95): a token the block moves and never looks inside. DESIGN CHOICE (log 11):
tokens are numbered, so that a state can be compared and written out. -/
structure Params where
  token : Nat
  deriving DecidableEq, Repr, Inhabited

/-- Which externally supplied codec pair is meant (R95). The pair's functions are `Config.codecDecode` and
`Config.codecEncode` at this reference (log 9). -/
structure CodecRef where
  index : Nat
  deriving DecidableEq, Repr

/-- `codec.decode : bytes -> ok(Params) | err` (42_registry.md R95), `none` for `err`; any total pure function (U12, log 9). -/
opaque Config.codecDecode : CodecRef → Bytes → Option Params

/-- `codec.encode : Params -> bytes` (42_registry.md R95); any total pure function (U12, log 9). -/
opaque Config.codecEncode : CodecRef → Params → Bytes

/-- `CIPHER.enc` (43_message.md R106): any total pure function (U8, U9, log 10). -/
opaque Config.cipherEnc : Key → Bytes → Bytes

/-- `CIPHER.dec` (43_message.md R106): any total pure function (U8, U9, log 10). -/
opaque Config.cipherDec : Key → Bytes → Bytes

/-- The named property `CIPHER_INV` of R106, which a claim may take as a hypothesis and no rule assumes. -/
def Config.CipherInv : Prop :=
  ∀ (k : Key) (p : Bytes), Config.cipherDec k (Config.cipherEnc k p) = p

/-- The named property `CIPHER_LEN` of R106, which a claim may take as a hypothesis and no rule assumes. -/
def Config.CipherLen : Prop :=
  ∀ (k : Key) (p : Bytes),
    Config.block ∣ (Config.cipherEnc k p).length ∧ p.length ≤ (Config.cipherEnc k p).length

/-- The frame delimiter `FLAG` (R5). -/
def Config.flag : Byte := 0x7E

/-- The escape byte `ESC` (R5). -/
def Config.esc : Byte := 0x7D

/-- The flow-control byte `FLOW_A` (R5). -/
def Config.flowA : Byte := 0x11

/-- The flow-control byte `FLOW_B` (R5). -/
def Config.flowB : Byte := 0x13

/-- `ESC_XOR`, the value XORed into an escaped byte (R5). -/
def Config.escXor : Byte := 0x20

/-- `DATA_REQUEST`, the one named frame type (30_encoding.md R61); the block never interprets the type. -/
def Config.dataRequest : Byte := 0x50

/-- The capacities `BUF_MAX`, `CQ_MAX`, `RQ_MAX` (R5, 20_memory.md R31); `none` is unbounded. -/
structure Capacities where
  bufMax : Option Nat
  cqMax  : Option Nat
  rqMax  : Option Nat
  deriving DecidableEq, Repr

/-- The default of R5 and R31: unbounded. -/
def Capacities.unbounded : Capacities := { bufMax := none, cqMax := none, rqMax := none }

end Sys2Proof
end

