-- ==== Sys2Proof/Syntax.lean ====
section
/-! DEFINITION. The instructions: one constructor per row of spec/opcode_table.json (18 operations, 4 rows of reserved
codes, 14 rows of wire formats and enumerations), the error kinds and the encoding spaces. -/

namespace Sys2Proof

/-- The ten error kinds (60_exceptions.md R141). -/
inductive ErrorKind where
  | emptyBuffer | bufferTooShort | invalidCommand | unknownCommand | checksumMismatch
  | frameCrcMismatch | truncatedFrame | illegalOperation | badOperand | capacityExceeded
  deriving DecidableEq, Repr

/-- What `STATUS` can hold: `OK` or an error kind (R19, R141). The codes 11 to 15 are never written (U5). -/
inductive Status where
  | ok
  | error (k : ErrorKind)
  deriving DecidableEq, Repr

/-- The encoding a row of the table belongs to. One byte can stand for an operation code, a header, an escape item or a
delimiter, so a word is only decoded within its space (30_encoding.md R45). -/
inductive Space where
  | op          -- the operation select, 5 bits (R47)
  | header      -- the command header (R49)
  | escapeItem  -- an item of an escaped interior (R59)
  | delimiter   -- the frame delimiter (R58)
  | frame       -- a delimited frame (R57, R58)
  | message     -- a message (R56)
  | access      -- the access level code, 2 bits (R60)
  | status      -- the status code, 4 bits (R141)
  deriving DecidableEq, Repr

/-- One constructor per row of spec/opcode_table.json. An operation has no operand field: every operand is taken from the
elements its row names (R47). -/
inductive Instr where
  -- the 18 operations (R46)
  | lrc
  | lrcUpd
  | crc16
  | crc16Upd
  | crc16Fin
  | hdrDec
  | hdrEnc
  | regBuild
  | resolve
  | cmdEnc
  | cmdDec
  | msgPack
  | msgUnpack
  | escape
  | unescape
  | frameEnc
  | frameDec
  | frameMsgDec
  -- the reserved operation codes (R48)
  | reservedOp00
  | reservedOp13
  | reservedOp14to17 (low : BitVec 2)
  | reservedOp18to1F (low : BitVec 3)
  -- the three header forms (R50, R51, R52)
  | hdrShort (top : BitVec 3) (size : BitVec 5)
  | hdrMedium (id : BitVec 5) (size : Byte)
  | hdrExtended (idHigh size : Byte)
  -- the items of an escaped interior (R59, R125)
  | escFlag
  | escEsc
  | escFlowA
  | escFlowB
  | escAny (follower : Byte)
  | literal (b : Byte)
  -- the delimiter, the frame and the message (R58, R57, R56)
  | flag
  | frame (type : Byte) (dst src : Half) (msg : Bytes) (crc : Half)
  | message (mid : Byte) (region : Bytes) (chk : Byte)
  -- the enumerations (R60, R141)
  | accessCode (a : BitVec 2)
  | statusCode (c : Status)
  deriving DecidableEq, Repr

end Sys2Proof
end

