-- ==== Sys2Proof/Machine/Flags.lean ====
section
/-! DEFINITION. The codes of `STATUS` (spec/60_exceptions.md R141). The block has no condition codes (10_state.md R18); its
flag-like elements are `STATUS`, `FOUND`, `PHASE` and the transient `ESCP`. -/

namespace Sys2Proof.Machine

/-- The code of an error kind (R141). -/
def errorCode : ErrorKind → BitVec 4
  | .emptyBuffer => 1
  | .bufferTooShort => 2
  | .invalidCommand => 3
  | .unknownCommand => 4
  | .checksumMismatch => 5
  | .frameCrcMismatch => 6
  | .truncatedFrame => 7
  | .illegalOperation => 8
  | .badOperand => 9
  | .capacityExceeded => 10

/-- The value of `STATUS[3:0]` (R19, R141). -/
def statusCode : Status → BitVec 4
  | .ok => 0
  | .error k => errorCode k

/-- What a status code means (R141); `none` for 11 to 15, which are never written (U5). -/
def statusOfCode (c : Nat) : Option Status :=
  match c with
  | 0 => some .ok
  | 1 => some (.error .emptyBuffer)
  | 2 => some (.error .bufferTooShort)
  | 3 => some (.error .invalidCommand)
  | 4 => some (.error .unknownCommand)
  | 5 => some (.error .checksumMismatch)
  | 6 => some (.error .frameCrcMismatch)
  | 7 => some (.error .truncatedFrame)
  | 8 => some (.error .illegalOperation)
  | 9 => some (.error .badOperand)
  | 10 => some (.error .capacityExceeded)
  | _ => none

end Sys2Proof.Machine
end

