-- ==== Sys2Proof/Machine/Bits.lean ====
section
/-! DEFINITION. The bit-field and byte-order helpers of spec/00_scope.md R7 and spec/20_memory.md R32, R34, R35. -/

namespace Sys2Proof.Machine

/-- `v[15:8]`. -/
def hiByte (v : Half) : Byte := v.extractLsb' 8 8

/-- `v[7:0]`. -/
def loByte (v : Half) : Byte := v.extractLsb' 0 8

/-- Two bytes assembled big-endian: `(hi << 8) | lo` (20_memory.md R35). -/
def be16 (hi lo : Byte) : Half := (hi.setWidth 16 <<< 8) ||| lo.setWidth 16

/-- The two bytes of a 16-bit field on the wire, big-endian (20_memory.md R32). -/
def be16Bytes (v : Half) : Bytes := [hiByte v, loByte v]

/-- `zext_16` of a byte (R8). -/
def zext16 (b : Byte) : Half := b.setWidth 16

end Sys2Proof.Machine
end

