-- ==== Sys2Proof/Machine/Checksum.lean ====
section
/-! DEFINITION. The checksum primitives as functions of their parameters (spec/40_checksum.md): the CRC-16 generator and the
longitudinal-parity checksum. The accumulators `CRCACC` and `LRCACC` of 10_state.md R20 are the arguments `acc`. -/

namespace Sys2Proof.Machine

/-- One of the eight shifts of `crc_step` (R72). -/
def crcShift (p : CrcParams) (acc : Half) : Half :=
  if acc.getLsbD 0 then (acc >>> 1) ^^^ p.poly else acc >>> 1

/-- `n` shifts (R72: "repeat 8 times"). -/
def crcShifts (p : CrcParams) : Nat → Half → Half
  | 0, acc => acc
  | n + 1, acc => crcShifts p n (crcShift p acc)

/-- `crc_step` (R72). -/
def crcStep (p : CrcParams) (acc : Half) (b : Byte) : Half :=
  crcShifts p 8 (acc ^^^ zext16 b)

/-- `crc_acc`: the bytes in index order, lowest first (R73). -/
def crcAcc (p : CrcParams) (acc : Half) (s : Bytes) : Half :=
  s.foldl (crcStep p) acc

/-- `crc_fin`: complement, then exchange the two bytes (R74). -/
def crcFin (p : CrcParams) (acc : Half) : Half :=
  let v := acc ^^^ p.xorOut
  if p.swap then be16 (loByte v) (hiByte v) else v

/-- `computeFrameCrc` (R74). -/
def computeFrameCrc (p : CrcParams) (s : Bytes) : Half :=
  crcFin p (crcAcc p p.init s)

/-- `lrc_acc` (R78). -/
def lrcAcc (p : LrcParams) (acc : Byte) (s : Bytes) : Byte :=
  s.foldl p.step acc

/-- `computeBlockParity` (R78). -/
def computeBlockParity (p : LrcParams) (s : Bytes) : Byte :=
  p.final (lrcAcc p p.init s)

end Sys2Proof.Machine
end

