-- ==== Sys2Proof/Machine/Wire.lean ====
section
/-! DEFINITION. The wire formats as pure functions on byte sequences: the header codec (spec/41_header.md), the byte-escape
machine and the frame codec (spec/44_frame.md). The transient bit `ESCP` of 10_state.md R20 is the first argument of
`unescapeFrom`; the cursor `pos` is how far a sequence has been taken apart. -/

namespace Sys2Proof.Machine

/-! ## The command header -/

/-- A decoded header (41_header.md R85). -/
structure Header where
  headerSize  : Nat
  commandId   : Half
  commandSize : Byte
  deriving DecidableEq, Repr

/-- `hdr_dec` for the extended form: what follows the first byte `1F` (R86). -/
def hdrDecExtended : Bytes → Except ErrorKind Header
  | h :: size :: _ => .ok { headerSize := 3, commandId := be16 h 0x1F, commandSize := size }
  | _ => .error .bufferTooShort

/-- `hdr_dec` for the medium form: what follows the first byte `b0` (R86). -/
def hdrDecMedium (b0 : Byte) : Bytes → Except ErrorKind Header
  | size :: _ => .ok { headerSize := 2, commandId := zext16 b0, commandSize := size }
  | [] => .error .bufferTooShort

/-- `hdr_dec` (41_header.md R86): the emptiness test, then the form chosen by the first byte, then that form's length test.
Bytes after the header are ignored. -/
def hdrDec : Bytes → Except ErrorKind Header
  | [] => .error .emptyBuffer
  | b0 :: rest =>
    if b0 &&& 0xE0 ≠ 0 then
      .ok { headerSize := 1, commandId := zext16 (b0 &&& 0xE0), commandSize := b0 &&& 0x1F }
    else if b0 = 0x1F then hdrDecExtended rest
    else hdrDecMedium b0 rest

/-- Whether `id` is one of the seven ids of the short form (R50, R88). -/
def isShortId (id : Half) : Bool :=
  id == 0x20 || id == 0x40 || id == 0x60 || id == 0x80 || id == 0xA0 || id == 0xC0 || id == 0xE0

/-- `hdr_enc` (41_header.md R88). -/
def hdrEnc (id : Half) (size : Byte) : Except ErrorKind Bytes :=
  if isShortId id then
    if size.toNat ≤ 31 then .ok [loByte id ||| size] else .error .invalidCommand
  else if loByte id = 0x1F then
    .ok [0x1F, hiByte id, size]
  else if id.toNat ≤ 0x1E then
    .ok [loByte id, size]
  else
    .error .invalidCommand

/-! ## The byte-escape machine -/

/-- `in_escape_set` (44_frame.md R121): true exactly for `7E`, `7D`, `11` and `13`. -/
def inEscapeSet (b : Byte) : Bool :=
  b == Config.flag || b == Config.esc || b == Config.flowA || b == Config.flowB

/-- The item one byte is sent as (30_encoding.md R59). -/
def escapeByte (b : Byte) : Bytes :=
  if inEscapeSet b then [Config.esc, b ^^^ Config.escXor] else [b]

/-- `escape` (44_frame.md R122). -/
def escape (s : Bytes) : Bytes := s.flatMap escapeByte

/-- The two-state machine of 44_frame.md R125 from the state `escp` (`true` is `ESCAPED`); ending in `ESCAPED` is
`TruncatedFrame` (R126). -/
def unescapeFrom : Bool → Bytes → Except ErrorKind Bytes
  | false, [] => .ok []
  | true, [] => .error .truncatedFrame
  | true, b :: rest =>
    match unescapeFrom false rest with
    | .ok o => .ok ((b ^^^ Config.escXor) :: o)
    | .error k => .error k
  | false, b :: rest =>
    if b = Config.esc then unescapeFrom true rest
    else
      match unescapeFrom false rest with
      | .ok o => .ok (b :: o)
      | .error k => .error k

/-- `unescape` (44_frame.md R125): it starts in `NORMAL`. -/
def unescape (s : Bytes) : Except ErrorKind Bytes := unescapeFrom false s

/-! ## The frame -/

/-- A decoded frame (44_frame.md R120, R130). -/
structure Frame where
  type : Byte
  dst  : Half
  src  : Half
  msg  : Bytes
  crc  : Half
  deriving DecidableEq, Repr

/-- `TYPE ++ DEST ++ SRC ++ MESSAGE`: the bytes the frame CRC covers (30_encoding.md R57). -/
def frameBody (type : Byte) (dst src : Half) (msg : Bytes) : Bytes :=
  type :: (be16Bytes dst ++ be16Bytes src ++ msg)

/-- `FLAG ++ escape(body ++ crc) ++ FLAG` (30_encoding.md R58), for any value of the CRC field. -/
def frameWire (body : Bytes) (crc : Half) : Bytes :=
  Config.flag :: (escape (body ++ be16Bytes crc) ++ [Config.flag])

/-- `frame_enc` (44_frame.md R128). -/
def frameEnc (p : CrcParams) (type : Byte) (dst src : Half) (msg : Bytes) : Bytes :=
  frameWire (frameBody type dst src msg) (computeFrameCrc p (frameBody type dst src msg))

/-- The delimiter rule (44_frame.md R129): exactly one `7E` is removed at each end; `none` where it is not there. -/
def stripFlags (w : Bytes) : Option Bytes :=
  if w.length < 2 ∨ w.head? ≠ some Config.flag ∨ w.getLast? ≠ some Config.flag then none
  else some w.tail.dropLast

/-- The tests of `frame_dec` before the CRC test (44_frame.md R130, R131): delimiters, escapes, at least 7 interior bytes.
The answer is the body and the CRC field. -/
def frameSplit (w : Bytes) : Except ErrorKind (Bytes × Half) :=
  match stripFlags w with
  | none => .error .truncatedFrame
  | some inner =>
    match unescape inner with
    | .error k => .error k
    | .ok u =>
      if u.length < 7 then .error .truncatedFrame
      else .ok (u.take (u.length - 2), be16 (u.getD (u.length - 2) 0) (u.getD (u.length - 1) 0))

/-- The fields of a body (44_frame.md R130). A body has at least 5 bytes once R131's test is passed. -/
def frameFields (body : Bytes) (crc : Half) : Except ErrorKind Frame :=
  match body with
  | t :: d1 :: d0 :: s1 :: s0 :: msg =>
    .ok { type := t, dst := be16 d1 d0, src := be16 s1 s0, msg := msg, crc := crc }
  | _ => .error .truncatedFrame

/-- `frame_dec` (44_frame.md R130): all length and shape tests come before the CRC test, and no field is extracted before
it. -/
def frameDec (p : CrcParams) (w : Bytes) : Except ErrorKind Frame :=
  match frameSplit w with
  | .error k => .error k
  | .ok (body, crcField) =>
    if computeFrameCrc p body ≠ crcField then .error .frameCrcMismatch
    else frameFields body crcField

end Sys2Proof.Machine
end

