-- ==== Sys2Proof/WellFormed.lean ====
section
/-! DEFINITION. Which instructions are the ones their own row of the table writes: the constraints spec/opcode_table.json
puts on a row's fields. A term that breaks one is another row's word, or no word. -/

namespace Sys2Proof

/-- The constraint of each row with fields (30_encoding.md R50, R51, R59; opcode_table.json "constraint"): a short header has
a non-zero `top`; a medium header's id field is not `11111`; `ESC_ANY` is not one of the four pairs that have rows of their
own; a literal is not the escape byte. Rows without a constraint are always well formed. -/
def Instr.wellFormed : Instr → Bool
  | .lrc => true
  | .lrcUpd => true
  | .crc16 => true
  | .crc16Upd => true
  | .crc16Fin => true
  | .hdrDec => true
  | .hdrEnc => true
  | .regBuild => true
  | .resolve => true
  | .cmdEnc => true
  | .cmdDec => true
  | .msgPack => true
  | .msgUnpack => true
  | .escape => true
  | .unescape => true
  | .frameEnc => true
  | .frameDec => true
  | .frameMsgDec => true
  | .reservedOp00 => true
  | .reservedOp13 => true
  | .reservedOp14to17 _ => true
  | .reservedOp18to1F _ => true
  | .hdrShort top _ => decide (top ≠ 0)
  | .hdrMedium id _ => decide (id ≠ 0x1F)
  | .hdrExtended _ _ => true
  | .escFlag => true
  | .escEsc => true
  | .escFlowA => true
  | .escFlowB => true
  | .escAny f => decide (f ≠ 0x5E ∧ f ≠ 0x5D ∧ f ≠ 0x31 ∧ f ≠ 0x33)
  | .literal b => decide (b ≠ Config.esc)
  | .flag => true
  | .frame _ _ _ _ _ => true
  | .message _ _ _ => true
  | .accessCode _ => true
  | .statusCode _ => true

end Sys2Proof
end

