-- ==== Sys2Proof/Decode.lean ====
section
/-! DEFINITION. The decoder, total on any bytes and rejecting by name, and the encoder, both written from the encoding tables
of spec/30_encoding.md. The decoder of each space (R45) reads exactly one item and rejects anything left over. -/

namespace Sys2Proof

open Sys2Proof.Machine

/-- Why bytes are no row's word. -/
inductive DecodeError where
  | notFiveBits      -- an operation word with a bit above bit 4 set, or not of one byte (R47)
  | emptyItem        -- no byte at all
  | truncatedItem    -- fewer bytes than the form the first byte selects needs (R53, R126)
  | trailingBytes    -- bytes after the item
  | notADelimiter    -- not the byte 7E (R58)
  | notAFrame (k : ErrorKind)    -- a frame's delimiters, escapes or length are wrong (R129 to R131)
  | notAMessage      -- fewer than the two bytes MESSAGE_ID and CHECKSUM (R56)
  | notAnAccessCode  -- not a value of 2 bits (R60)
  | notAStatusCode   -- 11 or more (R141, U5)
  deriving DecidableEq, Repr

/-- The operation select (R46, R48): every one of the 32 codes is a row. -/
def decodeOp (c : BitVec 5) : Instr :=
  match c.toNat with
  | 0x00 => .reservedOp00
  | 0x01 => .lrc
  | 0x02 => .lrcUpd
  | 0x03 => .crc16
  | 0x04 => .crc16Upd
  | 0x05 => .crc16Fin
  | 0x06 => .hdrDec
  | 0x07 => .hdrEnc
  | 0x08 => .regBuild
  | 0x09 => .resolve
  | 0x0A => .cmdEnc
  | 0x0B => .cmdDec
  | 0x0C => .msgPack
  | 0x0D => .msgUnpack
  | 0x0E => .escape
  | 0x0F => .unescape
  | 0x10 => .frameEnc
  | 0x11 => .frameDec
  | 0x12 => .frameMsgDec
  | 0x13 => .reservedOp13
  | _ =>
    if c.toNat < 0x18 then .reservedOp14to17 (c.extractLsb' 0 2)
    else .reservedOp18to1F (c.extractLsb' 0 3)

/-- One command header (R50 to R53). -/
def decodeHeader : Bytes → Except DecodeError Instr
  | [] => .error .emptyItem
  | b0 :: rest =>
    if b0.extractLsb' 5 3 ≠ 0 then
      match rest with
      | [] => .ok (.hdrShort (b0.extractLsb' 5 3) (b0.extractLsb' 0 5))
      | _ :: _ => .error .trailingBytes
    else if b0.extractLsb' 0 5 = 0x1F then
      match rest with
      | [h, size] => .ok (.hdrExtended h size)
      | _ :: _ :: _ :: _ => .error .trailingBytes
      | _ => .error .truncatedItem
    else
      match rest with
      | [size] => .ok (.hdrMedium (b0.extractLsb' 0 5) size)
      | _ :: _ :: _ => .error .trailingBytes
      | [] => .error .truncatedItem

/-- The pair `7D f` of an escaped interior: the four pairs of R59, or any follower (R62, R125). -/
def decodeEscapePair (f : Byte) : Instr :=
  if f = 0x5E then .escFlag
  else if f = 0x5D then .escEsc
  else if f = 0x31 then .escFlowA
  else if f = 0x33 then .escFlowB
  else .escAny f

/-- One item of an escaped interior: "`0x7D` starts a two-byte item, anything else is a one-byte item" (R59). -/
def decodeEscapeItem : Bytes → Except DecodeError Instr
  | [] => .error .emptyItem
  | [b] => if b = 0x7D then .error .truncatedItem else .ok (.literal b)
  | [b, f] => if b = 0x7D then .ok (decodeEscapePair f) else .error .trailingBytes
  | _ :: _ :: _ :: _ => .error .trailingBytes

/-- A whole frame (R57, R58). The CRC field is read, not verified: verifying it is the frame decoder's act (44_frame.md
R130), so a frame with a wrong CRC is a word too. -/
def decodeFrame (w : Bytes) : Except DecodeError Instr :=
  match frameSplit w with
  | .error k => .error (.notAFrame k)
  | .ok (body, crc) =>
    match frameFields body crc with
    | .error k => .error (.notAFrame k)
    | .ok f => .ok (.frame f.type f.dst f.src f.msg f.crc)

/-- A whole message (R56): first byte, region, last byte. -/
def decodeMessage : Bytes → Except DecodeError Instr
  | mid :: b :: rest => .ok (.message mid (b :: rest).dropLast ((b :: rest).getLastD 0))
  | _ => .error .notAMessage

/-- The decoder: the row whose word the bytes are, in the given space. -/
def decode (sp : Space) (w : Bytes) : Except DecodeError Instr :=
  match sp with
  | .op =>
    match w with
    | [b] => if b.toNat < 32 then .ok (decodeOp (b.setWidth 5)) else .error .notFiveBits
    | _ => .error .notFiveBits
  | .header => decodeHeader w
  | .escapeItem => decodeEscapeItem w
  | .delimiter =>
    match w with
    | [b] => if b = 0x7E then .ok .flag else .error .notADelimiter
    | _ => .error .notADelimiter
  | .frame => decodeFrame w
  | .message => decodeMessage w
  | .access =>
    match w with
    | [b] => if b.toNat < 4 then .ok (.accessCode (b.setWidth 2)) else .error .notAnAccessCode
    | _ => .error .notAnAccessCode
  | .status =>
    match w with
    | [b] =>
      match statusOfCode b.toNat with
      | some c => .ok (.statusCode c)
      | none => .error .notAStatusCode
    | _ => .error .notAStatusCode

/-! ## The encoder -/

/-- The bytes of a row's word, from the encoding column of the table (R46, R48, R50 to R52, R56 to R60, R141). -/
def encodeBytes : Instr → Bytes
  | .lrc => [0x01]
  | .lrcUpd => [0x02]
  | .crc16 => [0x03]
  | .crc16Upd => [0x04]
  | .crc16Fin => [0x05]
  | .hdrDec => [0x06]
  | .hdrEnc => [0x07]
  | .regBuild => [0x08]
  | .resolve => [0x09]
  | .cmdEnc => [0x0A]
  | .cmdDec => [0x0B]
  | .msgPack => [0x0C]
  | .msgUnpack => [0x0D]
  | .escape => [0x0E]
  | .unescape => [0x0F]
  | .frameEnc => [0x10]
  | .frameDec => [0x11]
  | .frameMsgDec => [0x12]
  | .reservedOp00 => [0x00]
  | .reservedOp13 => [0x13]
  | .reservedOp14to17 low => [0x14 ||| low.setWidth 8]
  | .reservedOp18to1F low => [0x18 ||| low.setWidth 8]
  | .hdrShort top size => [(top.setWidth 8 <<< 5) ||| size.setWidth 8]
  | .hdrMedium id size => [id.setWidth 8, size]
  | .hdrExtended h size => [0x1F, h, size]
  | .escFlag => [0x7D, 0x5E]
  | .escEsc => [0x7D, 0x5D]
  | .escFlowA => [0x7D, 0x31]
  | .escFlowB => [0x7D, 0x33]
  | .escAny f => [0x7D, f]
  | .literal b => [b]
  | .flag => [0x7E]
  | .frame type dst src msg crc => frameWire (frameBody type dst src msg) crc
  | .message mid region chk => mid :: (region ++ [chk])
  | .accessCode a => [a.setWidth 8]
  | .statusCode c => [(statusCode c).setWidth 8]

/-- The space a row belongs to (the table's "format" column). -/
def encodeSpace : Instr → Space
  | .lrc => .op
  | .lrcUpd => .op
  | .crc16 => .op
  | .crc16Upd => .op
  | .crc16Fin => .op
  | .hdrDec => .op
  | .hdrEnc => .op
  | .regBuild => .op
  | .resolve => .op
  | .cmdEnc => .op
  | .cmdDec => .op
  | .msgPack => .op
  | .msgUnpack => .op
  | .escape => .op
  | .unescape => .op
  | .frameEnc => .op
  | .frameDec => .op
  | .frameMsgDec => .op
  | .reservedOp00 => .op
  | .reservedOp13 => .op
  | .reservedOp14to17 _ => .op
  | .reservedOp18to1F _ => .op
  | .hdrShort _ _ => .header
  | .hdrMedium _ _ => .header
  | .hdrExtended _ _ => .header
  | .escFlag => .escapeItem
  | .escEsc => .escapeItem
  | .escFlowA => .escapeItem
  | .escFlowB => .escapeItem
  | .escAny _ => .escapeItem
  | .literal _ => .escapeItem
  | .flag => .delimiter
  | .frame _ _ _ _ _ => .frame
  | .message _ _ _ => .message
  | .accessCode _ => .access
  | .statusCode _ => .status

/-- The encoder: a row's space and word. -/
def encode (i : Instr) : Space × Bytes := (encodeSpace i, encodeBytes i)

/-! ## Words as spec/opcode_table.json numbers them -/

/-- The space and the bytes of a table word. DESIGN CHOICE (log 8): the width and the fixed bits pick the space. 5 or 8 bits
below `0x1F` are an operation word; the 8-bit word `0x1F`, and 24 bits, are the extended header, numbered from its first
byte as the table's mask `0xFF` numbers it; `0x7E` is the delimiter and every other 8-bit word a short header. The table
numbers its two-byte rows with the first byte in bits 15 to 8; `7D` there is an escape pair, anything else a medium header.
2 and 4 bits are the enumerations. -/
def tableWord (nbits w : Nat) : Space × Bytes :=
  let b0 : Byte := BitVec.ofNat 8 w
  let b1 : Byte := BitVec.ofNat 8 (w / 256)
  let b2 : Byte := BitVec.ofNat 8 (w / 65536)
  match nbits with
  | 2 => (.access, [b0])
  | 4 => (.status, [b0])
  | 5 => (.op, [b0])
  | 8 =>
    if w < 0x1F then (.op, [b0])
    else if w = 0x1F then (.header, [b0, 0, 0])
    else if w = 0x7E then (.delimiter, [b0])
    else (.header, [b0])
  | 16 => if b1 = 0x7D then (.escapeItem, [b1, b0]) else (.header, [b1, b0])
  | 24 => (.header, [b0, b1, b2])
  | _ => (.op, [])

/-- The instruction the decoder reads from a table word. -/
def decodeTableWord (nbits w : Nat) : Option Instr :=
  match decode (tableWord nbits w).1 (tableWord nbits w).2 with
  | .ok i => some i
  | .error _ => none

end Sys2Proof
end

