-- ==== Sys2Proof/Machine/State.lean ====
section
/-! DEFINITION. The state of a block (spec/10_state.md), as plain data, and its reset value (R22). An element that "holds no
value" (R14) is `none`, or has no byte listed: that is the spec's own state, and R14(e) says a model gives it no value, never
zero (log 2). -/

namespace Sys2Proof.Machine

open Sys2Proof

/-- The elements of the state that a fault can name, and that the host can read (R11 to R19). -/
inductive Element where
  | accin | cmdid | cmdsize | msgid | access | keyv | key | ftype | dst | src | pin | ibuf | ilen | cq | registry
  | accout | lrc | crc | hsize | rcmdid | rcmdsize | found | rmsgid | raccess | rchk
  | rtype | rdst | rsrc | rcrc | obuf | olen | rq
  | status | phase
  deriving DecidableEq, Repr

/-- The reasons a step stops with a fault. None of them is an error kind of the spec: those are next states. -/
inductive Fault where
  /-- Raised by every operation and by a host read, of an element that holds no value (R14(e), R161, U1, U2). Safe: the
  content is unspecified, the spec forbids the read (R161, R168) and says that a model faults. -/
  | noValue (e : Element)
  /-- Raised by a host write of an operand that does not fit a capacity, which the host cannot make (20_memory.md R31, D6).
  Safe: the spec gives the host no such move. -/
  | doesNotFit (e : Element)
  /-- Raised when the host addresses an engine the block does not have (60_exceptions.md R155). Safe: there is none. -/
  | noEngine (k : Nat)
  /-- Raised by a host read of an operand element, which the spec does not let the host read back (R12, R168). Safe: the spec
  gives the host no such move. -/
  | notReadable (e : Element)
  deriving DecidableEq, Repr

/-- The reasons a step refuses. -/
inductive Refusal where
  /-- Raised by `exec` for an instruction that has no meaning yet. Safe. -/
  | notModelled (mnemonic : String)
  /-- Raised by a step whose item move holds bytes that are no row's word in the given space. Safe: there is no instruction. -/
  | notAWord (e : DecodeError)
  deriving DecidableEq, Repr

/-! ## Memory -/

/-- The content of a byte buffer (20_memory.md R30): (index, byte) pairs. An index that is not listed holds no value. -/
structure Memory where
  cells : List Host.Cell
  deriving DecidableEq, Repr

/-- Strictly rising indexes from `lo` on. -/
def cellsRiseFrom : Nat → List Host.Cell → Bool
  | _, [] => true
  | lo, (a, _) :: rest => decide (lo ≤ a) && cellsRiseFrom (a + 1) rest

/-- The canonical form: indexes strictly rising. No entry can equal what an unlisted index reads as, which is no value. -/
def Memory.wf (m : Memory) : Bool := cellsRiseFrom 0 m.cells

/-- The buffer in which no byte holds a value. -/
def Memory.empty : Memory := { cells := [] }

/-! ## Commands, results of commands, the registry -/

/-- A `Command` (R16): the size is always `len(body)`, so it is computed. -/
structure Command where
  id   : Half
  body : Bytes
  deriving DecidableEq, Repr

/-- The reason of an `Invalid` record (43_message.md R113). -/
inductive Reason where
  | unknownCommand (id : Half)
  | bufferTooShort
  | codecError
  deriving DecidableEq, Repr

/-- `CommandResult` (R16). -/
inductive CommandResult where
  | ok (command : Command) (parameters : Params)
  | invalid (rawBytes : Bytes) (reason : Reason)
  deriving DecidableEq, Repr

/-- An entry of the `REGISTRY` list and of the map `REG` (R11, 42_registry.md R98). -/
structure RegEntry where
  id    : Half
  codec : CodecRef
  deriving DecidableEq, Repr

/-- `PHASE` (R11, R19). -/
inductive Phase where
  | build   -- 0
  | run     -- 1
  deriving DecidableEq, Repr

/-- `PHASE[0]` (R19). -/
def Phase.bit : Phase → BitVec 1
  | .build => 0
  | .run => 1

/-! ## One engine -/

/-- The operand elements (R12, R15, R16): the host writes them and operations only read them. -/
structure Operands where
  accin   : Option Half
  cmdid   : Option Half
  cmdsize : Option Byte
  msgid   : Option Byte
  access  : Option (BitVec 2)
  keyv    : Option (BitVec 1)
  key     : Option Key
  ftype   : Option Byte
  dst     : Option Half
  src     : Option Half
  pin     : Option Params
  ibuf    : Memory
  ilen    : Option Nat
  cq      : Option (List Command)
  deriving DecidableEq, Repr

/-- The result elements (R13, R15, R16): operations write them and the host only reads them. -/
structure Results where
  accout   : Option Half
  lrc      : Option Byte
  crc      : Option Half
  hsize    : Option (BitVec 2)
  rcmdid   : Option Half
  rcmdsize : Option Byte
  found    : Option (BitVec 1)
  rmsgid   : Option Byte
  raccess  : Option (BitVec 2)
  rchk     : Option Byte
  rtype    : Option Byte
  rdst     : Option Half
  rsrc     : Option Half
  rcrc     : Option Half
  obuf     : Memory
  olen     : Option Nat
  rq       : Option (List CommandResult)
  deriving DecidableEq, Repr

/-- What one engine has of its own (60_exceptions.md R155): operand elements, result elements, `STATUS`. `OP` has no
readable content (R19) and the transient elements do not exist between operations (R20, R22). -/
structure Engine where
  opnd   : Operands
  res    : Results
  status : Status
  deriving DecidableEq, Repr

/-- Every operand element holds no value (R12, R14(d)). -/
def Operands.unwritten : Operands :=
  { accin := none, cmdid := none, cmdsize := none, msgid := none, access := none, keyv := none, key := none,
    ftype := none, dst := none, src := none, pin := none, ibuf := Memory.empty, ilen := none, cq := none }

/-- Every result element holds no value (R14(a)). -/
def Results.invalid : Results :=
  { accout := none, lrc := none, crc := none, hsize := none, rcmdid := none, rcmdsize := none, found := none,
    rmsgid := none, raccess := none, rchk := none, rtype := none, rdst := none, rsrc := none, rcrc := none,
    obuf := Memory.empty, olen := none, rq := none }

/-- An engine right after reset (R22). -/
def Engine.reset : Engine :=
  { opnd := Operands.unwritten, res := Results.invalid, status := .ok }

/-! ## The host's moves -/

/-- A host write of an operand element (70_reset_and_hazards.md R168). -/
inductive HostWrite where
  | accin (v : Half)
  | cmdid (v : Half)
  | cmdsize (v : Byte)
  | msgid (v : Byte)
  | access (v : BitVec 2)
  | keyv (v : BitVec 1)
  | key (v : Key)
  | ftype (v : Byte)
  | dst (v : Half)
  | src (v : Half)
  | pin (v : Params)
  | ibufByte (index : Nat) (b : Byte)
  | ibuf (s : Bytes)                  -- the bytes of `s` at indexes 0, 1, … and `ILEN` with them (R166(b))
  | ilen (n : Nat)
  | cq (l : List Command)
  | registry (l : List RegEntry)      -- the `REGISTRY` list (R168, 42_registry.md R98)
  deriving DecidableEq, Repr

/-- A move of the host (R168, R155, R64), and one move of the model's own. -/
inductive Move where
  | write (w : HostWrite)             -- write an operand element of the addressed engine
  | issue (op : BitVec 5)             -- write `OP`, which issues the operation
  | read (e : Element)                -- read a result element, `STATUS` or `PHASE`
  | readObuf (index : Nat)            -- read one byte of `OBUF`
  | copyObuf                          -- copy `OBUF`, `OLEN` to `IBUF`, `ILEN` (R64, R165)
  | copyAccout                        -- copy `ACCOUT` to `ACCIN` (R64)
  | skipUnlessOk (n : Nat)            -- read `STATUS` and, unless it is `OK`, drop the next `n` moves (R64, `SEND`)
  | select (engine : Nat)             -- turn to another engine (R155)
  | reset                             -- the reset event (R160)
  | item (space : Space) (w : Bytes)  -- MODEL'S OWN: run one row of the table from its word (log 5)
  deriving DecidableEq, Repr

/-! ## The block -/

/-- The state of a block. `phase`, `reg` and `registry` are shared by the engines (R11, R155). The engines are
`pre ++ cur :: post`, of which the host addresses `cur` (log 17). `registry` and `caps` are parameters of the block (R5), held
here so that claims quantify over them (log 18, log 14). `pending` is the model's own: the host's moves not carried out yet
(log 1). -/
structure State where
  phase    : Phase
  reg      : List RegEntry
  registry : List RegEntry
  pre      : List Engine
  cur      : Engine
  post     : List Engine
  caps     : Capacities
  pending  : List Move
  deriving DecidableEq, Repr

/-- The state right after reset (R22): `REG` empty, `PHASE = BUILD`, `STATUS = OK`, everything else holds no value; no move
of the host is pending. One engine and unbounded capacities are the defaults of R5; the `REGISTRY` list has no default, and
is empty here, which R98 calls legal (DESIGN CHOICE, log 18). -/
def State.reset : State :=
  { phase := .build, reg := [], registry := [], pre := [], cur := Engine.reset, post := [],
    caps := Capacities.unbounded, pending := [] }

end Sys2Proof.Machine
end

