-- ==== Sys2Proof/Machine/Ops.lean ====
section
/-! DEFINITION. The named operations over buffers, capacities, the registry and results; how an operation ends, with results
or with an error (spec/60_exceptions.md R143: the one shared operation for every `raise`). -/

namespace Sys2Proof.Machine

open Sys2Proof

/-! ## Buffers -/

/-- The byte at an index among listed cells. -/
def cellsRead : List Host.Cell → Nat → Option Byte
  | [], _ => none
  | (a, b) :: rest, i => if a = i then some b else cellsRead rest i

/-- Insert or replace the cell of an index, keeping the indexes rising. -/
def cellsWrite : List Host.Cell → Nat → Byte → List Host.Cell
  | [], i, b => [(i, b)]
  | (a, c) :: rest, i, b =>
    if i < a then (i, b) :: (a, c) :: rest
    else if i = a then (i, b) :: rest
    else (a, c) :: cellsWrite rest i b

/-- A one-byte read (20_memory.md R35); `none` where the byte holds no value. -/
def Memory.read (m : Memory) (i : Nat) : Option Byte := cellsRead m.cells i

/-- A one-byte write (R35). -/
def Memory.write (m : Memory) (i : Nat) (b : Byte) : Memory := { cells := cellsWrite m.cells i b }

/-- `MemRead(S+i, 2)`: two one-byte accesses, big-endian (R8, R35). -/
def Memory.read16 (m : Memory) (i : Nat) : Option Half :=
  match m.read i, m.read (i + 1) with
  | some hi, some lo => some (be16 hi lo)
  | _, _ => none

/-- `MemWrite(S+i, 2, v)`: two one-byte accesses, big-endian (R8, R35). -/
def Memory.write16 (m : Memory) (i : Nat) (v : Half) : Memory :=
  (m.write i (hiByte v)).write (i + 1) (loByte v)

/-- Write the bytes of a sequence at `i`, `i + 1`, and so on. -/
def Memory.writeSeq (m : Memory) (i : Nat) : Bytes → Memory
  | [] => m
  | b :: rest => (m.write i b).writeSeq (i + 1) rest

/-- The `n` bytes from index `i` on; `none` where one of them holds no value. -/
def Memory.readSeq (m : Memory) (i : Nat) : Nat → Option Bytes
  | 0 => some []
  | n + 1 =>
    match m.read i, m.readSeq (i + 1) n with
    | some b, some rest => some (b :: rest)
    | _, _ => none

/-- Cells that hold a sequence from index `i` on. -/
def cellsOf (i : Nat) : Bytes → List Host.Cell
  | [] => []
  | b :: rest => (i, b) :: cellsOf (i + 1) rest

/-- The buffer that holds exactly a sequence, from index 0 on. -/
def Memory.ofBytes (s : Bytes) : Memory := { cells := cellsOf 0 s }

/-- `emit(b)` of R8 on a buffer and its length. -/
def Memory.emit (m : Memory) (len : Nat) (b : Byte) : Memory × Nat := (m.write len b, len + 1)

/-! ## Capacities -/

/-- Whether a number is within a capacity; `none` is unbounded (20_memory.md R31). -/
def withinCap (cap : Option Nat) (n : Nat) : Bool :=
  match cap with
  | none => true
  | some m => decide (n ≤ m)

/-- Whether a buffer index exists: it is below `BUF_MAX` (R30, R31). -/
def belowCap (cap : Option Nat) (i : Nat) : Bool :=
  match cap with
  | none => true
  | some m => decide (i < m)

/-! ## The registry -/

/-- `REG(id)` (42_registry.md R96). -/
def regLookup : List RegEntry → Half → Option CodecRef
  | [], _ => none
  | e :: rest, id => if e.id = id then some e.codec else regLookup rest id

/-- Whether some entry has the id. -/
def regHas : List RegEntry → Half → Bool
  | [], _ => false
  | e :: rest, id => decide (e.id = id) || regHas rest id

/-- "two entries of REGISTRY have the same id" (42_registry.md R98). -/
def hasDuplicateId : List RegEntry → Bool
  | [] => false
  | e :: rest => regHas rest e.id || hasDuplicateId rest

/-- Insert an entry before the first one with a greater or equal id. -/
def regInsert (e : RegEntry) : List RegEntry → List RegEntry
  | [] => [e]
  | f :: rest => if e.id.toNat ≤ f.id.toNat then e :: f :: rest else f :: regInsert e rest

/-- The map `{ id -> codec | (id, codec) in REGISTRY }` (R98), as a list sorted by id: maps that are equal are equal lists
(log 22). -/
def regOfList : List RegEntry → List RegEntry
  | [] => []
  | e :: rest => regInsert e (regOfList rest)

/-- Ids strictly rising from `lo` on: the canonical form of `REG`. -/
def regRisesFrom : Nat → List RegEntry → Bool
  | _, [] => true
  | lo, e :: rest => decide (lo ≤ e.id.toNat) && regRisesFrom (e.id.toNat + 1) rest

/-! ## How an operation ends -/

/-- Why an operation does not complete: it raises an error kind, which is a next state, or it reads an element that holds no
value, which is a fault of the model (R14(e)). -/
inductive Stop where
  | raise (k : ErrorKind)
  | noValue (e : Element)
  deriving DecidableEq, Repr

/-- The pure functions of the wire formats raise kinds; an operation that calls one raises the same kind. -/
def orRaise {α : Type} (r : Except ErrorKind α) : Except Stop α :=
  match r with
  | .ok a => .ok a
  | .error k => .error (.raise k)

/-- `raise k` (60_exceptions.md R143): no result element holds a value, `STATUS` is the kind's code, and nothing else
changes. Nothing is saved and control goes nowhere, so there is nothing to return from (R144). -/
def State.raise (k : ErrorKind) (s : State) : State :=
  { s with cur := { s.cur with res := Results.invalid, status := .error k } }

/-- The end of an operation that succeeds (R14(b)): exactly the result elements given hold a value and `STATUS` is `OK`. -/
def State.complete (r : Results) (s : State) : State :=
  { s with cur := { s.cur with res := r, status := .ok } }

/-- The end of an operation that changes nothing but results and `STATUS`. -/
def State.finish (s : State) (r : Except Stop Results) : Host.Outcome State Fault Refusal :=
  match r with
  | .ok res => .next (s.complete res)
  | .error (.raise k) => .next (s.raise k)
  | .error (.noValue e) => .fault (.noValue e)

/-- The results of an operation that yields a byte sequence: `OBUF` and `OLEN`, and no other. -/
def Results.ofOutput (o : Bytes) : Results :=
  { Results.invalid with obuf := Memory.ofBytes o, olen := some o.length }

end Sys2Proof.Machine
end

