-- ==== Sys2Proof/Machine/Operands.lean ====
section
/-! DEFINITION. Reading the operand elements (spec/10_state.md R12, R15, R16), each in one place. A read of an element that
holds no value is a fault of the model (R14(e)). An operation reads an element where its pseudocode names it (log 4). Also
the elements each row of the operation table names (30_encoding.md R46). -/

namespace Sys2Proof.Machine

open Sys2Proof

/-- `x[NAME]` (R8): the value, or the fault that names the element. -/
def readElement {α : Type} (e : Element) (o : Option α) : Except Stop α :=
  match o with
  | some v => .ok v
  | none => .error (.noValue e)

def Operands.readAccin (o : Operands) : Except Stop Half := readElement .accin o.accin
def Operands.readCmdid (o : Operands) : Except Stop Half := readElement .cmdid o.cmdid
def Operands.readCmdsize (o : Operands) : Except Stop Byte := readElement .cmdsize o.cmdsize
def Operands.readMsgid (o : Operands) : Except Stop Byte := readElement .msgid o.msgid
def Operands.readAccess (o : Operands) : Except Stop (BitVec 2) := readElement .access o.access
def Operands.readKeyv (o : Operands) : Except Stop (BitVec 1) := readElement .keyv o.keyv
def Operands.readKey (o : Operands) : Except Stop Key := readElement .key o.key
def Operands.readFtype (o : Operands) : Except Stop Byte := readElement .ftype o.ftype
def Operands.readDst (o : Operands) : Except Stop Half := readElement .dst o.dst
def Operands.readSrc (o : Operands) : Except Stop Half := readElement .src o.src
def Operands.readPin (o : Operands) : Except Stop Params := readElement .pin o.pin
def Operands.readIlen (o : Operands) : Except Stop Nat := readElement .ilen o.ilen
def Operands.readCq (o : Operands) : Except Stop (List Command) := readElement .cq o.cq

/-- `IBUF[0 .. x[ILEN])`, or none where `ILEN` or one of those bytes holds no value. Bytes at and beyond `ILEN` are not
looked at (70_reset_and_hazards.md R166(b)). -/
def Operands.inputBytes (o : Operands) : Option Bytes :=
  match o.ilen with
  | some n => o.ibuf.readSeq 0 n
  | none => none

/-- Reading `IBUF[0 .. x[ILEN])`. -/
def Operands.readInput (o : Operands) : Except Stop Bytes :=
  match o.ilen with
  | some n => readElement .ibuf (o.ibuf.readSeq 0 n)
  | none => .error (.noValue .ilen)

/-- The operand elements a row of R46 names; the wire-format rows carry their bytes themselves and name only what their
decoder reads beside them. -/
def operandsOf : Instr → List Element
  | .lrc => [.ibuf, .ilen]
  | .lrcUpd => [.accin, .ibuf, .ilen]
  | .crc16 => [.ibuf, .ilen]
  | .crc16Upd => [.accin, .ibuf, .ilen]
  | .crc16Fin => [.accin]
  | .hdrDec => [.ibuf, .ilen]
  | .hdrEnc => [.cmdid, .cmdsize]
  | .regBuild => [.registry]
  | .resolve => [.cmdid]
  | .cmdEnc => [.cmdid, .pin]
  | .cmdDec => [.cmdid, .ibuf, .ilen]
  | .msgPack => [.msgid, .access, .keyv, .key, .cq]
  | .msgUnpack => [.access, .keyv, .key, .ibuf, .ilen]
  | .escape => [.ibuf, .ilen]
  | .unescape => [.ibuf, .ilen]
  | .frameEnc => [.ftype, .dst, .src, .ibuf, .ilen]
  | .frameDec => [.ibuf, .ilen]
  | .frameMsgDec => [.access, .keyv, .key, .ibuf, .ilen]
  | .reservedOp00 => []
  | .reservedOp13 => []
  | .reservedOp14to17 _ => []
  | .reservedOp18to1F _ => []
  | .hdrShort _ _ => []
  | .hdrMedium _ _ => []
  | .hdrExtended _ _ => []
  | .escFlag => []
  | .escEsc => []
  | .escFlowA => []
  | .escFlowB => []
  | .escAny _ => []
  | .literal _ => []
  | .flag => []
  | .frame _ _ _ _ _ => []
  | .message _ _ _ => [.access, .keyv, .key]
  | .accessCode _ => []
  | .statusCode _ => []

/-- The result elements a row of R46 names as written on success (R14(b)). -/
def resultsOf : Instr → List Element
  | .lrc => [.lrc]
  | .lrcUpd => [.accout]
  | .crc16 => [.crc]
  | .crc16Upd => [.accout]
  | .crc16Fin => [.crc]
  | .hdrDec => [.hsize, .rcmdid, .rcmdsize]
  | .hdrEnc => [.obuf, .olen]
  | .regBuild => []
  | .resolve => [.found]
  | .cmdEnc => [.rcmdid, .rcmdsize, .obuf, .olen]
  | .cmdDec => [.rq]
  | .msgPack => [.obuf, .olen]
  | .msgUnpack => [.rmsgid, .raccess, .rchk, .rq]
  | .escape => [.obuf, .olen]
  | .unescape => [.obuf, .olen]
  | .frameEnc => [.obuf, .olen]
  | .frameDec => [.rtype, .rdst, .rsrc, .rcrc, .obuf, .olen]
  | .frameMsgDec => [.rtype, .rdst, .rsrc, .rcrc, .obuf, .olen, .rmsgid, .raccess, .rchk, .rq]
  | .reservedOp00 => []
  | .reservedOp13 => []
  | .reservedOp14to17 _ => []
  | .reservedOp18to1F _ => []
  | .hdrShort _ _ => [.hsize, .rcmdid, .rcmdsize]
  | .hdrMedium _ _ => [.hsize, .rcmdid, .rcmdsize]
  | .hdrExtended _ _ => [.hsize, .rcmdid, .rcmdsize]
  | .escFlag => [.obuf, .olen]
  | .escEsc => [.obuf, .olen]
  | .escFlowA => [.obuf, .olen]
  | .escFlowB => [.obuf, .olen]
  | .escAny _ => [.obuf, .olen]
  | .literal _ => [.obuf, .olen]
  | .flag => []
  | .frame _ _ _ _ _ => [.rtype, .rdst, .rsrc, .rcrc, .obuf, .olen]
  | .message _ _ _ => [.rmsgid, .raccess, .rchk, .rq]
  | .accessCode _ => []
  | .statusCode _ => []

/-- Whether a result element holds a value (R14). `OBUF` holds one where some byte of it does. -/
def Results.holds (r : Results) : Element → Bool
  | .accout => r.accout.isSome
  | .lrc => r.lrc.isSome
  | .crc => r.crc.isSome
  | .hsize => r.hsize.isSome
  | .rcmdid => r.rcmdid.isSome
  | .rcmdsize => r.rcmdsize.isSome
  | .found => r.found.isSome
  | .rmsgid => r.rmsgid.isSome
  | .raccess => r.raccess.isSome
  | .rchk => r.rchk.isSome
  | .rtype => r.rtype.isSome
  | .rdst => r.rdst.isSome
  | .rsrc => r.rsrc.isSome
  | .rcrc => r.rcrc.isSome
  | .obuf => !r.obuf.cells.isEmpty
  | .olen => r.olen.isSome
  | .rq => r.rq.isSome
  | .accin => false
  | .cmdid => false
  | .cmdsize => false
  | .msgid => false
  | .access => false
  | .keyv => false
  | .key => false
  | .ftype => false
  | .dst => false
  | .src => false
  | .pin => false
  | .ibuf => false
  | .ilen => false
  | .cq => false
  | .registry => false
  | .status => false
  | .phase => false

end Sys2Proof.Machine
end

