-- ==== Sys2Proof/Machine/ChecksumUnit.lean ====
section
/-! DEFINITION. The meanings of the CRC16 and LRC units' operations (spec/40_checksum.md R75 to R80). -/

namespace Sys2Proof.Machine

open Sys2Proof

/-- `LRC` (R79). -/
def execLrc (s : State) : Host.Outcome State Fault Refusal :=
  s.finish do
    let b ← s.cur.opnd.readInput
    return { Results.invalid with lrc := some (computeBlockParity Config.lrc b) }

/-- `LRC_UPD` (R80): `ACCIN[15:8]` is ignored and `lrc_final` is not applied. -/
def execLrcUpd (s : State) : Host.Outcome State Fault Refusal :=
  s.finish do
    let acc ← s.cur.opnd.readAccin
    let b ← s.cur.opnd.readInput
    return { Results.invalid with accout := some (zext16 (lrcAcc Config.lrc (loByte acc) b)) }

/-- `CRC16` (R75). -/
def execCrc16 (s : State) : Host.Outcome State Fault Refusal :=
  s.finish do
    let b ← s.cur.opnd.readInput
    return { Results.invalid with crc := some (computeFrameCrc Config.crc b) }

/-- `CRC16_UPD` (R76): the accumulator is neither complemented nor byte-exchanged. -/
def execCrc16Upd (s : State) : Host.Outcome State Fault Refusal :=
  s.finish do
    let acc ← s.cur.opnd.readAccin
    let b ← s.cur.opnd.readInput
    return { Results.invalid with accout := some (crcAcc Config.crc acc b) }

/-- `CRC16_FIN` (R77). -/
def execCrc16Fin (s : State) : Host.Outcome State Fault Refusal :=
  s.finish do
    let acc ← s.cur.opnd.readAccin
    return { Results.invalid with crc := some (crcFin Config.crc acc) }

end Sys2Proof.Machine
end

