-- ==== Sys2Proof/Machine/Dispatcher.lean ====
section
/-! DEFINITION. The meanings of the DISP unit's operations (spec/42_registry.md R95 to R102): the registry and the
dispatcher. -/

namespace Sys2Proof.Machine

open Sys2Proof

/-- `dispatch_decode` (R102). -/
def dispatchDecode (reg : List RegEntry) (id : Half) (raw body : Bytes) : CommandResult :=
  match regLookup reg id with
  | none => .invalid raw (.unknownCommand id)
  | some codec =>
    match Config.codecDecode codec body with
    | some p => .ok { id := id, body := body } p
    | none => .invalid raw .codecError

/-- The phase check of the registry-reading operations, before any operand is looked at (R99). -/
def requireRun (s : State) : Except Stop Unit :=
  match s.phase with
  | .build => .error (.raise .illegalOperation)
  | .run => .ok ()

/-- `REG_BUILD` (R98): the only operation that changes `REG` or `PHASE`. -/
def execRegBuild (s : State) : Host.Outcome State Fault Refusal :=
  match s.phase with
  | .run => .next (s.raise .illegalOperation)
  | .build =>
    if hasDuplicateId s.registry then .next (s.raise .badOperand)
    else .next (State.complete Results.invalid { s with reg := regOfList s.registry, phase := .run })

/-- `RESOLVE` (R97). -/
def execResolve (s : State) : Host.Outcome State Fault Refusal :=
  s.finish do
    requireRun s
    let id ← s.cur.opnd.readCmdid
    match regLookup s.reg id with
    | none => .error (.raise .unknownCommand)
    | some _ => return { Results.invalid with found := some 1 }

/-- `CMD_ENC` (R100). -/
def execCmdEnc (s : State) : Host.Outcome State Fault Refusal :=
  s.finish do
    requireRun s
    let id ← s.cur.opnd.readCmdid
    match regLookup s.reg id with
    | none => .error (.raise .unknownCommand)
    | some codec =>
      let p ← s.cur.opnd.readPin
      let body := Config.codecEncode codec p
      if body.length > 255 then .error (.raise .invalidCommand)
      else if withinCap s.caps.bufMax body.length then
        return { Results.ofOutput body with
          rcmdid := some id, rcmdsize := some (BitVec.ofNat 8 body.length) }
      else .error (.raise .capacityExceeded)

/-- `CMD_DEC` (R101). Its one entry must fit `RQ_MAX` like any other result (20_memory.md R31; log 15). -/
def execCmdDec (s : State) : Host.Outcome State Fault Refusal :=
  s.finish do
    requireRun s
    let n ← s.cur.opnd.readIlen
    if n > 255 then .error (.raise .badOperand)
    else
      let body ← s.cur.opnd.readInput
      let id ← s.cur.opnd.readCmdid
      if withinCap s.caps.rqMax 1 then
        return { Results.invalid with rq := some [dispatchDecode s.reg id body body] }
      else .error (.raise .capacityExceeded)

end Sys2Proof.Machine
end

