-- ==== Sys2Proof/Machine/MessageUnit.lean ====
section
/-! DEFINITION. The message packer (spec/43_message.md): packing, the encryption stage, unpacking with per-command recovery,
and the meanings of `MSG_PACK` and `MSG_UNPACK`. The pure functions take the checksum triple as an argument (R78, U7). -/

namespace Sys2Proof.Machine

open Sys2Proof

/-- `requires_encryption` (R114). -/
def requiresEncryption (access : BitVec 2) : Bool := access == 1 || access == 2

/-- Step 1 of `MSG_PACK` (R109): each header followed by its body, in queue order; the first command that has no header, or
a body longer than 255 bytes (R108), ends the packing. -/
def packCommands : List Command → Except ErrorKind Bytes
  | [] => .ok []
  | c :: rest =>
    if c.body.length > 255 then .error .invalidCommand
    else
      match hdrEnc c.id (BitVec.ofNat 8 c.body.length) with
      | .error k => .error k
      | .ok h =>
        match packCommands rest with
        | .error k => .error k
        | .ok p => .ok (h ++ c.body ++ p)

/-- The checksum of a message: over the message id and the plaintext region (R107). -/
def messageChecksum (p : LrcParams) (mid : Byte) (plain : Bytes) : Byte :=
  computeBlockParity p (mid :: plain)

/-- The key test of `MSG_PACK` (R109): with a level that encrypts there must be a key. `KEYV` is read at every level: R12 and
R109 exempt `KEY` alone (log 4). -/
def requireKey (o : Operands) (access : BitVec 2) : Except Stop Unit := do
  let kv ← o.readKeyv
  if requiresEncryption access = true ∧ kv = 0 then .error (.raise .badOperand) else return ()

/-- Step 3 of `MSG_PACK` (R109): the region as it is sent. `KEY` is read only where the level encrypts. -/
def encryptRegion (o : Operands) (access : BitVec 2) (plain : Bytes) : Except Stop Bytes :=
  if requiresEncryption access then do
    let k ← o.readKey
    return Config.cipherEnc k plain
  else .ok plain

/-- The region as it is checked on the way in (R111, R115): decrypted if the level encrypts and a key is supplied, else as it
stands. `KEY` is read only where it is used. -/
def decryptRegion (o : Operands) (access : BitVec 2) (keyv : BitVec 1) (region : Bytes) : Except Stop Bytes :=
  if requiresEncryption access = true ∧ keyv = 1 then do
    let k ← o.readKey
    return Config.cipherDec k region
  else .ok region

/-- `unpack_commands` (R112) on the bytes that remain. Every round consumes at least one byte, so as much fuel as there are
bytes is enough. -/
def unpackFrom (reg : List RegEntry) : Nat → Bytes → List CommandResult
  | 0, _ => []
  | fuel + 1, r =>
    if r.isEmpty then []
    else
      match hdrDec r with
      | .error _ => [.invalid r .bufferTooShort]
      | .ok h =>
        let ext := h.headerSize + h.commandSize.toNat
        if ext > r.length then [.invalid r .bufferTooShort]
        else
          dispatchDecode reg h.commandId (r.take ext) ((r.take ext).drop h.headerSize)
            :: unpackFrom reg fuel (r.drop ext)

/-- `unpack_commands` (R112). -/
def unpackCommands (reg : List RegEntry) (plain : Bytes) : List CommandResult :=
  unpackFrom reg plain.length plain

/-- A decoded message (R111). -/
structure MessageResult where
  messageId   : Byte
  accessLevel : BitVec 2
  commands    : List CommandResult
  checksum    : Byte
  deriving DecidableEq, Repr

/-- The part of `msg_unpack` after the tests of `PHASE` and `ACCESS` (R111). -/
def unpackMessage (p : LrcParams) (s : State) (access : BitVec 2) (keyv : BitVec 1) (b : Bytes) :
    Except Stop MessageResult :=
  match b with
  | mid :: x :: rest => do
    let chk := (x :: rest).getLastD 0
    let plain ← decryptRegion s.cur.opnd access keyv (x :: rest).dropLast
    if messageChecksum p mid plain ≠ chk then .error (.raise .checksumMismatch)
    else
      let l := unpackCommands s.reg plain
      if withinCap s.caps.rqMax l.length then
        return { messageId := mid, accessLevel := access, commands := l, checksum := chk }
      else .error (.raise .capacityExceeded)
  | _ => .error (.raise .bufferTooShort)

/-- The tests `msg_unpack` and `FRAME_MSG_DEC` make first (R111, 44_frame.md R132): the phase, then the access level, which
they answer with. -/
def requireAccess (s : State) : Except Stop (BitVec 2) := do
  requireRun s
  let a ← s.cur.opnd.readAccess
  if a = 3 then .error (.raise .badOperand) else return a

/-- `msg_unpack` (R111) of the bytes `input` yields; they and `KEYV` are looked at after the tests of `PHASE` and `ACCESS`
(R99, R145). `KEYV` is an argument, so it is read at every level (log 4). -/
def msgUnpack (p : LrcParams) (s : State) (input : Except Stop Bytes) : Except Stop MessageResult := do
  let a ← requireAccess s
  let kv ← s.cur.opnd.readKeyv
  let b ← input
  unpackMessage p s a kv b

/-- The result elements a decoded message is delivered in (R111). -/
def messageResults (m : MessageResult) (r : Results) : Results :=
  { r with
    rmsgid := some m.messageId, raccess := some m.accessLevel, rchk := some m.checksum, rq := some m.commands }

/-- `MSG_PACK` for any checksum triple (R109). -/
def packMessage (p : LrcParams) (s : State) : Except Stop Results := do
  let a ← s.cur.opnd.readAccess
  if a = 3 then .error (.raise .badOperand)
  else
    requireKey s.cur.opnd a
    let cq ← s.cur.opnd.readCq
    let plain ← orRaise (packCommands cq)
    let mid ← s.cur.opnd.readMsgid
    let region ← encryptRegion s.cur.opnd a plain
    let m := mid :: (region ++ [messageChecksum p mid plain])
    if withinCap s.caps.bufMax m.length then return Results.ofOutput m
    else .error (.raise .capacityExceeded)

/-- `MSG_PACK` (R109). It does not read `REG` and runs in either phase. -/
def execMsgPack (s : State) : Host.Outcome State Fault Refusal :=
  s.finish (packMessage Config.lrc s)

/-- `MSG_UNPACK` (R111). -/
def execMsgUnpack (s : State) : Host.Outcome State Fault Refusal :=
  s.finish do
    let m ← msgUnpack Config.lrc s s.cur.opnd.readInput
    return messageResults m Results.invalid

end Sys2Proof.Machine
end

