-- ==== Sys2Proof/Machine/FrameUnit.lean ====
section
/-! DEFINITION. The meanings of the FRM unit's operations (spec/44_frame.md R122 to R132). -/

namespace Sys2Proof.Machine

open Sys2Proof

/-- `ESCAPE` (R122). -/
def execEscape (s : State) : Host.Outcome State Fault Refusal :=
  s.finish do
    let b ← s.cur.opnd.readInput
    let o := escape b
    if withinCap s.caps.bufMax o.length then return Results.ofOutput o
    else .error (.raise .capacityExceeded)

/-- What `UNESCAPE` delivers for the bytes it is given (R124). -/
def unescapeResults (s : Bytes) : Except Stop Results := do
  let o ← orRaise (unescape s)
  return Results.ofOutput o

/-- `UNESCAPE` (R124). Its output is never longer than its input, so it makes no capacity test. -/
def execUnescape (s : State) : Host.Outcome State Fault Refusal :=
  s.finish do
    let b ← s.cur.opnd.readInput
    unescapeResults b

/-- `FRAME_ENC` (R128). -/
def execFrameEnc (s : State) : Host.Outcome State Fault Refusal :=
  s.finish do
    let type ← s.cur.opnd.readFtype
    let dst ← s.cur.opnd.readDst
    let src ← s.cur.opnd.readSrc
    let msg ← s.cur.opnd.readInput
    let w := frameEnc Config.crc type dst src msg
    if withinCap s.caps.bufMax w.length then return Results.ofOutput w
    else .error (.raise .capacityExceeded)

/-- The result elements a decoded frame is delivered in (R130, R132). -/
def frameResults (f : Frame) : Results :=
  { Results.ofOutput f.msg with
    rtype := some f.type, rdst := some f.dst, rsrc := some f.src, rcrc := some f.crc }

/-- What `FRAME_DEC` delivers for the bytes it is given (R130). -/
def frameDecResults (w : Bytes) : Except Stop Results := do
  let f ← orRaise (frameDec Config.crc w)
  return frameResults f

/-- `FRAME_DEC` (R130). It does not read `REG`. -/
def execFrameDec (s : State) : Host.Outcome State Fault Refusal :=
  s.finish do
    let w ← s.cur.opnd.readInput
    frameDecResults w

/-- `FRAME_MSG_DEC` (R132): the frame stage runs to its end first; if the message stage raises, no frame field is delivered
either. -/
def execFrameMsgDec (s : State) : Host.Outcome State Fault Refusal :=
  s.finish do
    let a ← requireAccess s
    let w ← s.cur.opnd.readInput
    let f ← orRaise (frameDec Config.crc w)
    let kv ← s.cur.opnd.readKeyv
    let m ← unpackMessage Config.lrc s a kv f.msg
    return messageResults m (frameResults f)

end Sys2Proof.Machine
end

