-- ==== Sys2Proof/Machine/HeaderUnit.lean ====
section
/-! DEFINITION. The meanings of the HDR unit's operations (spec/41_header.md R86, R88). -/

namespace Sys2Proof.Machine

open Sys2Proof

/-- The result elements a decoded header is delivered in (R86). -/
def headerRegisters (h : Header) : Results :=
  { Results.invalid with
    hsize := some (BitVec.ofNat 2 h.headerSize), rcmdid := some h.commandId, rcmdsize := some h.commandSize }

/-- What `HDR_DEC` delivers for the bytes it is given (R86). -/
def headerResults (s : Bytes) : Except Stop Results := do
  let h ← orRaise (hdrDec s)
  return headerRegisters h

/-- `HDR_DEC` (R86). -/
def execHdrDec (s : State) : Host.Outcome State Fault Refusal :=
  s.finish do
    let b ← s.cur.opnd.readInput
    headerResults b

/-- `HDR_ENC` (R88). The header must fit `BUF_MAX` like any other output (20_memory.md R31; log 15). -/
def execHdrEnc (s : State) : Host.Outcome State Fault Refusal :=
  s.finish do
    let id ← s.cur.opnd.readCmdid
    let size ← s.cur.opnd.readCmdsize
    let o ← orRaise (hdrEnc id size)
    if withinCap s.caps.bufMax o.length then return Results.ofOutput o
    else .error (.raise .capacityExceeded)

end Sys2Proof.Machine
end

