-- ==== Sys2Proof/Machine/Reserved.lean ====
section
/-! DEFINITION. The meanings of the reserved operation codes (spec/30_encoding.md R48): the results are invalidated,
`IllegalOperation` is raised, `REG` and `PHASE` are unchanged. -/

namespace Sys2Proof.Machine

open Sys2Proof

/-- Code `0x00` (R48). -/
def execReservedOp00 (s : State) : Host.Outcome State Fault Refusal :=
  .next (s.raise .illegalOperation)

/-- Code `0x13` (R48). -/
def execReservedOp13 (s : State) : Host.Outcome State Fault Refusal :=
  .next (s.raise .illegalOperation)

/-- Codes `0x14` to `0x17` (R48); the low bits select nothing. -/
def execReservedOp14to17 (_low : BitVec 2) (s : State) : Host.Outcome State Fault Refusal :=
  .next (s.raise .illegalOperation)

/-- Codes `0x18` to `0x1F` (R48); the low bits select nothing. -/
def execReservedOp18to1F (_low : BitVec 3) (s : State) : Host.Outcome State Fault Refusal :=
  .next (s.raise .illegalOperation)

end Sys2Proof.Machine
end

