-- ==== Sys2Proof/Machine/WireItems.lean ====
section
/-! DEFINITION. The meanings of the table's wire-format and enumeration rows, which are no operations (spec/30_encoding.md
R45). DESIGN CHOICE (log 5): a wire-format row's meaning is what the unit that decodes its format does when the row's bytes
are its whole input, in place of `IBUF`; `IBUF` itself is not written. -/

namespace Sys2Proof.Machine

open Sys2Proof

/-- The short header (R50), given to the header decoder (41_header.md R86). -/
def execHdrShort (top : BitVec 3) (size : BitVec 5) (s : State) : Host.Outcome State Fault Refusal :=
  s.finish (headerResults (encodeBytes (.hdrShort top size)))

/-- The medium header (R51), given to the header decoder. -/
def execHdrMedium (id : BitVec 5) (size : Byte) (s : State) : Host.Outcome State Fault Refusal :=
  s.finish (headerResults (encodeBytes (.hdrMedium id size)))

/-- The extended header (R52), given to the header decoder. -/
def execHdrExtended (idHigh size : Byte) (s : State) : Host.Outcome State Fault Refusal :=
  s.finish (headerResults (encodeBytes (.hdrExtended idHigh size)))

/-- `7D 5E` (R59), given to the unescape machine (44_frame.md R125). -/
def execEscFlag (s : State) : Host.Outcome State Fault Refusal :=
  s.finish (unescapeResults (encodeBytes .escFlag))

/-- `7D 5D` (R59), given to the unescape machine. -/
def execEscEsc (s : State) : Host.Outcome State Fault Refusal :=
  s.finish (unescapeResults (encodeBytes .escEsc))

/-- `7D 31` (R59), given to the unescape machine. -/
def execEscFlowA (s : State) : Host.Outcome State Fault Refusal :=
  s.finish (unescapeResults (encodeBytes .escFlowA))

/-- `7D 33` (R59), given to the unescape machine. -/
def execEscFlowB (s : State) : Host.Outcome State Fault Refusal :=
  s.finish (unescapeResults (encodeBytes .escFlowB))

/-- `7D f` for any follower (44_frame.md R125), given to the unescape machine. -/
def execEscAny (follower : Byte) (s : State) : Host.Outcome State Fault Refusal :=
  s.finish (unescapeResults (encodeBytes (.escAny follower)))

/-- A byte that stands for itself (R59), given to the unescape machine. -/
def execLiteral (b : Byte) (s : State) : Host.Outcome State Fault Refusal :=
  s.finish (unescapeResults (encodeBytes (.literal b)))

/-- A lone delimiter (R58), given to the frame decoder: a buffer of fewer than two bytes (44_frame.md R129). -/
def execFlag (s : State) : Host.Outcome State Fault Refusal :=
  s.finish (frameDecResults (encodeBytes .flag))

/-- A whole frame (R57), given to the frame decoder (44_frame.md R130). -/
def execFrame (type : Byte) (dst src : Half) (msg : Bytes) (crc : Half) (s : State) :
    Host.Outcome State Fault Refusal :=
  s.finish (frameDecResults (encodeBytes (.frame type dst src msg crc)))

/-- A whole message (R56), given to the message unpacker (43_message.md R111). -/
def execMessage (mid : Byte) (region : Bytes) (chk : Byte) (s : State) : Host.Outcome State Fault Refusal :=
  s.finish do
    let m ← msgUnpack Config.lrc s (.ok (encodeBytes (.message mid region chk)))
    return messageResults m Results.invalid

/-- An access level code (R60): the host's write of it to `ACCESS`. DESIGN CHOICE (log 7). All four codes can be written;
code 3 makes the operations that read it raise `BadOperand`. -/
def execAccessCode (a : BitVec 2) (s : State) : Host.Outcome State Fault Refusal :=
  .next { s with cur := { s.cur with opnd := { s.cur.opnd with access := some a } } }

/-- A status code (60_exceptions.md R141): the last act of an operation that ends with this code and delivers no result
(R19, R143). DESIGN CHOICE (log 6). -/
def execStatusCode (c : Status) (s : State) : Host.Outcome State Fault Refusal :=
  match c with
  | .ok => .next (s.complete Results.invalid)
  | .error k => .next (s.raise k)

end Sys2Proof.Machine
end

