-- ==== Sys2Proof/Machine/Dispatch.lean ====
section
/-! DEFINITION. One arm per row of the table (spec/30_encoding.md R46), each a direct call of that row's meaning. -/

namespace Sys2Proof.Machine

open Sys2Proof

def exec (i : Instr) (s : State) : Host.Outcome State Fault Refusal :=
  match i with
  | .lrc => Sys2Proof.Machine.execLrc s
  | .lrcUpd => Sys2Proof.Machine.execLrcUpd s
  | .crc16 => Sys2Proof.Machine.execCrc16 s
  | .crc16Upd => Sys2Proof.Machine.execCrc16Upd s
  | .crc16Fin => Sys2Proof.Machine.execCrc16Fin s
  | .hdrDec => Sys2Proof.Machine.execHdrDec s
  | .hdrEnc => Sys2Proof.Machine.execHdrEnc s
  | .regBuild => Sys2Proof.Machine.execRegBuild s
  | .resolve => Sys2Proof.Machine.execResolve s
  | .cmdEnc => Sys2Proof.Machine.execCmdEnc s
  | .cmdDec => Sys2Proof.Machine.execCmdDec s
  | .msgPack => Sys2Proof.Machine.execMsgPack s
  | .msgUnpack => Sys2Proof.Machine.execMsgUnpack s
  | .escape => Sys2Proof.Machine.execEscape s
  | .unescape => Sys2Proof.Machine.execUnescape s
  | .frameEnc => Sys2Proof.Machine.execFrameEnc s
  | .frameDec => Sys2Proof.Machine.execFrameDec s
  | .frameMsgDec => Sys2Proof.Machine.execFrameMsgDec s
  | .reservedOp00 => Sys2Proof.Machine.execReservedOp00 s
  | .reservedOp13 => Sys2Proof.Machine.execReservedOp13 s
  | .reservedOp14to17 low => Sys2Proof.Machine.execReservedOp14to17 low s
  | .reservedOp18to1F low => Sys2Proof.Machine.execReservedOp18to1F low s
  | .hdrShort top size => Sys2Proof.Machine.execHdrShort top size s
  | .hdrMedium id size => Sys2Proof.Machine.execHdrMedium id size s
  | .hdrExtended idHigh size => Sys2Proof.Machine.execHdrExtended idHigh size s
  | .escFlag => Sys2Proof.Machine.execEscFlag s
  | .escEsc => Sys2Proof.Machine.execEscEsc s
  | .escFlowA => Sys2Proof.Machine.execEscFlowA s
  | .escFlowB => Sys2Proof.Machine.execEscFlowB s
  | .escAny follower => Sys2Proof.Machine.execEscAny follower s
  | .literal b => Sys2Proof.Machine.execLiteral b s
  | .flag => Sys2Proof.Machine.execFlag s
  | .frame type dst src msg crc => Sys2Proof.Machine.execFrame type dst src msg crc s
  | .message mid region chk => Sys2Proof.Machine.execMessage mid region chk s
  | .accessCode a => Sys2Proof.Machine.execAccessCode a s
  | .statusCode c => Sys2Proof.Machine.execStatusCode c s

end Sys2Proof.Machine
end

