-- ==== Sys2Proof/Machine/HostMoves.lean ====
section
/-! DEFINITION. The moves of the host (spec/70_reset_and_hazards.md R168, R160; spec/60_exceptions.md R155) and the
pseudo-operations made of them (spec/30_encoding.md R64). -/

namespace Sys2Proof.Machine

open Sys2Proof

/-! ## Writing operand elements -/

/-- A host write of an operand element. One that does not fit a capacity cannot be made at all (20_memory.md R31, D6). -/
def hostWrite (w : HostWrite) (s : State) : Host.Outcome State Fault Refusal :=
  let put (o : Operands) : Host.Outcome State Fault Refusal := .next { s with cur := { s.cur with opnd := o } }
  let o := s.cur.opnd
  match w with
  | .accin v => put { o with accin := some v }
  | .cmdid v => put { o with cmdid := some v }
  | .cmdsize v => put { o with cmdsize := some v }
  | .msgid v => put { o with msgid := some v }
  | .access v => put { o with access := some v }
  | .keyv v => put { o with keyv := some v }
  | .key v => put { o with key := some v }
  | .ftype v => put { o with ftype := some v }
  | .dst v => put { o with dst := some v }
  | .src v => put { o with src := some v }
  | .pin v => put { o with pin := some v }
  | .ibufByte i b =>
    if belowCap s.caps.bufMax i then put { o with ibuf := o.ibuf.write i b } else .fault (.doesNotFit .ibuf)
  | .ibuf b =>
    if withinCap s.caps.bufMax b.length then put { o with ibuf := o.ibuf.writeSeq 0 b, ilen := some b.length }
    else .fault (.doesNotFit .ibuf)
  | .ilen n =>
    if withinCap s.caps.bufMax n then put { o with ilen := some n } else .fault (.doesNotFit .ilen)
  | .cq l =>
    if withinCap s.caps.cqMax l.length then put { o with cq := some l } else .fault (.doesNotFit .cq)
  | .registry l => .next { s with registry := l }

/-! ## Reading results -/

/-- Whether the host may read an element: the result elements, `STATUS` and `PHASE` (R13, R19, R168). -/
def hostReadable : Element → Bool
  | .accout => true
  | .lrc => true
  | .crc => true
  | .hsize => true
  | .rcmdid => true
  | .rcmdsize => true
  | .found => true
  | .rmsgid => true
  | .raccess => true
  | .rchk => true
  | .rtype => true
  | .rdst => true
  | .rsrc => true
  | .rcrc => true
  | .obuf => true
  | .olen => true
  | .rq => true
  | .status => true
  | .phase => true
  | .accin => false
  | .cmdid => false
  | .cmdsize => false
  | .msgid => false
  | .access => false
  | .keyv => false
  | .key => false
  | .ftype => false
  | .dst => false
  | .src => false
  | .pin => false
  | .ibuf => false
  | .ilen => false
  | .cq => false
  | .registry => false

/-- `OBUF[0 .. x[OLEN])`, or none where they hold no value. -/
def Results.outputBytes (r : Results) : Option Bytes :=
  match r.olen with
  | some n => r.obuf.readSeq 0 n
  | none => none

/-- Whether a read of an element finds a value: `STATUS` and `PHASE` always do, and `OBUF` as a whole does where its `OLEN`
bytes do. -/
def elementHolds (s : State) (e : Element) : Bool :=
  match e with
  | .status => true
  | .phase => true
  | .obuf => s.cur.res.outputBytes.isSome
  | _ => s.cur.res.holds e

/-- A host read: it has no side effect (20_memory.md R37); of an element that holds no value it is a fault (R14(e)). -/
def hostRead (e : Element) (s : State) : Host.Outcome State Fault Refusal :=
  if hostReadable e then
    if elementHolds s e then .next s else .fault (.noValue e)
  else .fault (.notReadable e)

/-- A host read of one byte of `OBUF` (R15, R35). -/
def hostReadObuf (i : Nat) (s : State) : Host.Outcome State Fault Refusal :=
  match s.cur.res.obuf.read i with
  | some _ => .next s
  | none => .fault (.noValue .obuf)

/-! ## The remaining moves -/

/-- The host copies `OBUF` to `IBUF` (R64, R165). -/
def hostCopyObuf (s : State) : Host.Outcome State Fault Refusal :=
  match s.cur.res.outputBytes with
  | some b => hostWrite (.ibuf b) s
  | none => .fault (.noValue .obuf)

/-- The host copies `ACCOUT` to `ACCIN` (R64, R166(c)). -/
def hostCopyAccout (s : State) : Host.Outcome State Fault Refusal :=
  match s.cur.res.accout with
  | some v => hostWrite (.accin v) s
  | none => .fault (.noValue .accout)

/-- The host reads `STATUS` and, unless it is `OK`, gives up its next `n` moves (R64: "the expansion stops there"). -/
def hostSkipUnlessOk (n : Nat) (s : State) : Host.Outcome State Fault Refusal :=
  match s.cur.status with
  | .ok => .next s
  | .error _ => .next { s with pending := s.pending.drop n }

/-- All engines of the block, in order. -/
def State.engines (s : State) : List Engine := s.pre ++ s.cur :: s.post

/-- The host turns to engine `k` (60_exceptions.md R155). -/
def hostSelect (k : Nat) (s : State) : Host.Outcome State Fault Refusal :=
  match s.engines[k]? with
  | some e => .next { s with pre := s.engines.take k, cur := e, post := s.engines.drop (k + 1) }
  | none => .fault (.noEngine k)

/-- The reset event (R160): every element takes its reset value, on every engine. The parameters (the `REGISTRY` list, the
capacities, the number of engines; R5, R6) and the host's further moves are no elements of the block and stay (log 21). -/
def hostReset (s : State) : State :=
  { phase := .build, reg := [], registry := s.registry,
    pre := s.pre.map fun _ => Engine.reset, cur := Engine.reset, post := s.post.map fun _ => Engine.reset,
    caps := s.caps, pending := s.pending }

/-! ## The next move -/

/-- What the next step does. -/
inductive Next where
  | idle                                                  -- no move is pending
  | run (i : Instr) (s : State)                           -- run an instruction
  | done (o : Host.Outcome State Fault Refusal)           -- a move of the host that runs no instruction

/-- Take the oldest pending move (R39: in the order the host issues them). A write of `OP` runs the operation its code
selects; the model's own item move runs the row its bytes decode to, and must fit `BUF_MAX` like any input. -/
def nextMove (s : State) : Next :=
  match s.pending with
  | [] => .idle
  | m :: rest =>
    let s := { s with pending := rest }
    match m with
    | .issue op => .run (decodeOp op) s
    | .item sp w =>
      match decode sp w with
      | .ok i => if withinCap s.caps.bufMax w.length then .run i s else .done (.fault (.doesNotFit .ibuf))
      | .error e => .done (.refused (.notAWord e))
    | .write w => .done (hostWrite w s)
    | .read e => .done (hostRead e s)
    | .readObuf i => .done (hostReadObuf i s)
    | .copyObuf => .done (hostCopyObuf s)
    | .copyAccout => .done (hostCopyAccout s)
    | .skipUnlessOk n => .done (hostSkipUnlessOk n s)
    | .select k => .done (hostSelect k s)
    | .reset => .done (.next (hostReset s))

/-! ## Running one table word -/

/-- The move that runs a table word: a write of `OP` for an operation word, the model's own item move for another row. -/
def tableMove (nbits w : Nat) : Move :=
  match tableWord nbits w with
  | (.op, [b]) => if b.toNat < 32 then .issue (b.setWidth 5) else .item .op [b]
  | (sp, bytes) => .item sp bytes

/-- Give a value to each named operand element that holds none: zero, or an empty sequence (log 3). `KEY` is left alone: an
operation reads it only where the host has asked for encryption. -/
def supplyOperand (s : State) (e : Element) : State :=
  let o := s.cur.opnd
  let put (o : Operands) : State := { s with cur := { s.cur with opnd := o } }
  match e with
  | .accin => if o.accin.isSome then s else put { o with accin := some 0 }
  | .cmdid => if o.cmdid.isSome then s else put { o with cmdid := some 0 }
  | .cmdsize => if o.cmdsize.isSome then s else put { o with cmdsize := some 0 }
  | .msgid => if o.msgid.isSome then s else put { o with msgid := some 0 }
  | .access => if o.access.isSome then s else put { o with access := some 0 }
  | .keyv => if o.keyv.isSome then s else put { o with keyv := some 0 }
  | .ftype => if o.ftype.isSome then s else put { o with ftype := some 0 }
  | .dst => if o.dst.isSome then s else put { o with dst := some 0 }
  | .src => if o.src.isSome then s else put { o with src := some 0 }
  | .pin => if o.pin.isSome then s else put { o with pin := some { token := 0 } }
  | .ilen => if o.ilen.isSome then s else put { o with ilen := some 0 }
  | .cq => if o.cq.isSome then s else put { o with cq := some [] }
  | _ => s

/-- What the host must have written before it runs an instruction (R161), where nothing has been written. -/
def supplyOperands (i : Instr) (s : State) : State := (operandsOf i).foldl supplyOperand s

/-! ## Pseudo-operations -/

/-- `SEND` (R64): `MSG_PACK`, the host's copy of `OBUF` to `IBUF`, `FRAME_ENC`. If `MSG_PACK` raises, it stops there.
`key` is the key where one is supplied. -/
def pseudoSend (mid : Byte) (access : BitVec 2) (key : Option Key) (type : Byte) (dst src : Half) (cq : List Command) :
    List Move :=
  [.write (.msgid mid), .write (.access access)]
    ++ (match key with
        | some k => [.write (.keyv 1), .write (.key k)]
        | none => [.write (.keyv 0)])
    ++ [.write (.cq cq), .issue 0x0C, .skipUnlessOk 5, .copyObuf, .write (.ftype type), .write (.dst dst),
        .write (.src src), .issue 0x10]

/-- `RECV` (R64): `FRAME_MSG_DEC` itself. -/
def pseudoRecv (access : BitVec 2) (key : Option Key) (buf : Bytes) : List Move :=
  [.write (.access access)]
    ++ (match key with
        | some k => [.write (.keyv 1), .write (.key k)]
        | none => [.write (.keyv 0)])
    ++ [.write (.ibuf buf), .issue 0x12]

/-- The second and later chunks of a stream: each starts from the previous `ACCOUT` (R64). -/
def streamRest (op : BitVec 5) : List Bytes → List Move
  | [] => []
  | c :: rest => .copyAccout :: .write (.ibuf c) :: .issue op :: streamRest op rest

/-- `CRC16_STREAM chunk_1, ..., chunk_n` (R64), `n >= 1`; the first chunk is an argument of its own. -/
def pseudoCrc16Stream (first : Bytes) (rest : List Bytes) : List Move :=
  [.write (.accin 0xFFFF), .write (.ibuf first), .issue 0x04] ++ streamRest 0x04 rest ++ [.copyAccout, .issue 0x05]

/-- `LRC_STREAM chunk_1, ..., chunk_n` (R64): the result is `ACCOUT[7:0]` of the last step. -/
def pseudoLrcStream (first : Bytes) (rest : List Bytes) : List Move :=
  [.write (.accin 0x0055), .write (.ibuf first), .issue 0x02] ++ streamRest 0x02 rest

end Sys2Proof.Machine
end

