-- ==== Sys2Proof/Machine/Step.lean ====
section
/-! DEFINITION. One step of the block: it carries out the oldest pending move of the host (log 1). With no move pending the
block is idle and nothing changes (spec/70_reset_and_hazards.md R160; log 19). -/

namespace Sys2Proof.Machine

open Sys2Proof

/-- One step. Operations are atomic (20_memory.md R38). -/
def step (s : State) : Host.Outcome State Fault Refusal :=
  match nextMove s with
  | .idle => .next s
  | .run i s' => exec i s'
  | .done o => o

/-- `s` with a table word as the host's next move, and the operand elements its row names written where they hold no value
(R161; log 1, log 3, log 8). -/
def State.withFetchWord (s : State) (nbits w : Nat) : State :=
  let s' := match decodeTableWord nbits w with
    | some i => supplyOperands i s
    | none => s
  { s' with pending := tableMove nbits w :: s'.pending }

end Sys2Proof.Machine
end

