-- ==== Sys2Proof/Laws/Bits.lean ====
section
/-! SUPPORT. The byte-order helpers undo each other. -/

namespace Sys2Proof.Machine

open Sys2Proof

@[simp] theorem be16_hi_lo (v : Half) : be16 (hiByte v) (loByte v) = v := by
  apply BitVec.eq_of_getLsbD_eq
  intro i hi
  rcases Nat.lt_or_ge i 8 with h | h
  · simp [be16, hiByte, loByte, h, hi]
  · have h1 : i - 8 < 8 := by omega
    have h2 : 8 + (i - 8) = i := by omega
    simp [be16, hiByte, loByte, hi, h1, h2, Nat.not_lt.mpr h]

@[simp] theorem hiByte_be16 (a b : Byte) : hiByte (be16 a b) = a := by
  apply BitVec.eq_of_getLsbD_eq
  intro i hi
  have h1 : 8 + i < 16 := by omega
  have h2 : 8 + i - 8 = i := by omega
  simp [be16, hiByte, hi, h1, h2]

@[simp] theorem loByte_be16 (a b : Byte) : loByte (be16 a b) = b := by
  apply BitVec.eq_of_getLsbD_eq
  intro i hi
  have h1 : i < 16 := by omega
  simp [be16, loByte, h1, hi]

@[simp] theorem loByte_zext16 (b : Byte) : loByte (zext16 b) = b := by
  apply BitVec.eq_of_getLsbD_eq
  intro i hi
  have h1 : i < 16 := by omega
  simp [loByte, zext16, h1, hi]

end Sys2Proof.Machine
end

