-- ==== Sys2Proof/Safety.lean ====
section
/-! DEFINITION. What claims are stated in: which moves are the host's, when the operands an instruction reads are there,
runs, and the invariant of the block. -/

namespace Sys2Proof.Machine

open Sys2Proof

/-- The moves the spec gives the host (70_reset_and_hazards.md R168, R160, R64, R155): all but the model's own item move. A
run of the hardware is a run of these. -/
def Move.isHosts : Move → Bool
  | .item _ _ => false
  | _ => true

/-- Whether an operand element holds a value (R14(d)); for `IBUF`, whether the bytes below `ILEN` do. The `REGISTRY` list is a
parameter and always there (R5, R98). -/
def operandHeld (s : State) : Element → Bool
  | .accin => s.cur.opnd.accin.isSome
  | .cmdid => s.cur.opnd.cmdid.isSome
  | .cmdsize => s.cur.opnd.cmdsize.isSome
  | .msgid => s.cur.opnd.msgid.isSome
  | .access => s.cur.opnd.access.isSome
  | .keyv => s.cur.opnd.keyv.isSome
  | .key => s.cur.opnd.key.isSome
  | .ftype => s.cur.opnd.ftype.isSome
  | .dst => s.cur.opnd.dst.isSome
  | .src => s.cur.opnd.src.isSome
  | .pin => s.cur.opnd.pin.isSome
  | .ibuf => s.cur.opnd.inputBytes.isSome
  | .ilen => s.cur.opnd.ilen.isSome
  | .cq => s.cur.opnd.cq.isSome
  | .registry => true
  | _ => false

/-- Whether an operation that names an element needs it: `KEY` only where `KEYV` is 1 and the level encrypts (R12, R109, R111),
every other element always. -/
def operandNeeded (s : State) (e : Element) : Prop :=
  e = .key → s.cur.opnd.keyv = some 1 ∧ (s.cur.opnd.access = some 1 ∨ s.cur.opnd.access = some 2)

/-- The host has written every operand element that the instruction's row names and needs (R161). -/
def operandsHeld (i : Instr) (s : State) : Prop :=
  ∀ e ∈ operandsOf i, operandNeeded s e → operandHeld s e = true

/-- Two states agree on an operand element as an operation sees it: on `IBUF`, in the bytes below `ILEN` (20_memory.md R36). -/
def sameOperand (s t : State) : Element → Prop
  | .accin => s.cur.opnd.accin = t.cur.opnd.accin
  | .cmdid => s.cur.opnd.cmdid = t.cur.opnd.cmdid
  | .cmdsize => s.cur.opnd.cmdsize = t.cur.opnd.cmdsize
  | .msgid => s.cur.opnd.msgid = t.cur.opnd.msgid
  | .access => s.cur.opnd.access = t.cur.opnd.access
  | .keyv => s.cur.opnd.keyv = t.cur.opnd.keyv
  | .key => s.cur.opnd.key = t.cur.opnd.key
  | .ftype => s.cur.opnd.ftype = t.cur.opnd.ftype
  | .dst => s.cur.opnd.dst = t.cur.opnd.dst
  | .src => s.cur.opnd.src = t.cur.opnd.src
  | .pin => s.cur.opnd.pin = t.cur.opnd.pin
  | .ibuf => s.cur.opnd.inputBytes = t.cur.opnd.inputBytes
  | .ilen => s.cur.opnd.ilen = t.cur.opnd.ilen
  | .cq => s.cur.opnd.cq = t.cur.opnd.cq
  | .registry => s.registry = t.registry
  | _ => True

/-- `Steps s t`: the block gets from `s` to `t` in some number of steps. -/
inductive Steps : State → State → Prop where
  | refl (s : State) : Steps s s
  | head {s t u : State} : step s = .next t → Steps t u → Steps s u

/-- The invariant of one engine: what R13, R14, R15, R16 and R31 say of its elements between operations. -/
structure Engine.Inv (caps : Capacities) (e : Engine) : Prop where
  /-- `IBUF` is in canonical form. -/
  ibuf_wf : e.opnd.ibuf.wf = true
  /-- No byte at or beyond `BUF_MAX` (R30). -/
  ibuf_cap : ∀ c ∈ e.opnd.ibuf.cells, belowCap caps.bufMax c.1 = true
  /-- `ILEN <= BUF_MAX` (R15). -/
  ilen_cap : ∀ n, e.opnd.ilen = some n → withinCap caps.bufMax n = true
  /-- At most `CQ_MAX` entries (R16). -/
  cq_cap : ∀ l, e.opnd.cq = some l → withinCap caps.cqMax l.length = true
  /-- `OBUF` holds exactly the bytes below `OLEN`, and none where `OLEN` holds no value (R15, U15). -/
  obuf_olen : (e.res.olen = none ∧ e.res.obuf = Memory.empty) ∨
    (∃ o : Bytes, e.res.olen = some o.length ∧ e.res.obuf = Memory.ofBytes o)
  /-- `OLEN <= BUF_MAX` (R15). -/
  olen_cap : ∀ n, e.res.olen = some n → withinCap caps.bufMax n = true
  /-- At most `RQ_MAX` entries (R16). -/
  rq_cap : ∀ l, e.res.rq = some l → withinCap caps.rqMax l.length = true
  /-- `HSIZE` is never 0 when valid (R13). -/
  hsize_ne : e.res.hsize ≠ some 0
  /-- `FOUND` is always 1 when valid (R13). -/
  found_one : e.res.found ≠ some 0
  /-- After an error no result element holds a value (R14(c)). -/
  error_invalid : e.status ≠ .ok → e.res = Results.invalid

/-- The invariant of a block: of every engine, and of the shared registry (R11, R98): it is empty until it is built, and in
canonical form. -/
structure State.Inv (s : State) : Prop where
  engines : ∀ e ∈ s.engines, e.Inv s.caps
  reg_build : s.phase = .build → s.reg = []
  reg_wf : regRisesFrom 0 s.reg = true

end Sys2Proof.Machine
end

