-- ==== Sys2Proof/Laws/State.lean ====
section
/-! SUPPORT. One lemma per field per update of State that the operations make, true by rfl. -/

namespace Sys2Proof.Machine

open Sys2Proof

@[simp] theorem raise_res (k : ErrorKind) (s : State) : (s.raise k).cur.res = Results.invalid := rfl
@[simp] theorem raise_status (k : ErrorKind) (s : State) : (s.raise k).cur.status = .error k := rfl
@[simp] theorem raise_opnd (k : ErrorKind) (s : State) : (s.raise k).cur.opnd = s.cur.opnd := rfl
@[simp] theorem raise_phase (k : ErrorKind) (s : State) : (s.raise k).phase = s.phase := rfl
@[simp] theorem raise_reg (k : ErrorKind) (s : State) : (s.raise k).reg = s.reg := rfl
@[simp] theorem raise_registry (k : ErrorKind) (s : State) : (s.raise k).registry = s.registry := rfl
@[simp] theorem raise_pre (k : ErrorKind) (s : State) : (s.raise k).pre = s.pre := rfl
@[simp] theorem raise_post (k : ErrorKind) (s : State) : (s.raise k).post = s.post := rfl
@[simp] theorem raise_caps (k : ErrorKind) (s : State) : (s.raise k).caps = s.caps := rfl
@[simp] theorem raise_pending (k : ErrorKind) (s : State) : (s.raise k).pending = s.pending := rfl

@[simp] theorem complete_res (r : Results) (s : State) : (s.complete r).cur.res = r := rfl
@[simp] theorem complete_status (r : Results) (s : State) : (s.complete r).cur.status = .ok := rfl
@[simp] theorem complete_opnd (r : Results) (s : State) : (s.complete r).cur.opnd = s.cur.opnd := rfl
@[simp] theorem complete_phase (r : Results) (s : State) : (s.complete r).phase = s.phase := rfl
@[simp] theorem complete_reg (r : Results) (s : State) : (s.complete r).reg = s.reg := rfl
@[simp] theorem complete_registry (r : Results) (s : State) : (s.complete r).registry = s.registry := rfl
@[simp] theorem complete_pre (r : Results) (s : State) : (s.complete r).pre = s.pre := rfl
@[simp] theorem complete_post (r : Results) (s : State) : (s.complete r).post = s.post := rfl
@[simp] theorem complete_caps (r : Results) (s : State) : (s.complete r).caps = s.caps := rfl
@[simp] theorem complete_pending (r : Results) (s : State) : (s.complete r).pending = s.pending := rfl

@[simp] theorem hostReset_phase (s : State) : (hostReset s).phase = .build := rfl
@[simp] theorem hostReset_reg (s : State) : (hostReset s).reg = [] := rfl
@[simp] theorem hostReset_registry (s : State) : (hostReset s).registry = s.registry := rfl
@[simp] theorem hostReset_cur (s : State) : (hostReset s).cur = Engine.reset := rfl
@[simp] theorem hostReset_caps (s : State) : (hostReset s).caps = s.caps := rfl
@[simp] theorem hostReset_pending (s : State) : (hostReset s).pending = s.pending := rfl

@[simp] theorem ofOutput_obuf (o : Bytes) : (Results.ofOutput o).obuf = Memory.ofBytes o := rfl
@[simp] theorem ofOutput_olen (o : Bytes) : (Results.ofOutput o).olen = some o.length := rfl
@[simp] theorem ofOutput_rq (o : Bytes) : (Results.ofOutput o).rq = none := rfl
@[simp] theorem ofOutput_hsize (o : Bytes) : (Results.ofOutput o).hsize = none := rfl
@[simp] theorem ofOutput_found (o : Bytes) : (Results.ofOutput o).found = none := rfl

@[simp] theorem invalid_obuf : Results.invalid.obuf = Memory.empty := rfl
@[simp] theorem invalid_olen : Results.invalid.olen = none := rfl
@[simp] theorem invalid_rq : Results.invalid.rq = none := rfl
@[simp] theorem invalid_hsize : Results.invalid.hsize = none := rfl
@[simp] theorem invalid_found : Results.invalid.found = none := rfl

end Sys2Proof.Machine
end

