-- ==== Sys2Proof/Laws/Ops.lean ====
section
/-! SUPPORT. What the shared operations can do, said once: buffers, the registry, reading operands, the end of an operation. -/

namespace Sys2Proof.Machine

open Sys2Proof

/-! ## Buffers -/

theorem cellsRead_write_same (l : List Host.Cell) (i : Nat) (b : Byte) :
    cellsRead (cellsWrite l i b) i = some b := by
  induction l with
  | nil => simp [cellsWrite, cellsRead]
  | cons c rest ih =>
    obtain ⟨a, v⟩ := c
    simp only [cellsWrite]
    split
    · simp [cellsRead]
    · split
      · simp [cellsRead]
      · next h => simp [cellsRead, Ne.symm h, ih]

theorem cellsRead_write_ne (l : List Host.Cell) {i j : Nat} (b : Byte) (h : j ≠ i) :
    cellsRead (cellsWrite l i b) j = cellsRead l j := by
  induction l with
  | nil => simp [cellsWrite, cellsRead, h.symm]
  | cons c rest ih =>
    obtain ⟨a, v⟩ := c
    simp only [cellsWrite]
    split
    · simp [cellsRead, h.symm]
    · split
      · next h2 => subst h2; simp [cellsRead, h.symm]
      · simp only [cellsRead, ih]

/-- A read after a write to the same index gives the byte written. -/
@[simp] theorem read_write_same (m : Memory) (i : Nat) (b : Byte) : (m.write i b).read i = some b :=
  cellsRead_write_same m.cells i b

/-- A write leaves every other index alone. -/
theorem read_write_ne (m : Memory) {i j : Nat} (b : Byte) (h : j ≠ i) : (m.write i b).read j = m.read j :=
  cellsRead_write_ne m.cells b h

theorem cellsWrite_rise (l : List Host.Cell) (i : Nat) (b : Byte) :
    ∀ lo, lo ≤ i → cellsRiseFrom lo l = true → cellsRiseFrom lo (cellsWrite l i b) = true := by
  induction l with
  | nil => intro lo h _; simp [cellsWrite, cellsRiseFrom, h]
  | cons c rest ih =>
    obtain ⟨a, v⟩ := c
    intro lo h hr
    simp only [cellsRiseFrom, Bool.and_eq_true, decide_eq_true_eq] at hr
    simp only [cellsWrite]
    split
    · simp only [cellsRiseFrom, Bool.and_eq_true, decide_eq_true_eq]; exact ⟨h, by omega, hr.2⟩
    · split
      · next h2 => subst h2; simp [cellsRiseFrom, h, hr.2]
      · simp only [cellsRiseFrom, Bool.and_eq_true, decide_eq_true_eq]
        exact ⟨hr.1, ih (a + 1) (by omega) hr.2⟩

/-- A write keeps the canonical form. -/
theorem write_wf {m : Memory} (h : m.wf = true) (i : Nat) (b : Byte) : (m.write i b).wf = true :=
  cellsWrite_rise m.cells i b 0 (Nat.zero_le _) h

/-- Writing a sequence keeps the canonical form. -/
theorem writeSeq_wf (s : Bytes) : ∀ {m : Memory} (_ : m.wf = true) (i : Nat), (m.writeSeq i s).wf = true := by
  induction s with
  | nil => intro m h i; exact h
  | cons b rest ih => intro m h i; exact ih (write_wf h i b) (i + 1)

theorem write16_wf {m : Memory} (h : m.wf = true) (i : Nat) (v : Half) : (m.write16 i v).wf = true :=
  write_wf (write_wf h i _) _ _

theorem emit_wf {m : Memory} (h : m.wf = true) (n : Nat) (b : Byte) : (m.emit n b).1.wf = true := write_wf h n b

theorem cellsOf_rise (s : Bytes) : ∀ i, cellsRiseFrom i (cellsOf i s) = true := by
  induction s with
  | nil => intro i; rfl
  | cons b rest ih => intro i; simp [cellsOf, cellsRiseFrom, ih]

/-- A buffer made from a sequence is in canonical form. -/
@[simp] theorem ofBytes_wf (s : Bytes) : (Memory.ofBytes s).wf = true := cellsOf_rise s 0

@[simp] theorem empty_wf : Memory.empty.wf = true := rfl

@[simp] theorem empty_read (i : Nat) : Memory.empty.read i = none := rfl

@[simp] theorem ofBytes_nil : Memory.ofBytes [] = Memory.empty := rfl

theorem cellsRead_cellsOf (s : Bytes) : ∀ i j, i ≤ j → cellsRead (cellsOf i s) j = s[j - i]? := by
  induction s with
  | nil => intro i j _; simp [cellsOf, cellsRead]
  | cons b rest ih =>
    intro i j h
    by_cases h1 : i = j
    · subst h1; simp [cellsOf, cellsRead]
    · have h2 : j - i = (j - (i + 1)) + 1 := by omega
      rw [h2, List.getElem?_cons_succ, ← ih (i + 1) j (by omega)]
      simp [cellsOf, cellsRead, h1]

/-- What a buffer made from a sequence reads as: the sequence's bytes, and no value beyond. -/
theorem ofBytes_read (s : Bytes) (i : Nat) : (Memory.ofBytes s).read i = s[i]? := by
  have h := cellsRead_cellsOf s 0 i (Nat.zero_le _)
  simpa [Memory.read, Memory.ofBytes] using h

/-- A sequence is read back where each of its bytes is. -/
theorem readSeq_of_read (m : Memory) (s : Bytes) :
    ∀ i, (∀ j, j < s.length → m.read (i + j) = s[j]?) → m.readSeq i s.length = some s := by
  induction s with
  | nil => intro i _; rfl
  | cons b rest ih =>
    intro i h
    have h0 : m.read i = some b := by simpa using h 0 (by simp)
    have h1 : m.readSeq (i + 1) rest.length = some rest := by
      refine ih (i + 1) fun j hj => ?_
      have := h (j + 1) (by simp; omega)
      simpa [Nat.add_assoc, Nat.add_comm 1 j] using this
    simp [Memory.readSeq, h0, h1]

/-- The whole content of a buffer made from a sequence. -/
@[simp] theorem readSeq_ofBytes (s : Bytes) : (Memory.ofBytes s).readSeq 0 s.length = some s :=
  readSeq_of_read _ s 0 fun j _ => by simpa using ofBytes_read s j

theorem writeSeq_read_lt (s : Bytes) : ∀ (m : Memory) (i j : Nat), j < i → (m.writeSeq i s).read j = m.read j := by
  induction s with
  | nil => intro m i j _; rfl
  | cons b rest ih =>
    intro m i j h
    simp only [Memory.writeSeq]
    rw [ih _ _ _ (by omega), read_write_ne _ _ (by omega)]

theorem writeSeq_read (s : Bytes) : ∀ (m : Memory) (i j : Nat), j < s.length → (m.writeSeq i s).read (i + j) = s[j]? := by
  induction s with
  | nil => intro m i j h; simp at h
  | cons b rest ih =>
    intro m i j h
    simp only [Memory.writeSeq]
    cases j with
    | zero => simp [writeSeq_read_lt]
    | succ j =>
      have := ih (m.write i b) (i + 1) j (by simpa using h)
      simpa [Nat.add_assoc, Nat.add_comm 1 j] using this

/-- Writing a sequence leaves every index outside it alone. -/
theorem writeSeq_read_out (s : Bytes) :
    ∀ (m : Memory) (i j : Nat), (j < i ∨ i + s.length ≤ j) → (m.writeSeq i s).read j = m.read j := by
  induction s with
  | nil => intro m i j _; rfl
  | cons b rest ih =>
    intro m i j h
    simp only [List.length_cons] at h
    simp only [Memory.writeSeq]
    rw [ih _ _ _ (by omega), read_write_ne _ _ (by omega)]

/-- What was written as a sequence is read back. -/
@[simp] theorem readSeq_writeSeq (m : Memory) (s : Bytes) : (m.writeSeq 0 s).readSeq 0 s.length = some s :=
  readSeq_of_read _ s 0 fun j hj => by simpa using writeSeq_read s m 0 j hj

theorem readSeq_length {m : Memory} : ∀ {n i : Nat} {s : Bytes}, m.readSeq i n = some s → s.length = n := by
  intro n
  induction n with
  | zero => intro i s h; simp only [Memory.readSeq, Option.some.injEq] at h; subst h; rfl
  | succ n ih =>
    intro i s h
    simp only [Memory.readSeq] at h
    split at h
    · next b rest _ h2 => cases h; simpa using ih h2
    · cases h

/-- The input of an operation is as long as `ILEN` says. -/
theorem inputBytes_ilen {o : Operands} {b : Bytes} (h : o.inputBytes = some b) : o.ilen = some b.length := by
  unfold Operands.inputBytes at h
  split at h
  · next n hn => rw [hn, readSeq_length h]
  · cases h

/-! ## Reading operands -/

@[simp] theorem readElement_some {α : Type} (e : Element) (v : α) : readElement e (some v) = .ok v := rfl
@[simp] theorem readElement_none {α : Type} (e : Element) : readElement e (none : Option α) = .error (.noValue e) := rfl

theorem readElement_cases {α : Type} (e : Element) (o : Option α) :
    (∃ v, o = some v ∧ readElement e o = .ok v) ∨ (o = none ∧ readElement e o = .error (.noValue e)) := by
  cases o <;> simp

/-- Reading the input gives the bytes where they hold a value. -/
theorem readInput_some {o : Operands} {b : Bytes} (h : o.inputBytes = some b) : o.readInput = .ok b := by
  unfold Operands.inputBytes at h
  unfold Operands.readInput
  split at h
  · next n hn => simp [h]
  · cases h

theorem readInput_ok {o : Operands} {b : Bytes} (h : o.readInput = .ok b) : o.inputBytes = some b := by
  unfold Operands.readInput at h
  unfold Operands.inputBytes
  split at h
  · next n hn =>
    rcases readElement_cases Element.ibuf (o.ibuf.readSeq 0 n) with ⟨v, h1, h2⟩ | ⟨_, h2⟩
    · rw [h2] at h; cases h; simp [h1]
    · rw [h2] at h; cases h
  · cases h

@[simp] theorem ok_bind {α β : Type} (a : α) (f : α → Except Stop β) : (Except.ok a >>= f) = f a := rfl
@[simp] theorem error_bind {α β : Type} (e : Stop) (f : α → Except Stop β) :
    ((Except.error e : Except Stop α) >>= f) = .error e := rfl
@[simp] theorem pure_eq_ok {α : Type} (a : α) : (pure a : Except Stop α) = .ok a := rfl

/-- How a sequence of two parts of an operation ends well. -/
theorem bind_eq_ok {α β : Type} {x : Except Stop α} {f : α → Except Stop β} {b : β} :
    (x >>= f) = .ok b ↔ ∃ a, x = .ok a ∧ f a = .ok b := by
  cases x <;> simp

/-- How a sequence of two parts of an operation stops: in the first part, or in the second. -/
theorem bind_eq_error {α β : Type} {x : Except Stop α} {f : α → Except Stop β} {e : Stop} :
    (x >>= f) = .error e ↔ x = .error e ∨ ∃ a, x = .ok a ∧ f a = .error e := by
  cases x <;> simp

/-- The only way a read of an element stops. -/
theorem readElement_eq_error {α : Type} {e : Element} {o : Option α} {st : Stop} :
    readElement e o = .error st ↔ o = none ∧ st = .noValue e := by
  cases o <;> simp [eq_comm]

theorem readElement_eq_ok {α : Type} {e : Element} {o : Option α} {v : α} : readElement e o = .ok v ↔ o = some v := by
  cases o <;> simp

/-- The only ways reading the input stops: `ILEN` holds no value, or a byte below it does not. -/
theorem readInput_eq_error {o : Operands} {st : Stop} (h : o.readInput = .error st) :
    (o.ilen = none ∧ st = .noValue .ilen) ∨ (o.ilen ≠ none ∧ o.inputBytes = none ∧ st = .noValue .ibuf) := by
  unfold Operands.readInput at h
  unfold Operands.inputBytes
  cases hn : o.ilen with
  | none => left; rw [hn] at h; simpa [eq_comm] using h
  | some n => right; rw [hn] at h; obtain ⟨h1, h2⟩ := readElement_eq_error.1 h; exact ⟨by simp, h1, h2⟩

@[simp] theorem orRaise_ok {α : Type} (a : α) : orRaise (.ok a : Except ErrorKind α) = .ok a := rfl
@[simp] theorem orRaise_error {α : Type} (k : ErrorKind) :
    orRaise (.error k : Except ErrorKind α) = .error (.raise k) := rfl

/-! ## The end of an operation -/

@[simp] theorem finish_ok (s : State) (r : Results) : s.finish (.ok r) = .next (s.complete r) := rfl
@[simp] theorem finish_raise (s : State) (k : ErrorKind) : s.finish (.error (.raise k)) = .next (s.raise k) := rfl
@[simp] theorem finish_noValue (s : State) (e : Element) : s.finish (.error (.noValue e)) = .fault (.noValue e) := rfl

/-- Everything the end of an operation can be when it answers a next state. -/
theorem finish_next {s t : State} {r : Except Stop Results} (h : s.finish r = .next t) :
    (∃ res, r = .ok res ∧ t = s.complete res) ∨ (∃ k, r = .error (.raise k) ∧ t = s.raise k) := by
  match r, h with
  | .ok res, h => left; exact ⟨res, rfl, by simpa using h.symm⟩
  | .error (.raise k), h => right; exact ⟨k, rfl, by simpa using h.symm⟩
  | .error (.noValue e), h => cases h

/-! ## The registry -/

theorem regLookup_insert (e : RegEntry) (l : List RegEntry) (id : Half) (h : regHas l e.id = false) :
    regLookup (regInsert e l) id = if e.id = id then some e.codec else regLookup l id := by
  induction l with
  | nil => rfl
  | cons f rest ih =>
    simp only [regHas, Bool.or_eq_false_iff, decide_eq_false_iff_not] at h
    simp only [regInsert]
    split
    · rfl
    · simp only [regLookup, ih h.2]
      by_cases h1 : f.id = id
      · have : e.id ≠ id := fun h2 => h.1 (h1.trans h2.symm)
        simp [h1, this]
      · simp [h1]

theorem regHas_insert (e : RegEntry) (l : List RegEntry) (id : Half) :
    regHas (regInsert e l) id = (decide (e.id = id) || regHas l id) := by
  induction l with
  | nil => rfl
  | cons f rest ih =>
    simp only [regInsert]
    split
    · rfl
    · simp only [regHas, ih]
      cases decide (e.id = id) <;> cases decide (f.id = id) <;> simp

theorem regHas_ofList (l : List RegEntry) (id : Half) : regHas (regOfList l) id = regHas l id := by
  induction l with
  | nil => rfl
  | cons e rest ih => simp [regOfList, regHas_insert, regHas, ih]

/-- Looking up in the built map is looking up in the list it was built from. -/
theorem regLookup_ofList (l : List RegEntry) (id : Half) (h : hasDuplicateId l = false) :
    regLookup (regOfList l) id = regLookup l id := by
  induction l with
  | nil => rfl
  | cons e rest ih =>
    simp only [hasDuplicateId, Bool.or_eq_false_iff] at h
    simp only [regOfList, regLookup]
    rw [regLookup_insert _ _ _ (by rw [regHas_ofList]; exact h.1), ih h.2]

theorem regRises_insert (e : RegEntry) (l : List RegEntry) :
    ∀ lo, lo ≤ e.id.toNat → regHas l e.id = false → regRisesFrom lo l = true →
      regRisesFrom lo (regInsert e l) = true := by
  induction l with
  | nil => intro lo h _ _; simp [regInsert, regRisesFrom, h]
  | cons f rest ih =>
    intro lo h hd hr
    simp only [regHas, Bool.or_eq_false_iff, decide_eq_false_iff_not] at hd
    simp only [regRisesFrom, Bool.and_eq_true, decide_eq_true_eq] at hr
    have hne : f.id.toNat ≠ e.id.toNat := fun h2 => hd.1 (BitVec.eq_of_toNat_eq h2)
    simp only [regInsert]
    split
    · simp only [regRisesFrom, Bool.and_eq_true, decide_eq_true_eq]; exact ⟨h, by omega, hr.2⟩
    · simp only [regRisesFrom, Bool.and_eq_true, decide_eq_true_eq]
      exact ⟨hr.1, ih _ (by omega) hd.2 hr.2⟩

/-- The built map is in canonical form. -/
theorem regRises_ofList (l : List RegEntry) (h : hasDuplicateId l = false) : regRisesFrom 0 (regOfList l) = true := by
  induction l with
  | nil => rfl
  | cons e rest ih =>
    simp only [hasDuplicateId, Bool.or_eq_false_iff] at h
    exact regRises_insert e _ 0 (Nat.zero_le _) (by rw [regHas_ofList]; exact h.1) (ih h.2)

end Sys2Proof.Machine
end

