-- ==== Sys2Proof/Laws/Exec.lean ====
section
/-! SUPPORT. Everything an instruction can do, said once: all but two are the end of an operation, and what the two do. -/

namespace Sys2Proof.Machine

open Sys2Proof

/-- Every instruction but `REG_BUILD` and the access code changes nothing but results and `STATUS`. -/
theorem exec_finish (i : Instr) (s : State) (h1 : i ≠ .regBuild) (h2 : encodeSpace i ≠ .access) :
    ∃ r, exec i s = s.finish r := by
  cases i with
  | regBuild => exact absurd rfl h1
  | accessCode a => exact absurd rfl h2
  | reservedOp00 => exact ⟨.error (.raise .illegalOperation), rfl⟩
  | reservedOp13 => exact ⟨.error (.raise .illegalOperation), rfl⟩
  | reservedOp14to17 low => exact ⟨.error (.raise .illegalOperation), rfl⟩
  | reservedOp18to1F low => exact ⟨.error (.raise .illegalOperation), rfl⟩
  | hdrShort top size => exact ⟨headerResults (encodeBytes (.hdrShort top size)), rfl⟩
  | hdrMedium id size => exact ⟨headerResults (encodeBytes (.hdrMedium id size)), rfl⟩
  | hdrExtended h size => exact ⟨headerResults (encodeBytes (.hdrExtended h size)), rfl⟩
  | escFlag => exact ⟨unescapeResults (encodeBytes .escFlag), rfl⟩
  | escEsc => exact ⟨unescapeResults (encodeBytes .escEsc), rfl⟩
  | escFlowA => exact ⟨unescapeResults (encodeBytes .escFlowA), rfl⟩
  | escFlowB => exact ⟨unescapeResults (encodeBytes .escFlowB), rfl⟩
  | escAny f => exact ⟨unescapeResults (encodeBytes (.escAny f)), rfl⟩
  | literal b => exact ⟨unescapeResults (encodeBytes (.literal b)), rfl⟩
  | flag => exact ⟨frameDecResults (encodeBytes .flag), rfl⟩
  | frame ty d c msg crc => exact ⟨frameDecResults (encodeBytes (.frame ty d c msg crc)), rfl⟩
  | statusCode c =>
    cases c with
    | ok => exact ⟨.ok Results.invalid, rfl⟩
    | error k => exact ⟨.error (.raise k), rfl⟩
  | _ => exact ⟨_, rfl⟩

/-- The three ways `REG_BUILD` answers a next state. -/
theorem regBuild_next {s t : State} (h : exec .regBuild s = .next t) :
    (s.phase = .run ∧ t = s.raise .illegalOperation) ∨
    (s.phase = .build ∧ hasDuplicateId s.registry = true ∧ t = s.raise .badOperand) ∨
    (s.phase = .build ∧ hasDuplicateId s.registry = false ∧
      t = State.complete Results.invalid { s with reg := regOfList s.registry, phase := .run }) := by
  simp only [exec, execRegBuild] at h
  split at h
  · next hp => left; exact ⟨hp, by simpa using h.symm⟩
  · next hp =>
    split at h
    · next hd => right; left; exact ⟨hp, hd, by simpa using h.symm⟩
    · next hd => right; right; exact ⟨hp, by simpa using hd, by simpa using h.symm⟩

/-- What an instruction that answers a next state leaves alone. -/
theorem exec_keeps {i : Instr} {s t : State} (h : exec i s = .next t) :
    t.registry = s.registry ∧ t.pre = s.pre ∧ t.post = s.post ∧ t.caps = s.caps ∧ t.pending = s.pending ∧
    t.cur.opnd.ibuf = s.cur.opnd.ibuf ∧ t.cur.opnd.ilen = s.cur.opnd.ilen ∧ t.cur.opnd.cq = s.cur.opnd.cq := by
  by_cases h2 : encodeSpace i = .access
  · cases i with
    | accessCode a => simp only [exec, execAccessCode] at h; cases h; simp
    | _ => cases h2
  · by_cases h1 : i = .regBuild
    · subst h1
      rcases regBuild_next h with ⟨_, rfl⟩ | ⟨_, _, rfl⟩ | ⟨_, _, rfl⟩ <;> simp
    · obtain ⟨r, hr⟩ := exec_finish i s h1 h2
      rw [hr] at h
      rcases finish_next h with ⟨res, _, rfl⟩ | ⟨k, _, rfl⟩ <;> simp

/-- The phase check of the registry-reading operations. -/
theorem requireRun_build {s : State} (h : s.phase = .build) : requireRun s = .error (.raise .illegalOperation) := by
  simp [requireRun, h]

theorem requireRun_run {s : State} (h : s.phase = .run) : requireRun s = .ok () := by
  simp [requireRun, h]

theorem requireAccess_run {s : State} {a : BitVec 2} (h : s.phase = .run) (ha : s.cur.opnd.access = some a) :
    requireAccess s = if a = 3 then .error (.raise .badOperand) else .ok a := by
  simp [requireAccess, requireRun_run h, Operands.readAccess, ha]

/-! ## The message packer -/

/-- The key test of `MSG_PACK`, where `KEYV` holds a value. -/
theorem requireKey_held {o : Operands} {kv : BitVec 1} (a : BitVec 2) (h : o.keyv = some kv) :
    requireKey o a = if requiresEncryption a = true ∧ kv = 0 then .error (.raise .badOperand) else .ok () := by
  simp [requireKey, Operands.readKeyv, h]

/-- `msg_unpack` in `RUN` at a level that exists, where `KEYV` holds a value. -/
theorem msgUnpack_run {p : LrcParams} {s : State} {a : BitVec 2} {kv : BitVec 1} (input : Except Stop Bytes)
    (h : s.phase = .run) (ha : s.cur.opnd.access = some a) (h3 : a ≠ 3) (hk : s.cur.opnd.keyv = some kv) :
    msgUnpack p s input = input >>= unpackMessage p s a kv := by
  simp only [msgUnpack, requireAccess_run h ha, if_neg h3, ok_bind, Operands.readKeyv, hk, readElement_some]

/-- What a message of at least two bytes unpacks to, by the region as it is checked. -/
theorem unpackMessage_parts (p : LrcParams) (s : State) (a : BitVec 2) (kv : BitVec 1) (mid chk : Byte) (region : Bytes) :
    unpackMessage p s a kv ([mid] ++ region ++ [chk]) = (do
      let plain ← decryptRegion s.cur.opnd a kv region
      if messageChecksum p mid plain ≠ chk then .error (.raise .checksumMismatch)
      else if withinCap s.caps.rqMax (unpackCommands s.reg plain).length then
        return { messageId := mid, accessLevel := a, commands := unpackCommands s.reg plain, checksum := chk }
      else .error (.raise .capacityExceeded)) := by
  cases region with
  | nil => rfl
  | cons x r =>
    have e1 : (x :: (r ++ [chk])).dropLast = x :: r := by rw [← List.cons_append, List.dropLast_concat]
    have e2 : (x :: (r ++ [chk])).getLastD 0 = chk := by
      rw [← List.cons_append, List.getLastD_eq_getLast?, List.getLast?_concat]; rfl
    show unpackMessage p s a kv (mid :: x :: (r ++ [chk])) = _
    simp only [unpackMessage, e1, e2]

/-- The region as it is checked, where it is not decrypted. -/
theorem decryptRegion_plain {o : Operands} {a : BitVec 2} {kv : BitVec 1} (region : Bytes) (h : a = 0 ∨ kv = 0) :
    decryptRegion o a kv region = .ok region := by
  rcases h with rfl | rfl <;> simp [decryptRegion, requiresEncryption]

end Sys2Proof.Machine
end

