-- ==== Sys2Proof/Laws/Wire.lean ====
section
/-! SUPPORT. The equations of the wire-format functions, by the shape of their input. -/

namespace Sys2Proof.Machine

open Sys2Proof

@[simp] theorem hdrDec_nil : hdrDec [] = .error .emptyBuffer := rfl

theorem hdrDec_short {b0 : Byte} (rest : Bytes) (h : b0 &&& 0xE0 ≠ 0) :
    hdrDec (b0 :: rest) =
      .ok { headerSize := 1, commandId := zext16 (b0 &&& 0xE0), commandSize := b0 &&& 0x1F } := by
  simp only [hdrDec]; rw [if_pos h]

@[simp] theorem hdrDec_extended (rest : Bytes) : hdrDec (0x1F#8 :: rest) = hdrDecExtended rest := by
  simp [hdrDec]

theorem hdrDec_medium {b0 : Byte} (rest : Bytes) (h : b0 &&& 0xE0 = 0) (h1 : b0 ≠ 0x1F) :
    hdrDec (b0 :: rest) = hdrDecMedium b0 rest := by
  simp only [hdrDec]; rw [if_neg (not_not.mpr h), if_neg h1]

/-- Everything the header decoder can answer: `EmptyBuffer` on no byte, `BufferTooShort`, or a header whose size is 1, 2 or 3
and at most the length of the input. -/
theorem hdrDec_cases (s : Bytes) :
    (s = [] ∧ hdrDec s = .error .emptyBuffer) ∨
    (s ≠ [] ∧ hdrDec s = .error .bufferTooShort) ∨
    (∃ h, hdrDec s = .ok h ∧ (h.headerSize = 1 ∨ h.headerSize = 2 ∨ h.headerSize = 3) ∧ h.headerSize ≤ s.length) := by
  cases s with
  | nil => left; exact ⟨rfl, rfl⟩
  | cons b0 rest =>
    right
    by_cases h : b0 &&& 0xE0 = 0
    · by_cases h1 : b0 = 0x1F
      · subst h1
        match rest with
        | [] => left; simp [hdrDecExtended]
        | [x] => left; simp [hdrDecExtended]
        | x :: y :: r => right; simp [hdrDecExtended]
      · rw [hdrDec_medium rest h h1]
        match rest with
        | [] => left; simp [hdrDecMedium]
        | x :: r => right; simp [hdrDecMedium]
    · right; rw [hdrDec_short rest h]; simp

/-- A command header is 1, 2 or 3 bytes. -/
theorem hdrEnc_length {id : Half} {size : Byte} {w : Bytes} (h : hdrEnc id size = .ok w) :
    1 ≤ w.length ∧ w.length ≤ 3 := by
  simp only [hdrEnc] at h
  split at h
  · split at h
    · cases h; simp
    · cases h
  · split at h
    · cases h; simp
    · split at h
      · cases h; simp
      · cases h

theorem hdrEnc_error {id : Half} {size : Byte} {k : ErrorKind} (h : hdrEnc id size = .error k) : k = .invalidCommand := by
  simp only [hdrEnc] at h
  split at h
  · split at h
    · cases h
    · cases h; rfl
  · split at h
    · cases h
    · split at h
      · cases h
      · cases h; rfl

/-- The unescape machine fails only with `TruncatedFrame`, and its output is never longer than its input. -/
theorem unescapeFrom_cases (s : Bytes) : ∀ e : Bool,
    unescapeFrom e s = .error .truncatedFrame ∨ ∃ o, unescapeFrom e s = .ok o ∧ o.length ≤ s.length := by
  induction s with
  | nil => intro e; cases e <;> simp [unescapeFrom]
  | cons b rest ih =>
    intro e
    cases e with
    | true =>
      rcases ih false with h | ⟨o, h, hl⟩
      · left; simp [unescapeFrom, h]
      · right; exact ⟨(b ^^^ Config.escXor) :: o, by simp [unescapeFrom, h], by simpa using hl⟩
    | false =>
      by_cases hb : b = Config.esc
      · rcases ih true with h | ⟨o, h, hl⟩
        · left; simp [unescapeFrom, hb, h]
        · right; exact ⟨o, by simp [unescapeFrom, hb, h], by simp; omega⟩
      · rcases ih false with h | ⟨o, h, hl⟩
        · left; simp [unescapeFrom, hb, h]
        · right; exact ⟨b :: o, by simp [unescapeFrom, hb, h], by simpa using hl⟩

theorem unescape_cases (s : Bytes) :
    unescape s = .error .truncatedFrame ∨ ∃ o, unescape s = .ok o ∧ o.length ≤ s.length :=
  unescapeFrom_cases s false

/-- `stripFlags` removes one delimiter at each end, or there are none to remove. -/
theorem stripFlags_some {w inner : Bytes} : stripFlags w = some inner ↔ w = Config.flag :: (inner ++ [Config.flag]) := by
  constructor
  · intro h
    simp only [stripFlags] at h
    split at h
    · cases h
    · next hc =>
      simp only [not_or, not_lt, ne_eq, not_not] at hc
      obtain ⟨h1, h2, h3⟩ := hc
      cases w with
      | nil => simp at h1
      | cons a r =>
        simp only [List.head?_cons, Option.some.injEq] at h2
        subst h2
        have hr : r ≠ [] := by rintro rfl; simp at h1
        rw [List.getLast?_cons_of_ne_nil hr] at h3
        simp only [List.tail_cons, Option.some.injEq] at h
        have h4 := List.dropLast_append_getLast? _ h3
        rw [h] at h4
        rw [h4]
  · rintro rfl
    simp [stripFlags, List.getLast?_cons]

end Sys2Proof.Machine
end

