-- ==== Sys2Proof/Certificates/Slice0/Obligations.lean ====
section
/-! DEFINITION. The statements for the provers. Each docstring names the rule of spec/ it formalises. -/

open Sys2Proof Sys2Proof.Machine

/-! ## Checksums (spec/40_checksum.md) -/

/-- R72: `crc_step` is XOR of the zero-extended byte and then eight times the conditional shift; it equals the table-driven
form with `T[i] = crc_step(0, i)`; and it has the six values R72 gives. -/
def Obligations.CrcStepIsEightShiftsAndTableForm : Prop :=
  (∀ (acc : Half) (b : Byte),
    crcStep Config.crc acc b =
      (fun a : Half => if a.getLsbD 0 = true then (a >>> 1) ^^^ 0x8408#16 else a >>> 1)^[8] (acc ^^^ b.setWidth 16)) ∧
  (∀ (acc : Half) (b : Byte),
    crcStep Config.crc acc b =
      (acc >>> 8) ^^^ crcStep Config.crc 0 ((acc ^^^ b.setWidth 16) &&& 0x00FF#16 |>.setWidth 8)) ∧
  crcStep Config.crc 0x0000 0x00 = 0x0000#16 ∧ crcStep Config.crc 0x0000 0x01 = 0x1189#16 ∧
  crcStep Config.crc 0x0000 0x80 = 0x8408#16 ∧ crcStep Config.crc 0x0000 0xFF = 0x0F78#16 ∧
  crcStep Config.crc 0xFFFF 0x00 = 0x0F87#16 ∧ crcStep Config.crc 0xFFFF 0xFF = 0x00FF#16

/-- R84: accumulating over a body and its check bytes gives `0xF0B8`, and the test against that constant accepts the same
frames as the comparison of the CRC field. -/
def Obligations.CrcResidueAcceptsTheSameFrames : Prop :=
  (∀ body : Bytes,
    let v := crcAcc Config.crc 0xFFFF body ^^^ 0xFFFF#16
    crcAcc Config.crc 0xFFFF (body ++ [loByte v, hiByte v]) = 0xF0B8#16) ∧
  (∀ (body : Bytes) (field : Half),
    computeFrameCrc Config.crc body = field ↔
      crcAcc Config.crc 0xFFFF (body ++ [hiByte field, loByte field]) = 0xF0B8#16)

/-- R81: both accumulations are incremental, for any parameters; hence `CRC16` of a concatenation equals `CRC16_FIN` after
two `CRC16_UPD`, and `LRC` of it equals the low byte of `ACCOUT` after two `LRC_UPD`. -/
def Obligations.ChecksumsAreIncremental : Prop :=
  (∀ (p : CrcParams) (a : Half) (s t : Bytes), crcAcc p a (s ++ t) = crcAcc p (crcAcc p a s) t) ∧
  (∀ (p : LrcParams) (a : Byte) (s t : Bytes), lrcAcc p a (s ++ t) = lrcAcc p (lrcAcc p a s) t) ∧
  (∀ (s1 s2 s3 s4 t1 t2 t3 t4 : State) (a b : Bytes),
    s1.cur.opnd.accin = some 0xFFFF → s1.cur.opnd.inputBytes = some a → exec .crc16Upd s1 = .next t1 →
    s2.cur.opnd.accin = t1.cur.res.accout → s2.cur.opnd.inputBytes = some b → exec .crc16Upd s2 = .next t2 →
    s3.cur.opnd.accin = t2.cur.res.accout → exec .crc16Fin s3 = .next t3 →
    s4.cur.opnd.inputBytes = some (a ++ b) → exec .crc16 s4 = .next t4 →
    t3.cur.res.crc = t4.cur.res.crc) ∧
  (∀ (s1 s2 s3 t1 t2 t3 : State) (a b : Bytes),
    s1.cur.opnd.accin = some 0x0055 → s1.cur.opnd.inputBytes = some a → exec .lrcUpd s1 = .next t1 →
    s2.cur.opnd.accin = t1.cur.res.accout → s2.cur.opnd.inputBytes = some b → exec .lrcUpd s2 = .next t2 →
    s3.cur.opnd.inputBytes = some (a ++ b) → exec .lrc s3 = .next t3 →
    t2.cur.res.accout.map loByte = t3.cur.res.lrc)

/-- R73 to R77: what the three CRC operations answer on every input. -/
def Obligations.CrcOperationsComplete : Prop :=
  decodeOp 0x03 = .crc16 ∧ decodeOp 0x04 = .crc16Upd ∧ decodeOp 0x05 = .crc16Fin ∧
  (∀ (s : State) (b : Bytes), s.cur.opnd.inputBytes = some b →
    let v := b.foldl (crcStep Config.crc) 0xFFFF#16 ^^^ 0xFFFF#16
    exec .crc16 s = .next (s.complete
      { Results.invalid with crc := some (((v.extractLsb' 0 8).setWidth 16 <<< 8) ||| (v.extractLsb' 8 8).setWidth 16) })) ∧
  (∀ (s : State) (a : Half) (b : Bytes), s.cur.opnd.accin = some a → s.cur.opnd.inputBytes = some b →
    exec .crc16Upd s = .next (s.complete
      { Results.invalid with accout := some (b.foldl (crcStep Config.crc) a) })) ∧
  (∀ (s : State) (a : Half), s.cur.opnd.accin = some a →
    let v := a ^^^ 0xFFFF#16
    exec .crc16Fin s = .next (s.complete
      { Results.invalid with crc := some (((v.extractLsb' 0 8).setWidth 16 <<< 8) ||| (v.extractLsb' 8 8).setWidth 16) }))

/-- R78 to R80 under the default triple of R78: what the two LRC operations answer on every input. -/
def Obligations.LrcOperationsComplete : Prop :=
  decodeOp 0x01 = .lrc ∧ decodeOp 0x02 = .lrcUpd ∧
  (∀ (s : State) (b : Bytes), s.cur.opnd.inputBytes = some b →
    exec .lrc s = .next (s.complete
      { Results.invalid with lrc := some (b.foldl (fun a c => a ^^^ c) 0x55#8) })) ∧
  (∀ (s : State) (a : Half) (b : Bytes), s.cur.opnd.accin = some a → s.cur.opnd.inputBytes = some b →
    exec .lrcUpd s = .next (s.complete
      { Results.invalid with accout := some ((b.foldl (fun x c => x ^^^ c) (a.extractLsb' 0 8)).setWidth 16) }))

/-! ## The header codec (spec/41_header.md) -/

/-- R86: what `HDR_DEC` answers on every input. -/
def Obligations.HdrDecOutcome : Prop :=
  decodeOp 0x06 = .hdrDec ∧
  (∀ (s : State) (b : Bytes), s.cur.opnd.inputBytes = some b →
    (b = [] → exec .hdrDec s = .next (s.raise .emptyBuffer)) ∧
    (∀ (b0 : Byte) (rest : Bytes), b = b0 :: rest →
      (b0 &&& 0xE0 ≠ 0 → exec .hdrDec s = .next (s.complete { Results.invalid with
        hsize := some 1, rcmdid := some ((b0 &&& 0xE0).setWidth 16), rcmdsize := some (b0 &&& 0x1F) })) ∧
      (b0 = 0x1F → rest.length < 2 → exec .hdrDec s = .next (s.raise .bufferTooShort)) ∧
      (∀ (h size : Byte) (r : Bytes), b0 = 0x1F → rest = h :: size :: r →
        exec .hdrDec s = .next (s.complete { Results.invalid with
          hsize := some 3, rcmdid := some ((h.setWidth 16 <<< 8) ||| 0x001F), rcmdsize := some size })) ∧
      (b0 &&& 0xE0 = 0 → b0 ≠ 0x1F → rest = [] → exec .hdrDec s = .next (s.raise .bufferTooShort)) ∧
      (∀ (size : Byte) (r : Bytes), b0 &&& 0xE0 = 0 → b0 ≠ 0x1F → rest = size :: r →
        exec .hdrDec s = .next (s.complete { Results.invalid with
          hsize := some 2, rcmdid := some (b0.setWidth 16), rcmdsize := some size }))))

/-- R88: what `HDR_ENC` answers for every id and size, where `BUF_MAX` leaves room for the one, two or three bytes of that
header; an id or size without a header raises whatever `BUF_MAX` is. -/
def Obligations.HdrEncOutcome : Prop :=
  decodeOp 0x07 = .hdrEnc ∧
  (∀ (s : State) (id : Half) (size : Byte),
    s.cur.opnd.cmdid = some id → s.cur.opnd.cmdsize = some size →
    let short := id ∈ [0x20#16, 0x40#16, 0x60#16, 0x80#16, 0xA0#16, 0xC0#16, 0xE0#16]
    (short → size.toNat ≤ 31 → withinCap s.caps.bufMax 1 = true →
      exec .hdrEnc s = .next (s.complete (Results.ofOutput [id.extractLsb' 0 8 ||| size]))) ∧
    (short → 31 < size.toNat → exec .hdrEnc s = .next (s.raise .invalidCommand)) ∧
    (id.extractLsb' 0 8 = 0x1F#8 → withinCap s.caps.bufMax 3 = true →
      exec .hdrEnc s = .next (s.complete (Results.ofOutput [0x1F, id.extractLsb' 8 8, size]))) ∧
    (id.toNat ≤ 0x1E → withinCap s.caps.bufMax 2 = true →
      exec .hdrEnc s = .next (s.complete (Results.ofOutput [id.extractLsb' 0 8, size]))) ∧
    (¬ short → id.extractLsb' 0 8 ≠ 0x1F#8 → 0x1E < id.toNat → exec .hdrEnc s = .next (s.raise .invalidCommand)))

/-- R89 (a) and (b): encoding then decoding, whatever follows the header, and decoding then encoding. -/
def Obligations.HeaderRoundTripsBothWays : Prop :=
  (∀ (id : Half) (size : Byte) (w t : Bytes), hdrEnc id size = .ok w →
    hdrDec (w ++ t) = .ok { headerSize := w.length, commandId := id, commandSize := size }) ∧
  (∀ (s : Bytes) (h : Header), hdrDec s = .ok h → hdrEnc h.commandId h.commandSize = .ok (s.take h.headerSize))

/-! ## The registry and the dispatcher (spec/42_registry.md) -/

/-- R98: what `REG_BUILD` answers in each phase and for each list, the empty one too, that a lookup afterwards finds exactly
the entries of the list, and that nothing else of the block changes. -/
def Obligations.RegBuildOutcome : Prop :=
  decodeOp 0x08 = .regBuild ∧
  (∀ s : State, s.phase = .run → exec .regBuild s = .next (s.raise .illegalOperation)) ∧
  (∀ s : State, s.phase = .build → ¬ (s.registry.map RegEntry.id).Nodup →
    exec .regBuild s = .next (s.raise .badOperand)) ∧
  (∀ s : State, s.phase = .build → (s.registry.map RegEntry.id).Nodup →
    ∃ t, exec .regBuild s = .next t ∧ t.phase = .run ∧ t.cur.status = .ok ∧ t.cur.res = Results.invalid ∧
      (∀ (id : Half) (c : CodecRef), regLookup t.reg id = some c ↔ RegEntry.mk id c ∈ s.registry) ∧
      t.cur.opnd = s.cur.opnd ∧ t.registry = s.registry ∧ t.pre = s.pre ∧ t.post = s.post ∧ t.caps = s.caps ∧
      t.pending = s.pending)

/-- R97: what `RESOLVE` answers once the registry is built. -/
def Obligations.ResolveOutcome : Prop :=
  decodeOp 0x09 = .resolve ∧
  (∀ s : State, s.phase = .build → exec .resolve s = .next (s.raise .illegalOperation)) ∧
  (∀ (s : State) (id : Half), s.phase = .run → s.cur.opnd.cmdid = some id →
    (regLookup s.reg id = none → exec .resolve s = .next (s.raise .unknownCommand)) ∧
    (∀ c, regLookup s.reg id = some c →
      exec .resolve s = .next (s.complete { Results.invalid with found := some 1 })))

/-- R100: what `CMD_ENC` answers, in the order of its tests. -/
def Obligations.CmdEncOutcome : Prop :=
  decodeOp 0x0A = .cmdEnc ∧
  (∀ s : State, s.phase = .build → exec .cmdEnc s = .next (s.raise .illegalOperation)) ∧
  (∀ (s : State) (id : Half), s.phase = .run → s.cur.opnd.cmdid = some id →
    (regLookup s.reg id = none → exec .cmdEnc s = .next (s.raise .unknownCommand)) ∧
    (∀ (c : CodecRef) (p : Params), regLookup s.reg id = some c → s.cur.opnd.pin = some p →
      let body := Config.codecEncode c p
      (255 < body.length → exec .cmdEnc s = .next (s.raise .invalidCommand)) ∧
      (body.length ≤ 255 → withinCap s.caps.bufMax body.length = false →
        exec .cmdEnc s = .next (s.raise .capacityExceeded)) ∧
      (body.length ≤ 255 → withinCap s.caps.bufMax body.length = true →
        exec .cmdEnc s = .next (s.complete { Results.ofOutput body with
          rcmdid := some id, rcmdsize := some (BitVec.ofNat 8 body.length) }))))

/-- R101 and R102: what `CMD_DEC` answers, where `RQ_MAX` leaves room for its one entry. -/
def Obligations.CmdDecOutcome : Prop :=
  decodeOp 0x0B = .cmdDec ∧
  (∀ s : State, s.phase = .build → exec .cmdDec s = .next (s.raise .illegalOperation)) ∧
  (∀ (s : State) (n : Nat), s.phase = .run → s.cur.opnd.ilen = some n → 255 < n →
    exec .cmdDec s = .next (s.raise .badOperand)) ∧
  (∀ (s : State) (id : Half) (body : Bytes), s.phase = .run → s.cur.opnd.cmdid = some id →
    s.cur.opnd.inputBytes = some body → body.length ≤ 255 → s.caps.rqMax ≠ some 0 →
    (regLookup s.reg id = none →
      exec .cmdDec s = .next (s.complete
        { Results.invalid with rq := some [.invalid body (.unknownCommand id)] })) ∧
    (∀ c, regLookup s.reg id = some c → Config.codecDecode c body = none →
      exec .cmdDec s = .next (s.complete { Results.invalid with rq := some [.invalid body .codecError] })) ∧
    (∀ c p, regLookup s.reg id = some c → Config.codecDecode c body = some p →
      exec .cmdDec s = .next (s.complete
        { Results.invalid with rq := some [.ok { id := id, body := body } p] })))

/-- A header or an entry of `RQ` that does not fit its capacity is refused by `HDR_ENC` and `CMD_DEC` as R31 says of every result,
although their own rules and R145 name no such error: the model's reading (log 15). -/
def Obligations.ResultsThatDoNotFitAreRefused : Prop :=
  (∀ (s : State) (id : Half) (size : Byte) (w : Bytes), s.cur.opnd.cmdid = some id → s.cur.opnd.cmdsize = some size →
    hdrEnc id size = .ok w → withinCap s.caps.bufMax w.length = false →
    exec .hdrEnc s = .next (s.raise .capacityExceeded)) ∧
  (∀ (s : State) (id : Half) (body : Bytes), s.phase = .run → s.cur.opnd.cmdid = some id →
    s.cur.opnd.inputBytes = some body → body.length ≤ 255 → s.caps.rqMax = some 0 →
    exec .cmdDec s = .next (s.raise .capacityExceeded))

/-- R99: the registry-reading operations raise `IllegalOperation` while `PHASE = BUILD`, whatever their operands hold; every
other operation but `REG_BUILD` answers the same in either phase and for any registry. -/
def Obligations.LookupsNeedTheRegistry : Prop :=
  (∀ (s : State) (i : Instr), s.phase = .build →
    i ∈ [Instr.resolve, .cmdEnc, .cmdDec, .msgUnpack, .frameMsgDec] →
    exec i s = .next (s.raise .illegalOperation)) ∧
  (∀ (s t : State) (i : Instr) (ph : Phase) (r : List RegEntry),
    i ∈ [Instr.lrc, .lrcUpd, .crc16, .crc16Upd, .crc16Fin, .hdrDec, .hdrEnc, .msgPack, .escape, .unescape, .frameEnc,
      .frameDec] →
    exec i s = .next t → exec i { s with phase := ph, reg := r } = .next { t with phase := ph, reg := r })

/-! ## The message packer (spec/43_message.md) -/

/-- Step 1 of R109 and R108: the plaintext region is the commands' headers and bodies in order; packing fails only with
`InvalidCommand`, and only for a body longer than 255 bytes or an id and size without a header. -/
def Obligations.PackingConcatenatesHeadersAndBodies : Prop :=
  (∀ (cq : List Command) (plain : Bytes), packCommands cq = .ok plain ↔
    ∃ hs : List Bytes,
      List.Forall₂ (fun (c : Command) (h : Bytes) =>
        c.body.length ≤ 255 ∧ hdrEnc c.id (BitVec.ofNat 8 c.body.length) = .ok h) cq hs ∧
      plain = (List.zipWith (fun (c : Command) (h : Bytes) => h ++ c.body) cq hs).flatten) ∧
  (∀ (cq : List Command) (k : ErrorKind), packCommands cq = .error k →
    k = .invalidCommand ∧
    ∃ c ∈ cq, 255 < c.body.length ∨ hdrEnc c.id (BitVec.ofNat 8 c.body.length) = .error .invalidCommand)

/-- R109: what `MSG_PACK` answers, in the order of its tests, in either phase. `KEYV` holds a value at every level (R12). -/
def Obligations.MsgPackOutcome : Prop :=
  decodeOp 0x0C = .msgPack ∧
  (∀ (s : State) (a : BitVec 2), s.cur.opnd.access = some a →
    (a = 3 → exec .msgPack s = .next (s.raise .badOperand)) ∧
    (a = 1 ∨ a = 2 → s.cur.opnd.keyv = some 0 → exec .msgPack s = .next (s.raise .badOperand)) ∧
    (∀ (kv : BitVec 1) (cq : List Command), s.cur.opnd.keyv = some kv → (a = 0 ∨ ((a = 1 ∨ a = 2) ∧ kv = 1)) →
      s.cur.opnd.cq = some cq →
      (∀ k, packCommands cq = .error k → exec .msgPack s = .next (s.raise k)) ∧
      (∀ (plain region : Bytes) (mid : Byte), packCommands cq = .ok plain → s.cur.opnd.msgid = some mid →
        ((a = 0 ∧ region = plain) ∨
          (a ≠ 0 ∧ ∃ k, s.cur.opnd.key = some k ∧ region = Config.cipherEnc k plain)) →
        let m := [mid] ++ region ++ [computeBlockParity Config.lrc (mid :: plain)]
        (withinCap s.caps.bufMax m.length = true →
          exec .msgPack s = .next (s.complete (Results.ofOutput m))) ∧
        (withinCap s.caps.bufMax m.length = false → exec .msgPack s = .next (s.raise .capacityExceeded)))))

/-- R110: the length of a packed message: two more than the region, which at level `UNENCRYPTED` has, per command, its header
and its body, at most `3 + 255` bytes. -/
def Obligations.PackedMessageLength : Prop :=
  ∀ (s t : State) (cq : List Command) (n : Nat), exec .msgPack s = .next t → t.cur.res.olen = some n →
    s.cur.opnd.access = some 0 → s.cur.opnd.cq = some cq →
    (∃ hs : List Bytes,
      List.Forall₂ (fun (c : Command) (h : Bytes) => hdrEnc c.id (BitVec.ofNat 8 c.body.length) = .ok h) cq hs ∧
      n = 2 + (List.zipWith (fun (c : Command) (h : Bytes) => h.length + c.body.length) cq hs).sum) ∧
    n ≤ 2 + 258 * cq.length

/-- R111: what `MSG_UNPACK` answers, in the order of its tests. `plain` is the region as it is checked: decrypted if the level
encrypts and a key is supplied, else as it stands. `KEYV` holds a value at every level (R12). -/
def Obligations.MsgUnpackOutcome : Prop :=
  decodeOp 0x0D = .msgUnpack ∧
  (∀ s : State, s.phase = .build → exec .msgUnpack s = .next (s.raise .illegalOperation)) ∧
  (∀ (s : State) (a : BitVec 2), s.phase = .run → s.cur.opnd.access = some a →
    (a = 3 → exec .msgUnpack s = .next (s.raise .badOperand)) ∧
    (∀ (kv : BitVec 1) (b : Bytes), a ≠ 3 → s.cur.opnd.keyv = some kv → s.cur.opnd.inputBytes = some b →
      b.length < 2 → exec .msgUnpack s = .next (s.raise .bufferTooShort)) ∧
    (∀ (kv : BitVec 1) (mid chk : Byte) (region plain : Bytes), a ≠ 3 → s.cur.opnd.keyv = some kv →
      s.cur.opnd.inputBytes = some ([mid] ++ region ++ [chk]) →
      (((a = 0 ∨ kv = 0) ∧ plain = region) ∨
        (a ≠ 0 ∧ kv = 1 ∧ ∃ k, s.cur.opnd.key = some k ∧ plain = Config.cipherDec k region)) →
      let sum := computeBlockParity Config.lrc (mid :: plain)
      let l := unpackCommands s.reg plain
      (sum ≠ chk → exec .msgUnpack s = .next (s.raise .checksumMismatch)) ∧
      (sum = chk → withinCap s.caps.rqMax l.length = false →
        exec .msgUnpack s = .next (s.raise .capacityExceeded)) ∧
      (sum = chk → withinCap s.caps.rqMax l.length = true →
        exec .msgUnpack s = .next (s.complete { Results.invalid with
          rmsgid := some mid, raccess := some a, rchk := some chk, rq := some l }))))

/-- R112 with R113: the walk over the plaintext region, one command at a time. -/
def Obligations.UnpackWalksTheRegion : Prop :=
  ∀ reg : List RegEntry,
    unpackCommands reg [] = [] ∧
    (∀ (r : Bytes) (k : ErrorKind), r ≠ [] → hdrDec r = .error k →
      k = .bufferTooShort ∧ unpackCommands reg r = [.invalid r .bufferTooShort]) ∧
    (∀ (r : Bytes) (h : Header), hdrDec r = .ok h →
      let ext := h.headerSize + h.commandSize.toNat
      (r.length < ext → unpackCommands reg r = [.invalid r .bufferTooShort]) ∧
      (ext ≤ r.length →
        unpackCommands reg r =
          (match regLookup reg h.commandId with
            | none => .invalid (r.take ext) (.unknownCommand h.commandId)
            | some c =>
              match Config.codecDecode c ((r.take ext).drop h.headerSize) with
              | some p => .ok { id := h.commandId, body := (r.take ext).drop h.headerSize } p
              | none => .invalid (r.take ext) .codecError)
          :: unpackCommands reg (r.drop ext)))

/-- R118: a command whose header is truthful about its size is isolated: what follows it is unpacked as if it stood alone,
whether or not its id is registered. -/
def Obligations.CommandsAreIsolated : Prop :=
  ∀ (reg : List RegEntry) (id : Half) (body w rest : Bytes),
    body.length ≤ 255 → hdrEnc id (BitVec.ofNat 8 body.length) = .ok w →
    unpackCommands reg (w ++ body ++ rest) = dispatchDecode reg id (w ++ body) body :: unpackCommands reg rest ∧
    (regLookup reg id = none →
      (unpackCommands reg (w ++ body ++ rest)).head? = some (.invalid (w ++ body) (.unknownCommand id)))

/-- R117: a packed message unpacks to its id and one entry per command, in order: for any checksum triple unencrypted, and
under `CIPHER_INV` with the same key; and so for the operations. -/
def Obligations.MessageRoundTrip : Prop :=
  (∀ (p : LrcParams) (s u : State) (r : Results) (cq : List Command) (mid : Byte) (a : BitVec 2) (b : Bytes),
    packMessage p s = .ok r → s.cur.opnd.cq = some cq → s.cur.opnd.msgid = some mid → s.cur.opnd.access = some a →
    r.outputBytes = some b → u.phase = .run → u.cur.opnd.access = some a → u.cur.opnd.inputBytes = some b →
    ((a = 0 ∧ ∃ kv, u.cur.opnd.keyv = some kv) ∨
      (Config.CipherInv ∧ u.cur.opnd.keyv = some 1 ∧ u.cur.opnd.key = s.cur.opnd.key)) →
    u.caps.rqMax = none →
    ∃ hs : List Bytes,
      List.Forall₂ (fun (c : Command) (h : Bytes) => hdrEnc c.id (BitVec.ofNat 8 c.body.length) = .ok h) cq hs ∧
      ∃ m, msgUnpack p u u.cur.opnd.readInput = .ok m ∧ m.messageId = mid ∧ m.accessLevel = a ∧
        m.commands = List.zipWith (fun (c : Command) (h : Bytes) => dispatchDecode u.reg c.id (h ++ c.body) c.body) cq hs) ∧
  (∀ (s t u : State) (cq : List Command) (mid : Byte) (b : Bytes),
    exec .msgPack s = .next t → t.cur.status = .ok → s.cur.opnd.cq = some cq → s.cur.opnd.msgid = some mid →
    s.cur.opnd.access = some 0 → t.cur.res.outputBytes = some b →
    u.phase = .run → u.cur.opnd.access = some 0 → u.cur.opnd.keyv ≠ none → u.cur.opnd.inputBytes = some b →
    u.caps.rqMax = none →
    ∃ hs : List Bytes,
      List.Forall₂ (fun (c : Command) (h : Bytes) => hdrEnc c.id (BitVec.ofNat 8 c.body.length) = .ok h) cq hs ∧
      ∃ v, exec .msgUnpack u = .next v ∧ v.cur.status = .ok ∧ v.cur.res.rmsgid = some mid ∧
        v.cur.res.raccess = some 0 ∧
        v.cur.res.rq = some
          (List.zipWith (fun (c : Command) (h : Bytes) => dispatchDecode u.reg c.id (h ++ c.body) c.body) cq hs))

/-! ## The frame codec (spec/44_frame.md) -/

/-- R122 and R124: what `ESCAPE` and `UNESCAPE` answer. -/
def Obligations.EscapeOperationsComplete : Prop :=
  decodeOp 0x0E = .escape ∧ decodeOp 0x0F = .unescape ∧
  (∀ (s : State) (b : Bytes), s.cur.opnd.inputBytes = some b →
    let o := b.flatMap fun c =>
      if c = 0x7E#8 ∨ c = 0x7D#8 ∨ c = 0x11#8 ∨ c = 0x13#8 then [0x7D#8, c ^^^ 0x20#8] else [c]
    (withinCap s.caps.bufMax o.length = true → exec .escape s = .next (s.complete (Results.ofOutput o))) ∧
    (withinCap s.caps.bufMax o.length = false → exec .escape s = .next (s.raise .capacityExceeded))) ∧
  (∀ (s : State) (b : Bytes), s.cur.opnd.inputBytes = some b →
    (∀ o, unescape b = .ok o → o.length ≤ b.length ∧ exec .unescape s = .next (s.complete (Results.ofOutput o))) ∧
    (∀ k, unescape b = .error k → exec .unescape s = .next (s.raise .truncatedFrame)))

/-- R125: the transition table of the unescape machine, by what comes first in the input. -/
def Obligations.UnescapeFollowsTheStateMachine : Prop :=
  unescape [] = .ok [] ∧
  (∀ (b : Byte) (rest : Bytes), b ≠ 0x7D → unescape (b :: rest) = (unescape rest).map (fun o => b :: o)) ∧
  (∀ (f : Byte) (rest : Bytes), unescape (0x7D :: f :: rest) = (unescape rest).map (fun o => (f ^^^ 0x20#8) :: o)) ∧
  unescape [0x7D] = .error .truncatedFrame

/-- R126: a trailing escape byte with no follower is the only input the unescape machine rejects. -/
def Obligations.UnescapeRejectsOnlyTrailingEscape : Prop :=
  ∀ (s : Bytes) (k : ErrorKind), unescape s = .error k ↔
    k = .truncatedFrame ∧ ∃ (p o : Bytes), s = p ++ [0x7D] ∧ unescape p = .ok o

/-- R123: growth and content of an escaped sequence, and escaping of a concatenation. -/
def Obligations.EscapedBytesAreClean : Prop :=
  (∀ s : Bytes, s.length ≤ (escape s).length ∧ (escape s).length ≤ 2 * s.length) ∧
  (∀ s : Bytes, 0x7E#8 ∉ escape s ∧ 0x11#8 ∉ escape s ∧ 0x13#8 ∉ escape s) ∧
  (∀ s p q : Bytes, escape s = p ++ 0x7D#8 :: q →
    (∃ f r, q = f :: r ∧ f ∉ [0x7E#8, 0x7D#8, 0x11#8, 0x13#8])) ∧
  (∀ s t : Bytes, escape (s ++ t) = escape s ++ escape t)

/-- R127: unescaping undoes escaping, for all byte sequences and through the operations; the converse does not hold. -/
def Obligations.UnescapeInvertsEscape : Prop :=
  (∀ b : Bytes, unescape (escape b) = .ok b) ∧
  (∀ (s t u : State) (b o : Bytes), s.cur.opnd.inputBytes = some b → exec .escape s = .next t →
    t.cur.res.outputBytes = some o → u.cur.opnd.inputBytes = some o →
    exec .unescape u = .next (u.complete (Results.ofOutput b))) ∧
  unescape [0x7D, 0x00] = .ok [0x20] ∧ escape [0x20] = [0x20]

/-- R128 with R57 and R58: what `FRAME_ENC` answers for every type, addresses and message. -/
def Obligations.FrameEncOutcome : Prop :=
  decodeOp 0x10 = .frameEnc ∧
  (∀ (s : State) (ty : Byte) (d c : Half) (msg : Bytes),
    s.cur.opnd.ftype = some ty → s.cur.opnd.dst = some d → s.cur.opnd.src = some c →
    s.cur.opnd.inputBytes = some msg →
    let body := [ty, d.extractLsb' 8 8, d.extractLsb' 0 8, c.extractLsb' 8 8, c.extractLsb' 0 8] ++ msg
    let crc := computeFrameCrc Config.crc body
    let w := [0x7E#8] ++ escape (body ++ [crc.extractLsb' 8 8, crc.extractLsb' 0 8]) ++ [0x7E#8]
    (withinCap s.caps.bufMax w.length = true → exec .frameEnc s = .next (s.complete (Results.ofOutput w))) ∧
    (withinCap s.caps.bufMax w.length = false → exec .frameEnc s = .next (s.raise .capacityExceeded)))

/-- R129, R130 and R131: what `FRAME_DEC` answers. -/
def Obligations.FrameDecOutcome : Prop :=
  decodeOp 0x11 = .frameDec ∧
  (∀ (s : State) (w : Bytes), s.cur.opnd.inputBytes = some w →
    ((¬ ∃ inner, w = [0x7E#8] ++ inner ++ [0x7E#8]) → exec .frameDec s = .next (s.raise .truncatedFrame)) ∧
    (∀ inner : Bytes, w = [0x7E#8] ++ inner ++ [0x7E#8] →
      (∀ k, unescape inner = .error k → exec .frameDec s = .next (s.raise .truncatedFrame)) ∧
      (∀ u, unescape inner = .ok u → u.length < 7 → exec .frameDec s = .next (s.raise .truncatedFrame)) ∧
      (∀ (ty d1 d0 s1 s0 c1 c0 : Byte) (msg : Bytes),
        unescape inner = .ok ([ty, d1, d0, s1, s0] ++ msg ++ [c1, c0]) →
        let field := (c1.setWidth 16 <<< 8) ||| c0.setWidth 16
        (computeFrameCrc Config.crc ([ty, d1, d0, s1, s0] ++ msg) ≠ field →
          exec .frameDec s = .next (s.raise .frameCrcMismatch)) ∧
        (computeFrameCrc Config.crc ([ty, d1, d0, s1, s0] ++ msg) = field →
          exec .frameDec s = .next (s.complete { Results.ofOutput msg with
            rtype := some ty, rdst := some ((d1.setWidth 16 <<< 8) ||| d0.setWidth 16),
            rsrc := some ((s1.setWidth 16 <<< 8) ||| s0.setWidth 16), rcrc := some field })))))

/-- R132: what `FRAME_MSG_DEC` answers: the phase, the level, the frame stage, then the message stage on a frame whose CRC
verified; if the message stage raises, no frame field is delivered. -/
def Obligations.FrameMsgDecOutcome : Prop :=
  decodeOp 0x12 = .frameMsgDec ∧
  (∀ s : State, s.phase = .build → exec .frameMsgDec s = .next (s.raise .illegalOperation)) ∧
  (∀ s : State, s.phase = .run → s.cur.opnd.access = some 3 → exec .frameMsgDec s = .next (s.raise .badOperand)) ∧
  (∀ (s : State) (a : BitVec 2) (w : Bytes), s.phase = .run → s.cur.opnd.access = some a → a ≠ 3 →
    s.cur.opnd.inputBytes = some w →
    (∀ k, frameDec Config.crc w = .error k → exec .frameMsgDec s = .next (s.raise k)) ∧
    (∀ f, frameDec Config.crc w = .ok f → s.cur.opnd.keyv ≠ none →
      (∀ k, msgUnpack Config.lrc s (.ok f.msg) = .error (.raise k) → exec .frameMsgDec s = .next (s.raise k)) ∧
      (∀ m, msgUnpack Config.lrc s (.ok f.msg) = .ok m →
        exec .frameMsgDec s = .next (s.complete { Results.ofOutput f.msg with
          rtype := some f.type, rdst := some f.dst, rsrc := some f.src, rcrc := some f.crc,
          rmsgid := some m.messageId, raccess := some m.accessLevel, rchk := some m.checksum,
          rq := some m.commands }))))

/-- R133: a frame made by `FRAME_ENC` decodes, with `FRAME_DEC`, to the type, addresses and message it was made from. -/
def Obligations.FrameRoundTrip : Prop :=
  (∀ (p : CrcParams) (ty : Byte) (d c : Half) (msg : Bytes),
    frameDec p (frameEnc p ty d c msg) = .ok
      { type := ty, dst := d, src := c, msg := msg, crc := computeFrameCrc p (frameBody ty d c msg) }) ∧
  (∀ (s t u : State) (ty : Byte) (d c : Half) (msg w : Bytes),
    s.cur.opnd.ftype = some ty → s.cur.opnd.dst = some d → s.cur.opnd.src = some c →
    s.cur.opnd.inputBytes = some msg → exec .frameEnc s = .next t → t.cur.res.outputBytes = some w →
    u.cur.opnd.inputBytes = some w →
    exec .frameDec u = .next (u.complete { Results.ofOutput msg with
      rtype := some ty, rdst := some d, rsrc := some c,
      rcrc := some (computeFrameCrc Config.crc (frameBody ty d c msg)) }))

/-- R134: the frame of DOC00 §8 as printed, with its byte `13` unescaped, and the same frame with `13` sent as `7D 33` are two
buffers that decode to the same frame. `FRAME_ENC` makes the second only, so decoding the first and encoding again does not give
it back. -/
def Obligations.DecoderAcceptsMoreThanEncoderMakes : Prop :=
  let msg : Bytes :=
    [0x0A, 0x13, 0x00, 0x3F, 0xE4, 0xE6, 0xF8, 0x7E, 0x34, 0x9D, 0xBA, 0xEE, 0x69, 0xDD, 0x8A, 0xB9, 0x32, 0x78]
  let printed : Bytes :=
    [0x7E, 0x50, 0xAA, 0xAA, 0xFF, 0xFF, 0x0A, 0x13, 0x00, 0x3F, 0xE4, 0xE6, 0xF8, 0x7D, 0x5E, 0x34, 0x9D, 0xBA, 0xEE,
      0x69, 0xDD, 0x8A, 0xB9, 0x32, 0x78, 0xE2, 0x26, 0x7E]
  let encoded : Bytes :=
    [0x7E, 0x50, 0xAA, 0xAA, 0xFF, 0xFF, 0x0A, 0x7D, 0x33, 0x00, 0x3F, 0xE4, 0xE6, 0xF8, 0x7D, 0x5E, 0x34, 0x9D, 0xBA,
      0xEE, 0x69, 0xDD, 0x8A, 0xB9, 0x32, 0x78, 0xE2, 0x26, 0x7E]
  let f : Frame := { type := 0x50, dst := 0xAAAA, src := 0xFFFF, msg := msg, crc := 0xE226 }
  frameDec Config.crc printed = .ok f ∧ frameDec Config.crc encoded = .ok f ∧
    frameEnc Config.crc 0x50 0xAAAA 0xFFFF msg = encoded ∧ printed ≠ encoded

/-- The whole data flow of R64 and R132: what one side packs and frames, the other receives with `FRAME_MSG_DEC`. -/
def Obligations.ReceiveWhatWasSent : Prop :=
  ∀ (u : State) (ty mid : Byte) (d c : Half) (cq : List Command) (plain : Bytes),
    packCommands cq = .ok plain →
    let msg := [mid] ++ plain ++ [computeBlockParity Config.lrc (mid :: plain)]
    u.phase = .run → u.cur.opnd.access = some 0 → u.cur.opnd.keyv ≠ none → u.caps.rqMax = none →
    u.cur.opnd.inputBytes = some (frameEnc Config.crc ty d c msg) →
    ∃ hs : List Bytes,
      List.Forall₂ (fun (e : Command) (h : Bytes) => hdrEnc e.id (BitVec.ofNat 8 e.body.length) = .ok h) cq hs ∧
      ∃ v, exec .frameMsgDec u = .next v ∧ v.cur.status = .ok ∧ v.cur.res.rtype = some ty ∧
        v.cur.res.rdst = some d ∧ v.cur.res.rsrc = some c ∧ v.cur.res.rmsgid = some mid ∧
        v.cur.res.obuf = Memory.ofBytes msg ∧
        v.cur.res.rq = some
          (List.zipWith (fun (e : Command) (h : Bytes) => dispatchDecode u.reg e.id (h ++ e.body) e.body) cq hs)

/-! ## Reserved codes, wire items, enumerations -/

/-- R48: every reserved code decodes to a row that raises `IllegalOperation`, whatever the state; `REG` and `PHASE` stay. -/
def Obligations.ReservedCodesRaise : Prop :=
  (∀ (c : BitVec 5) (s : State), (c = 0 ∨ 0x13 ≤ c.toNat) →
    exec (decodeOp c) s = .next (s.raise .illegalOperation)) ∧
  (∀ (s : State) (lo2 : BitVec 2) (lo3 : BitVec 3),
    exec .reservedOp00 s = .next (s.raise .illegalOperation) ∧
    exec .reservedOp13 s = .next (s.raise .illegalOperation) ∧
    exec (.reservedOp14to17 lo2) s = .next (s.raise .illegalOperation) ∧
    exec (.reservedOp18to1F lo3) s = .next (s.raise .illegalOperation)) ∧
  (∀ s : State, (s.raise .illegalOperation).reg = s.reg ∧ (s.raise .illegalOperation).phase = s.phase ∧
    (s.raise .illegalOperation).cur.res = Results.invalid)

/-- The id and size of the three header forms (R50, R51, R52, R55), delivered by the header decoder when a header item is its
whole input; that an item runs so is the model's choice (log 5). -/
def Obligations.HeaderItemsDecode : Prop :=
  (∀ (s : State) (top : BitVec 3) (size : BitVec 5), top ≠ 0 →
    exec (.hdrShort top size) s = .next (s.complete { Results.invalid with
      hsize := some 1, rcmdid := some (top.setWidth 16 <<< 5), rcmdsize := some (size.setWidth 8) })) ∧
  (∀ (s : State) (id : BitVec 5) (size : Byte), id ≠ 0x1F →
    exec (.hdrMedium id size) s = .next (s.complete { Results.invalid with
      hsize := some 2, rcmdid := some (id.setWidth 16), rcmdsize := some size })) ∧
  (∀ (s : State) (h size : Byte),
    exec (.hdrExtended h size) s = .next (s.complete { Results.invalid with
      hsize := some 3, rcmdid := some ((h.setWidth 16 <<< 8) ||| 0x001F#16), rcmdsize := some size }))

/-- The byte each escape item stands for (R59, R125), delivered by the unescape machine when the item is its whole input; that
an item runs so is the model's choice (log 5). -/
def Obligations.EscapeItemsDecode : Prop :=
  ∀ s : State,
    exec .escFlag s = .next (s.complete (Results.ofOutput [0x7E])) ∧
    exec .escEsc s = .next (s.complete (Results.ofOutput [0x7D])) ∧
    exec .escFlowA s = .next (s.complete (Results.ofOutput [0x11])) ∧
    exec .escFlowB s = .next (s.complete (Results.ofOutput [0x13])) ∧
    (∀ f : Byte, exec (.escAny f) s = .next (s.complete (Results.ofOutput [f ^^^ 0x20#8]))) ∧
    (∀ b : Byte, b ≠ 0x7D → exec (.literal b) s = .next (s.complete (Results.ofOutput [b])))

/-- A lone delimiter is a truncated frame (R129); a frame item is decoded as `FRAME_DEC` decodes its bytes (R130): its fields
if its CRC field is right, else `FrameCrcMismatch`. That an item runs so is the model's choice (log 5). -/
def Obligations.DelimiterAndFrameItems : Prop :=
  (∀ s : State, exec .flag s = .next (s.raise .truncatedFrame)) ∧
  (∀ (s : State) (ty : Byte) (d c crc : Half) (msg : Bytes),
    let good := computeFrameCrc Config.crc
      ([ty, d.extractLsb' 8 8, d.extractLsb' 0 8, c.extractLsb' 8 8, c.extractLsb' 0 8] ++ msg)
    (crc = good → exec (.frame ty d c msg crc) s = .next (s.complete { Results.ofOutput msg with
      rtype := some ty, rdst := some d, rsrc := some c, rcrc := some crc })) ∧
    (crc ≠ good → exec (.frame ty d c msg crc) s = .next (s.raise .frameCrcMismatch)))

/-- A message item is unpacked as `MSG_UNPACK` unpacks its bytes (R111), at every level, with and without a key. That an item
runs so is the model's choice (log 5). -/
def Obligations.MessageItemUnpacks : Prop :=
  (∀ (s : State) (mid chk : Byte) (region : Bytes), s.phase = .build →
    exec (.message mid region chk) s = .next (s.raise .illegalOperation)) ∧
  (∀ (s : State) (mid chk : Byte) (region : Bytes), s.phase = .run → s.cur.opnd.access = some 3 →
    exec (.message mid region chk) s = .next (s.raise .badOperand)) ∧
  (∀ (s : State) (a : BitVec 2) (kv : BitVec 1) (mid chk : Byte) (region plain : Bytes), s.phase = .run →
    s.cur.opnd.access = some a → a ≠ 3 → s.cur.opnd.keyv = some kv →
    (((a = 0 ∨ kv = 0) ∧ plain = region) ∨
      (a ≠ 0 ∧ kv = 1 ∧ ∃ k, s.cur.opnd.key = some k ∧ plain = Config.cipherDec k region)) →
    let sum := computeBlockParity Config.lrc (mid :: plain)
    let l := unpackCommands s.reg plain
    (sum ≠ chk → exec (.message mid region chk) s = .next (s.raise .checksumMismatch)) ∧
    (sum = chk → withinCap s.caps.rqMax l.length = false →
      exec (.message mid region chk) s = .next (s.raise .capacityExceeded)) ∧
    (sum = chk → withinCap s.caps.rqMax l.length = true →
      exec (.message mid region chk) s = .next (s.complete { Results.invalid with
        rmsgid := some mid, raccess := some a, rchk := some chk, rq := some l })))

/-- An access level code is a host write of `ACCESS` and changes nothing else (log 7); a status code is the last act of an
operation that ends with it (log 6). Both meanings are the model's choice. -/
def Obligations.EnumerationItems : Prop :=
  (∀ (s : State) (a : BitVec 2), ∃ t, exec (.accessCode a) s = .next t ∧ t.cur.opnd.access = some a ∧
    t = { s with cur := { s.cur with opnd := { s.cur.opnd with access := t.cur.opnd.access } } }) ∧
  (∀ (s : State) (c : Status), ∃ t, exec (.statusCode c) s = .next t ∧ t.cur.status = c ∧
    t = { s with cur := { s.cur with res := Results.invalid, status := t.cur.status } })

/-- The `STATUS` codes of R141: they are 0 to 10, no two kinds share one, and reading a code back gives its kind. -/
def Obligations.StatusCodesAreThoseOfTheTable : Prop :=
  statusCode .ok = 0 ∧ statusCode (.error .emptyBuffer) = 1 ∧ statusCode (.error .bufferTooShort) = 2 ∧
  statusCode (.error .invalidCommand) = 3 ∧ statusCode (.error .unknownCommand) = 4 ∧
  statusCode (.error .checksumMismatch) = 5 ∧ statusCode (.error .frameCrcMismatch) = 6 ∧
  statusCode (.error .truncatedFrame) = 7 ∧ statusCode (.error .illegalOperation) = 8 ∧
  statusCode (.error .badOperand) = 9 ∧ statusCode (.error .capacityExceeded) = 10 ∧
  (∀ c : Status, (statusCode c).toNat ≤ 10 ∧ statusOfCode (statusCode c).toNat = some c)

/-! ## Rules about every operation -/

/-- R143: an operation that ends with an error kind had no effect but `STATUS` and the invalidated results. -/
def Obligations.RaiseLeavesOnlyStatus : Prop :=
  ∀ (i : Instr) (s t : State) (k : ErrorKind), encodeSpace i ≠ .access → exec i s = .next t →
    t.cur.status = .error k →
    t = { s with cur := { s.cur with res := Results.invalid, status := .error k } }

/-- R14 (a), (b), (c): after an operation no result element holds a value but those its row of R46 names; on success all of
those do (`OBUF` where there is a byte to hold), and after an error none does. -/
def Obligations.ResultsAreThoseTheRowNames : Prop :=
  ∀ (i : Instr) (s t : State), encodeSpace i ≠ .access → exec i s = .next t →
    (∀ e, t.cur.res.holds e = true → e ∈ resultsOf i) ∧
    (t.cur.status = .ok → ∀ e ∈ resultsOf i, t.cur.res.holds e = true ∨ (e = .obuf ∧ t.cur.res.olen = some 0)) ∧
    (t.cur.status ≠ .ok → ∀ e, t.cur.res.holds e = false)

/-- The frame of every instruction: operand elements (R12, R15, R37), `IBUF` byte by byte, other engines, capacities and pending
moves stay; `REG` and `PHASE` stay but for `REG_BUILD` (R104). That the access level code, a row that is no operation, writes
`ACCESS` and leaves results and `STATUS` is the model's choice (log 7), and no rule cited here. -/
def Obligations.InstructionFrame : Prop :=
  ∀ (i : Instr) (s t : State), exec i s = .next t →
    (encodeSpace i ≠ .access → t.cur.opnd = s.cur.opnd) ∧
    (∀ a : Nat, t.cur.opnd.ibuf.read a = s.cur.opnd.ibuf.read a) ∧
    t.cur.opnd.ilen = s.cur.opnd.ilen ∧ t.cur.opnd.cq = s.cur.opnd.cq ∧
    t.registry = s.registry ∧ t.pre = s.pre ∧ t.post = s.post ∧ t.caps = s.caps ∧ t.pending = s.pending ∧
    (i ≠ .regBuild → t.reg = s.reg ∧ t.phase = s.phase) ∧
    (encodeSpace i = .access → t.cur.res = s.cur.res ∧ t.cur.status = s.cur.status)

/-- R11 and R104 for every step: `REG` and `PHASE` change only when `REG_BUILD` is run while `PHASE = BUILD`, which sets
`PHASE` to `RUN`, and at reset. -/
def Obligations.OnlyRegBuildAndResetChangeTheRegistry : Prop :=
  ∀ s t : State, step s = .next t →
    (t.reg = s.reg ∧ t.phase = s.phase) ∨
    (s.phase = .build ∧ t.phase = .run ∧
      ∃ rest, s.pending = .issue 0x08 :: rest ∨ s.pending = .item .op [0x08] :: rest) ∨
    (t.phase = .build ∧ t.reg = [] ∧ ∃ rest, s.pending = .reset :: rest)

/-- R21: what an operation answers is a function of `REG`, `PHASE`, the operand elements its row names (of `IBUF` the bytes
below `ILEN`) and the parameters, and of nothing else: not of other operand elements, of earlier results, of `STATUS`, of other
engines or of what the host does next. -/
def Obligations.OutcomeDependsOnOperandsAlone : Prop :=
  ∀ (i : Instr) (s t : State), encodeSpace i ≠ .access → s.phase = t.phase → s.reg = t.reg → s.caps = t.caps →
    (∀ e ∈ operandsOf i, sameOperand s t e) →
    (∀ s', exec i s = .next s' → ∃ t', exec i t = .next t' ∧ t'.cur.res = s'.cur.res ∧ t'.cur.status = s'.cur.status ∧
      t'.phase = s'.phase ∧ t'.reg = s'.reg) ∧
    (∀ f, exec i s = .fault f → exec i t = .fault f) ∧
    (∀ r, exec i s ≠ .refused r)

/-- R37: issuing the same operation twice gives the same `STATUS` and the same results; `REG_BUILD` is the exception, whose
second issue raises `IllegalOperation` after a first that succeeded. -/
def Obligations.RepeatingAnOperationChangesNothing : Prop :=
  (∀ (i : Instr) (s t : State), i ≠ .regBuild → exec i s = .next t → exec i t = .next t) ∧
  (∀ s t : State, exec .regBuild s = .next t → t.cur.status = .ok →
    exec .regBuild t = .next (t.raise .illegalOperation))

/-- R169: every operation ends on every input: where the operand elements that its row names and it needs hold values, it
answers a next state. -/
def Obligations.EveryOperationEnds : Prop :=
  ∀ (i : Instr) (s : State), operandsHeld i s → ∃ t, exec i s = .next t

/-- R14 (d), (e), R161 and D35: an operation that reads an operand element no one has written is a fault of the model that names
the element. The only fault of an instruction is such a fault; an instruction whose row names an element that holds no value, and
needs it, faults or raises, and never ends `OK`; and the fault comes at the first element the rule reads. An operation reads an
element where its pseudocode names it, so a test made before can raise: the model's reading (log 4). -/
def Obligations.UnwrittenOperandsFault : Prop :=
  (∀ (i : Instr) (s : State) (f : Fault), exec i s = .fault f →
    ∃ e ∈ operandsOf i, f = .noValue e ∧ operandNeeded s e ∧ operandHeld s e = false) ∧
  (∀ (i : Instr) (s : State) (e : Element), e ∈ operandsOf i → operandNeeded s e → operandHeld s e = false →
    (∃ e', exec i s = .fault (.noValue e')) ∨ (∃ k, exec i s = .next (s.raise k))) ∧
  (∀ (s : State) (i : Instr), i ∈ [Instr.lrc, .crc16, .hdrDec, .escape, .unescape, .frameDec] →
    (s.cur.opnd.ilen = none → exec i s = .fault (.noValue .ilen)) ∧
    (s.cur.opnd.ilen ≠ none → s.cur.opnd.inputBytes = none → exec i s = .fault (.noValue .ibuf))) ∧
  (∀ (s : State) (i : Instr), i ∈ [Instr.lrcUpd, .crc16Upd, .crc16Fin] → s.cur.opnd.accin = none →
    exec i s = .fault (.noValue .accin)) ∧
  (∀ s : State, s.cur.opnd.cmdid = none → exec .hdrEnc s = .fault (.noValue .cmdid)) ∧
  (∀ s : State, s.cur.opnd.cmdid ≠ none → s.cur.opnd.cmdsize = none → exec .hdrEnc s = .fault (.noValue .cmdsize)) ∧
  (∀ (s : State) (i : Instr), i ∈ [Instr.resolve, .cmdEnc] → s.phase = .run → s.cur.opnd.cmdid = none →
    exec i s = .fault (.noValue .cmdid)) ∧
  (∀ s : State, s.phase = .run → s.cur.opnd.ilen = none → exec .cmdDec s = .fault (.noValue .ilen)) ∧
  (∀ s : State, s.cur.opnd.access = none → exec .msgPack s = .fault (.noValue .access)) ∧
  (∀ s : State, s.cur.opnd.access ≠ none → s.cur.opnd.access ≠ some 3 → s.cur.opnd.keyv = none →
    exec .msgPack s = .fault (.noValue .keyv)) ∧
  (∀ (s : State) (i : Instr), i ∈ [Instr.msgUnpack, .frameMsgDec] → s.phase = .run → s.cur.opnd.access = none →
    exec i s = .fault (.noValue .access)) ∧
  (∀ s : State, s.phase = .run → s.cur.opnd.access ≠ none → s.cur.opnd.access ≠ some 3 → s.cur.opnd.keyv = none →
    exec .msgUnpack s = .fault (.noValue .keyv)) ∧
  (∀ s : State, s.cur.opnd.ftype = none → exec .frameEnc s = .fault (.noValue .ftype))

/-! ## Reset, steps, invariants -/

/-- R22: the state right after reset. The `REGISTRY` list is a parameter and not among its elements (R5, R6). -/
def Obligations.ResetLeavesNothing : Prop :=
  State.reset.reg = [] ∧ State.reset.phase = .build ∧ State.reset.phase.bit = 0 ∧
  State.reset.cur.status = .ok ∧ statusCode State.reset.cur.status = 0 ∧ State.reset.pending = [] ∧
  (∀ e, State.reset.cur.res.holds e = false) ∧ (∀ e, e ≠ .registry → operandHeld State.reset e = false) ∧
  (∀ i, State.reset.cur.opnd.ibuf.read i = none) ∧ (∀ i, State.reset.cur.res.obuf.read i = none)

/-- R160: the reset event gives every element its reset value on every engine, from any state. That the `REGISTRY` list, the
capacities, the number of engines and the host's further moves stay is the model's choice (log 21). -/
def Obligations.ResetEventResetsEveryEngine : Prop :=
  ∀ (s : State) (rest : List Move), s.pending = .reset :: rest →
    ∃ t, step s = .next t ∧ t.reg = [] ∧ t.phase = .build ∧ t.registry = s.registry ∧ t.caps = s.caps ∧
      (∀ e ∈ t.engines, e = Engine.reset) ∧ t.engines.length = s.engines.length ∧ t.pending = rest

/-- The invariant holds at reset. -/
def Obligations.ResetMeetsTheInvariant : Prop := State.reset.Inv

/-- Every step keeps the invariant: buffers in canonical form and within their capacities, `OBUF` exactly the bytes below
`OLEN`, `HSIZE` and `FOUND` never 0, no result after an error, the registry empty until built and in canonical form, on
every engine (R11, R13 to R16, R31). -/
def Obligations.StepKeepsTheInvariant : Prop :=
  ∀ s t : State, s.Inv → step s = .next t → t.Inv

/-- A step runs the instruction of the oldest pending move: the operation a write of `OP` selects (R46, R47), or the row an
item's bytes decode to; a table word placed with `withFetchWord` is run by the very next step; with no move pending nothing
changes. All four rest on the model's choices: the queue of moves (log 1), the item move (log 5), table words (log 8), the
operands `withFetchWord` supplies (log 3), the idle step (log 19). -/
def Obligations.StepRunsTheDecodedInstruction : Prop :=
  (∀ (s : State) (op : BitVec 5) (rest : List Move), s.pending = .issue op :: rest →
    step s = exec (decodeOp op) { s with pending := rest }) ∧
  (∀ (s : State) (sp : Space) (w : Bytes) (i : Instr) (rest : List Move), s.pending = .item sp w :: rest →
    decode sp w = .ok i → withinCap s.caps.bufMax w.length = true → step s = exec i { s with pending := rest }) ∧
  (∀ (s : State) (nbits w : Nat) (i : Instr), decodeTableWord nbits w = some i → s.caps.bufMax = none →
    step (s.withFetchWord nbits w) = exec i (supplyOperands i s)) ∧
  (∀ s : State, s.pending = [] → step s = .next s)

/-- R155, that engines do not interact: a move changes no engine but the one the host addresses, and an operation answers the
same whatever the other engines hold. The engines as a list with one position addressed, and the move that turns to another
engine and changes none, are the model's choice (log 17); R155 has no such move. -/
def Obligations.EnginesAreIsolated : Prop :=
  (∀ (s t : State) (m : Move) (rest : List Move), s.pending = m :: rest → step s = .next t → m ≠ .reset →
    (∀ k, m ≠ .select k) → t.pre = s.pre ∧ t.post = s.post) ∧
  (∀ (s t : State) (k : Nat) (rest : List Move), s.pending = .select k :: rest → step s = .next t →
    t.engines = s.engines ∧ t.engines[k]? = some t.cur ∧ t.pre.length = k) ∧
  (∀ (i : Instr) (s t : State) (pre post : List Engine), exec i s = .next t →
    exec i { s with pre := pre, post := post } = .next { t with pre := pre, post := post })

/-- R30, R31, R12 and R166 (b): a host write of `IBUF` and `ILEN` is what an operation then reads; a write of one byte at an index
below `BUF_MAX` changes that index alone; a write of any other operand element changes that element alone; results and `STATUS`
stay valid until the next operation (R165). A host read has no side effect (R37) and, of an element that holds no value, is a
fault (R14 (e)). That a write that does not fit a capacity, which R31 says the host cannot make, is the fault `doesNotFit` is
the model's reading (log 20); the moves stand in the model's queue (log 1). -/
def Obligations.HostWritesAreReadBack : Prop :=
  (∀ (s : State) (b : Bytes) (rest : List Move), s.pending = .write (.ibuf b) :: rest →
    (withinCap s.caps.bufMax b.length = true →
      ∃ t, step s = .next t ∧ t.cur.opnd.inputBytes = some b ∧ t.cur.res = s.cur.res ∧ t.cur.status = s.cur.status ∧
        t.reg = s.reg ∧ t.phase = s.phase ∧
        ∀ i, b.length ≤ i → t.cur.opnd.ibuf.read i = s.cur.opnd.ibuf.read i) ∧
    (withinCap s.caps.bufMax b.length = false → step s = .fault (.doesNotFit .ibuf))) ∧
  (∀ (s : State) (i : Nat) (b : Byte) (rest : List Move), s.pending = .write (.ibufByte i b) :: rest →
    ((∀ m, s.caps.bufMax = some m → i < m) →
      ∃ t, step s = .next t ∧ t.cur.opnd.ibuf.read i = some b ∧ t.cur.opnd.ilen = s.cur.opnd.ilen ∧
        t.cur.res = s.cur.res ∧ t.cur.status = s.cur.status ∧
        ∀ j, j ≠ i → t.cur.opnd.ibuf.read j = s.cur.opnd.ibuf.read j) ∧
    (∀ m, s.caps.bufMax = some m → m ≤ i → step s = .fault (.doesNotFit .ibuf))) ∧
  (∀ s : State,
    let run (m : Move) := step { s with pending := m :: s.pending }
    let put (o : Operands) : Host.Outcome State Fault Refusal := .next { s with cur := { s.cur with opnd := o } }
    (∀ v, run (.write (.accin v)) = put { s.cur.opnd with accin := some v }) ∧
    (∀ v, run (.write (.cmdid v)) = put { s.cur.opnd with cmdid := some v }) ∧
    (∀ v, run (.write (.cmdsize v)) = put { s.cur.opnd with cmdsize := some v }) ∧
    (∀ v, run (.write (.msgid v)) = put { s.cur.opnd with msgid := some v }) ∧
    (∀ v, run (.write (.access v)) = put { s.cur.opnd with access := some v }) ∧
    (∀ v, run (.write (.keyv v)) = put { s.cur.opnd with keyv := some v }) ∧
    (∀ v, run (.write (.key v)) = put { s.cur.opnd with key := some v }) ∧
    (∀ v, run (.write (.ftype v)) = put { s.cur.opnd with ftype := some v }) ∧
    (∀ v, run (.write (.dst v)) = put { s.cur.opnd with dst := some v }) ∧
    (∀ v, run (.write (.src v)) = put { s.cur.opnd with src := some v }) ∧
    (∀ v, run (.write (.pin v)) = put { s.cur.opnd with pin := some v }) ∧
    (∀ n, withinCap s.caps.bufMax n = true → run (.write (.ilen n)) = put { s.cur.opnd with ilen := some n }) ∧
    (∀ n, withinCap s.caps.bufMax n = false → run (.write (.ilen n)) = .fault (.doesNotFit .ilen)) ∧
    (∀ l, withinCap s.caps.cqMax l.length = true → run (.write (.cq l)) = put { s.cur.opnd with cq := some l }) ∧
    (∀ l, withinCap s.caps.cqMax l.length = false → run (.write (.cq l)) = .fault (.doesNotFit .cq)) ∧
    (∀ l, run (.write (.registry l)) = .next { s with registry := l }) ∧
    run (.read .status) = .next s ∧ run (.read .phase) = .next s ∧
    (∀ e, hostReadable e = true → run (.read e) = if elementHolds s e = true then .next s else .fault (.noValue e)) ∧
    (∀ i, run (.readObuf i) = if (s.cur.res.obuf.read i).isSome = true then .next s else .fault (.noValue .obuf)))

/-- R35 and R32: a two-byte field written big-endian at any index is read back, the most significant byte at the lower
index, and no other byte changes. -/
def Obligations.TwoByteFieldsAreBigEndian : Prop :=
  ∀ (m : Memory) (i : Nat) (v : Half), m.wf = true →
    (m.write16 i v).read16 i = some v ∧ (m.write16 i v).wf = true ∧
    (m.write16 i v).read i = some (v.extractLsb' 8 8) ∧ (m.write16 i v).read (i + 1) = some (v.extractLsb' 0 8) ∧
    (∀ j, j ≠ i → j ≠ i + 1 → (m.write16 i v).read j = m.read j) ∧
    (∀ hi lo : Byte, m.read i = some hi → m.read (i + 1) = some lo →
      m.read16 i = some ((hi.setWidth 16 <<< 8) ||| lo.setWidth 16))

/-! ## Encodings (spec/30_encoding.md) -/

/-- Decoding the encoding of a well-formed instruction gives it back, for every row of the table and every operand value. -/
def Obligations.DecodeOfEncodeIsIdentity : Prop :=
  ∀ i : Instr, i.wellFormed = true → decode (encode i).1 (encode i).2 = .ok i

/-- In every space but the frame's (R134), bytes that decode are the encoding of the instruction they decode to, which is well
formed: each word has one meaning. -/
def Obligations.DecodedWordsAreCanonical : Prop :=
  ∀ (sp : Space) (w : Bytes) (i : Instr), sp ≠ .frame → decode sp w = .ok i →
    encode i = (sp, w) ∧ i.wellFormed = true

/-- Words written out from the tables of R46, R48, R50 to R52, R59 and R141, one or more for every family. -/
def Obligations.SampleWordsDecode : Prop :=
  decodeOp 0b00001 = .lrc ∧ decodeOp 0b00011 = .crc16 ∧ decodeOp 0b00110 = .hdrDec ∧ decodeOp 0b01000 = .regBuild ∧
  decodeOp 0b01100 = .msgPack ∧ decodeOp 0b10010 = .frameMsgDec ∧ decodeOp 0b10110 = .reservedOp14to17 0b10 ∧
  decode .header [0b01100001] = .ok (.hdrShort 0b011 0b00001) ∧
  decode .header [0b00000111, 0b00000010] = .ok (.hdrMedium 0b00111 2) ∧
  decode .header [0b00011111, 0b00000001, 0b00010000] = .ok (.hdrExtended 1 0x10) ∧
  decode .escapeItem [0b01111101, 0b01011110] = .ok .escFlag ∧
  decode .escapeItem [0b01111101, 0b00000000] = .ok (.escAny 0) ∧
  decode .status [0b00000110] = .ok (.statusCode (.error .frameCrcMismatch))

/-! ## Pseudo-operations (spec/30_encoding.md R64) -/

/-- `CRC16_STREAM` (R64): the moves of the expansion, run to their end from any state with `BUF_MAX` unbounded, leave in `CRC` the
CRC of the chunks' concatenation. The expansion as a list of moves in a queue, and the host's copy of `ACCOUT` as a move that
reads the state, are the model's choice (logs 1 and 24). -/
def Obligations.CrcStreamEqualsOneShot : Prop :=
  ∀ (s : State) (first : Bytes) (rest : List Bytes), s.pending = pseudoCrc16Stream first rest → s.caps.bufMax = none →
    ∃ t : State, Steps s t ∧ t.pending = [] ∧
      t.cur.status = .ok ∧ t.cur.res.crc = some (computeFrameCrc Config.crc (first ++ rest.flatten))

/-- `SEND` (R64) at level `UNENCRYPTED`: the moves of the expansion leave the frame of the packed message in `OBUF`; if
`MSG_PACK` raises, the expansion stops there with its error. The expansion as a list of moves in a queue, and the host's copy of
`OBUF` and its stop after an error as moves that read the state, are the model's choice (logs 1 and 24). -/
def Obligations.SendFramesThePackedMessage : Prop :=
  ∀ (s : State) (mid ty : Byte) (d c : Half) (cq : List Command),
    s.pending = pseudoSend mid 0 none ty d c cq → s.caps = Capacities.unbounded →
    (∀ plain, packCommands cq = .ok plain →
      ∃ t : State, Steps s t ∧ t.pending = [] ∧ t.cur.status = .ok ∧
        t.cur.res.outputBytes = some (frameEnc Config.crc ty d c
          ([mid] ++ plain ++ [computeBlockParity Config.lrc (mid :: plain)]))) ∧
    (∀ k, packCommands cq = .error k →
      ∃ t : State, Steps s t ∧ t.pending = [] ∧ t.cur.status = .error k ∧
        t.cur.res = Results.invalid)
end

