-- ==== Sys2Proof/Laws/PerInstr.lean ====
section
/-! SUPPORT. Per-instruction families: a statement about the syntax of every row, and a lemma for each. -/

namespace Sys2Proof.Laws.EncodedLength

open Sys2Proof Sys2Proof.Machine

/-- How many bytes a row's word has (spec/opcode_table.json "length_bytes"; R47 for the operations, R58 and R56 for the two
rows of no fixed length: a frame has two delimiters and at least seven bytes between them, a message at least two bytes). -/
def Statement (i : Instr) : Prop :=
  match i with
  | .lrc => (encodeBytes .lrc).length = 1
  | .lrcUpd => (encodeBytes .lrcUpd).length = 1
  | .crc16 => (encodeBytes .crc16).length = 1
  | .crc16Upd => (encodeBytes .crc16Upd).length = 1
  | .crc16Fin => (encodeBytes .crc16Fin).length = 1
  | .hdrDec => (encodeBytes .hdrDec).length = 1
  | .hdrEnc => (encodeBytes .hdrEnc).length = 1
  | .regBuild => (encodeBytes .regBuild).length = 1
  | .resolve => (encodeBytes .resolve).length = 1
  | .cmdEnc => (encodeBytes .cmdEnc).length = 1
  | .cmdDec => (encodeBytes .cmdDec).length = 1
  | .msgPack => (encodeBytes .msgPack).length = 1
  | .msgUnpack => (encodeBytes .msgUnpack).length = 1
  | .escape => (encodeBytes .escape).length = 1
  | .unescape => (encodeBytes .unescape).length = 1
  | .frameEnc => (encodeBytes .frameEnc).length = 1
  | .frameDec => (encodeBytes .frameDec).length = 1
  | .frameMsgDec => (encodeBytes .frameMsgDec).length = 1
  | .reservedOp00 => (encodeBytes .reservedOp00).length = 1
  | .reservedOp13 => (encodeBytes .reservedOp13).length = 1
  | .reservedOp14to17 low => (encodeBytes (.reservedOp14to17 low)).length = 1
  | .reservedOp18to1F low => (encodeBytes (.reservedOp18to1F low)).length = 1
  | .hdrShort top size => (encodeBytes (.hdrShort top size)).length = 1
  | .hdrMedium id size => (encodeBytes (.hdrMedium id size)).length = 2
  | .hdrExtended idHigh size => (encodeBytes (.hdrExtended idHigh size)).length = 3
  | .escFlag => (encodeBytes .escFlag).length = 2
  | .escEsc => (encodeBytes .escEsc).length = 2
  | .escFlowA => (encodeBytes .escFlowA).length = 2
  | .escFlowB => (encodeBytes .escFlowB).length = 2
  | .escAny follower => (encodeBytes (.escAny follower)).length = 2
  | .literal b => (encodeBytes (.literal b)).length = 1
  | .flag => (encodeBytes .flag).length = 1
  | .frame type dst src msg crc => 9 + msg.length ≤ (encodeBytes (.frame type dst src msg crc)).length
  | .message mid region chk => (encodeBytes (.message mid region chk)).length = 2 + region.length
  | .accessCode a => (encodeBytes (.accessCode a)).length = 1
  | .statusCode c => (encodeBytes (.statusCode c)).length = 1

theorem le_escape_length (s : Bytes) : s.length ≤ (escape s).length := by
  induction s with
  | nil => exact Nat.le_refl 0
  | cons b rest ih =>
    have h : escape (b :: rest) = escapeByte b ++ escape rest := rfl
    have h1 : 1 ≤ (escapeByte b).length := by unfold escapeByte; split <;> simp
    simp only [h, List.length_append, List.length_cons]
    omega

theorem lrc : Statement .lrc := rfl
theorem lrcUpd : Statement .lrcUpd := rfl
theorem crc16 : Statement .crc16 := rfl
theorem crc16Upd : Statement .crc16Upd := rfl
theorem crc16Fin : Statement .crc16Fin := rfl
theorem hdrDec : Statement .hdrDec := rfl
theorem hdrEnc : Statement .hdrEnc := rfl
theorem regBuild : Statement .regBuild := rfl
theorem resolve : Statement .resolve := rfl
theorem cmdEnc : Statement .cmdEnc := rfl
theorem cmdDec : Statement .cmdDec := rfl
theorem msgPack : Statement .msgPack := rfl
theorem msgUnpack : Statement .msgUnpack := rfl
theorem escape : Statement .escape := rfl
theorem unescape : Statement .unescape := rfl
theorem frameEnc : Statement .frameEnc := rfl
theorem frameDec : Statement .frameDec := rfl
theorem frameMsgDec : Statement .frameMsgDec := rfl
theorem reservedOp00 : Statement .reservedOp00 := rfl
theorem reservedOp13 : Statement .reservedOp13 := rfl
theorem reservedOp14to17 (low : BitVec 2) : Statement (.reservedOp14to17 low) := rfl
theorem reservedOp18to1F (low : BitVec 3) : Statement (.reservedOp18to1F low) := rfl
theorem hdrShort (top : BitVec 3) (size : BitVec 5) : Statement (.hdrShort top size) := rfl
theorem hdrMedium (id : BitVec 5) (size : Byte) : Statement (.hdrMedium id size) := rfl
theorem hdrExtended (idHigh size : Byte) : Statement (.hdrExtended idHigh size) := rfl
theorem escFlag : Statement .escFlag := rfl
theorem escEsc : Statement .escEsc := rfl
theorem escFlowA : Statement .escFlowA := rfl
theorem escFlowB : Statement .escFlowB := rfl
theorem escAny (follower : Byte) : Statement (.escAny follower) := rfl
theorem literal (b : Byte) : Statement (.literal b) := rfl
theorem flag : Statement .flag := rfl
theorem frame (type : Byte) (dst src : Half) (msg : Bytes) (crc : Half) : Statement (.frame type dst src msg crc) := by
  have h := le_escape_length (frameBody type dst src msg ++ be16Bytes crc)
  simp only [frameBody, be16Bytes, List.length_append, List.length_cons, List.length_nil] at h
  simp only [Statement, encodeBytes, frameWire, frameBody, be16Bytes, List.length_append, List.length_cons, List.length_nil]
  omega

theorem message (mid : Byte) (region : Bytes) (chk : Byte) : Statement (.message mid region chk) := by
  simp only [Statement, encodeBytes, List.length_cons, List.length_append, List.length_nil]
  omega

theorem accessCode (a : BitVec 2) : Statement (.accessCode a) := rfl
theorem statusCode (c : Status) : Statement (.statusCode c) := rfl

end Sys2Proof.Laws.EncodedLength
end

