-- ==== Sys2Proof/Tests/Slice0.lean ====
section
/-! SUPPORT. Tests with expected values from spec/95_test_vectors.md or written out from the encoding tables of
spec/30_encoding.md, and a witness for the hypotheses of each obligation that has some. -/

-- Each theorem is checked before the next one starts: many kernel evaluations that wait for one another take a thread each.
set_option Elab.async false

namespace Sys2Proof.Tests

open Sys2Proof Sys2Proof.Machine

/-! ## Helpers -/

/-- The engine of the next state, where there is one. -/
def engineOf : Host.Outcome State Fault Refusal → Option Engine
  | .next s => some s.cur
  | _ => none

def resOf (o : Host.Outcome State Fault Refusal) : Option Results := (engineOf o).map (·.res)
def statusOf (o : Host.Outcome State Fault Refusal) : Option Status := (engineOf o).map (·.status)
def outputOf (o : Host.Outcome State Fault Refusal) : Option Bytes := (resOf o).bind (·.outputBytes)

/-- The reset state with other operands in its engine. -/
def withOpnd (o : Operands) : State := { State.reset with cur := { Engine.reset with opnd := o } }

/-- Only `IBUF` and `ILEN` written. -/
def input (b : Bytes) : Operands := { Operands.unwritten with ibuf := Memory.ofBytes b, ilen := some b.length }

def onInput (b : Bytes) : State := withOpnd (input b)

/-- After `REG_BUILD` with the empty list. -/
def running (s : State) : State := { s with phase := .run, registry := [], reg := [] }

/-- A small `BUF_MAX` and `RQ_MAX`. -/
def tight (n : Nat) (s : State) : State := { s with caps := { bufMax := some n, cqMax := some n, rqMax := some n } }

/-- The 18 message bytes of V-SRC-1. -/
def srcMessage : Bytes :=
  [0x0A, 0x13, 0x00, 0x3F, 0xE4, 0xE6, 0xF8, 0x7E, 0x34, 0x9D, 0xBA, 0xEE, 0x69, 0xDD, 0x8A, 0xB9, 0x32, 0x78]

/-- The frame of V-SRC-1 as printed. -/
def srcFrame : Bytes :=
  [0x7E, 0x50, 0xAA, 0xAA, 0xFF, 0xFF, 0x0A, 0x13, 0x00, 0x3F, 0xE4, 0xE6, 0xF8, 0x7D, 0x5E, 0x34, 0x9D, 0xBA, 0xEE,
    0x69, 0xDD, 0x8A, 0xB9, 0x32, 0x78, 0xE2, 0x26, 0x7E]

/-- The frame of V-SRC-1a. -/
def srcFrameEncoded : Bytes :=
  [0x7E, 0x50, 0xAA, 0xAA, 0xFF, 0xFF, 0x0A, 0x7D, 0x33, 0x00, 0x3F, 0xE4, 0xE6, 0xF8, 0x7D, 0x5E, 0x34, 0x9D, 0xBA,
    0xEE, 0x69, 0xDD, 0x8A, 0xB9, 0x32, 0x78, 0xE2, 0x26, 0x7E]

/-! ## WellFormed: each check refuses a term that breaks it (opcode_table.json "constraint") -/

theorem test_wf_hdrShort_refused : (Instr.hdrShort 0 5).wellFormed = false := by decide
theorem test_wf_hdrMedium_refused : (Instr.hdrMedium 0x1F 0).wellFormed = false := by decide
theorem test_wf_escAny_flag_refused : (Instr.escAny 0x5E).wellFormed = false := by decide
theorem test_wf_escAny_esc_refused : (Instr.escAny 0x5D).wellFormed = false := by decide
theorem test_wf_escAny_flowA_refused : (Instr.escAny 0x31).wellFormed = false := by decide
theorem test_wf_escAny_flowB_refused : (Instr.escAny 0x33).wellFormed = false := by decide
theorem test_wf_literal_refused : (Instr.literal 0x7D).wellFormed = false := by decide
theorem test_wf_accepted :
    (Instr.hdrShort 1 5).wellFormed ∧ (Instr.hdrMedium 0x1E 0).wellFormed ∧ (Instr.escAny 0x7D).wellFormed ∧
    (Instr.literal 0x7E).wellFormed := by decide

/-! ## Decoding: words written out from R46, R48, R50 to R52, R56 to R60, R141 -/

theorem test_decode_operations :
    decodeOp 0b00001 = .lrc ∧ decodeOp 0b00010 = .lrcUpd ∧ decodeOp 0b00011 = .crc16 ∧ decodeOp 0b00100 = .crc16Upd ∧
    decodeOp 0b00101 = .crc16Fin ∧ decodeOp 0b00110 = .hdrDec ∧ decodeOp 0b00111 = .hdrEnc ∧
    decodeOp 0b01000 = .regBuild ∧ decodeOp 0b01001 = .resolve ∧ decodeOp 0b01010 = .cmdEnc ∧
    decodeOp 0b01011 = .cmdDec ∧ decodeOp 0b01100 = .msgPack ∧ decodeOp 0b01101 = .msgUnpack ∧
    decodeOp 0b01110 = .escape ∧ decodeOp 0b01111 = .unescape ∧ decodeOp 0b10000 = .frameEnc ∧
    decodeOp 0b10001 = .frameDec ∧ decodeOp 0b10010 = .frameMsgDec := by decide

theorem test_decode_reserved :
    decodeOp 0b00000 = .reservedOp00 ∧ decodeOp 0b10011 = .reservedOp13 ∧
    decodeOp 0b10100 = .reservedOp14to17 0b00 ∧ decodeOp 0b10111 = .reservedOp14to17 0b11 ∧
    decodeOp 0b11000 = .reservedOp18to1F 0b000 ∧ decodeOp 0b11111 = .reservedOp18to1F 0b111 := by decide

theorem test_decode_headers :
    decode .header [0b001_00000] = .ok (.hdrShort 0b001 0b00000) ∧
    decode .header [0b111_11111] = .ok (.hdrShort 0b111 0b11111) ∧
    decode .header [0b000_00111, 0b00000010] = .ok (.hdrMedium 0b00111 0b00000010) ∧
    decode .header [0b00011111, 0b00000001, 0b00010000] = .ok (.hdrExtended 0b00000001 0b00010000) := by
  refine ⟨?_, ?_, ?_, ?_⟩ <;> rfl

theorem test_decode_header_rejections :
    decode .header [] = .error .emptyItem ∧ decode .header [0x00] = .error .truncatedItem ∧
    decode .header [0x1F, 0x01] = .error .truncatedItem ∧ decode .header [0x20, 0x01] = .error .trailingBytes := by
  refine ⟨?_, ?_, ?_, ?_⟩ <;> rfl

theorem test_decode_escape_items :
    decode .escapeItem [0b01111101, 0b01011110] = .ok .escFlag ∧
    decode .escapeItem [0b01111101, 0b01011101] = .ok .escEsc ∧
    decode .escapeItem [0b01111101, 0b00110001] = .ok .escFlowA ∧
    decode .escapeItem [0b01111101, 0b00110011] = .ok .escFlowB ∧
    decode .escapeItem [0b01111101, 0b00000000] = .ok (.escAny 0b00000000) ∧
    decode .escapeItem [0b00010010] = .ok (.literal 0b00010010) ∧
    decode .escapeItem [0b01111101] = .error .truncatedItem := by
  refine ⟨?_, ?_, ?_, ?_, ?_, ?_, ?_⟩ <;> rfl

theorem test_decode_delimiter :
    decode .delimiter [0b01111110] = .ok .flag ∧ decode .delimiter [0b01111101] = .error .notADelimiter := by
  refine ⟨?_, ?_⟩ <;> rfl

/-- The minimum frame of V-FRM-2, and the two bytes of one message, written out. -/
theorem test_decode_frame_message :
    decode .frame [0b01111110, 0x50, 0x00, 0x00, 0x00, 0x00, 0x15, 0xBA, 0b01111110] = .ok (.frame 0x50 0 0 [] 0x15BA) ∧
    decode .message [0x01, 0x54] = .ok (.message 0x01 [] 0x54) ∧ decode .message [0x01] = .error .notAMessage := by
  refine ⟨?_, ?_, ?_⟩ <;> rfl

theorem test_decode_enumerations :
    decode .access [0b10] = .ok (.accessCode 2) ∧ decode .access [0b100] = .error .notAnAccessCode ∧
    decode .status [0b0000] = .ok (.statusCode .ok) ∧
    decode .status [0b1010] = .ok (.statusCode (.error .capacityExceeded)) ∧
    decode .status [0b1011] = .error .notAStatusCode := by
  refine ⟨?_, ?_, ?_, ?_, ?_⟩ <;> rfl

/-! ## Table words (log 8): each row's fixed bits decode to its constructor and run as the first step after reset -/

/-- The table word decodes to the instruction, and step runs it to a next state from reset. -/
def tableRuns (nbits w : Nat) (i : Instr) : Bool :=
  decide (decodeTableWord nbits w = some i) && (engineOf (step (State.reset.withFetchWord nbits w))).isSome

theorem test_table_operations :
    [Instr.reservedOp00, .lrc, .lrcUpd, .crc16, .crc16Upd, .crc16Fin, .hdrDec, .hdrEnc, .regBuild, .resolve, .cmdEnc,
      .cmdDec, .msgPack, .msgUnpack, .escape, .unescape, .frameEnc, .frameDec, .frameMsgDec, .reservedOp13,
      .reservedOp14to17 0].zipIdx.all (fun p => tableRuns 8 p.2 p.1 && tableRuns 5 p.2 p.1) = true := by
  decide +kernel

theorem test_table_items :
    tableRuns 8 0x18 (.reservedOp18to1F 0) ∧ tableRuns 8 0x20 (.hdrShort 1 0) ∧ tableRuns 16 0x0702 (.hdrMedium 7 2) ∧
    tableRuns 24 0x10011F (.hdrExtended 1 0x10) ∧ tableRuns 8 0x1F (.hdrExtended 0 0) ∧ tableRuns 16 0x7D5E .escFlag ∧
    tableRuns 16 0x7D5D .escEsc ∧ tableRuns 16 0x7D31 .escFlowA ∧ tableRuns 16 0x7D33 .escFlowB ∧
    tableRuns 16 0x7D00 (.escAny 0) ∧ tableRuns 8 0x7E .flag ∧ tableRuns 2 3 (.accessCode 3) ∧
    tableRuns 4 6 (.statusCode (.error .frameCrcMismatch)) := by
  decide +kernel

/-! ## Operations: the vectors of spec/95_test_vectors.md -/

/-- V-CRC-7, the source vector, and V-CRC-1. -/
theorem test_crc16 :
    (resOf (exec .crc16 (onInput ([0x50, 0xAA, 0xAA, 0xFF, 0xFF] ++ srcMessage)))).bind (·.crc) = some 0xE226 ∧
    (resOf (exec .crc16 (onInput []))).bind (·.crc) = some 0 := by decide +kernel

/-- V-CRC-10. -/
theorem test_crc16Upd :
    (resOf (exec .crc16Upd (withOpnd { input [0x50, 0xAA, 0xAA, 0xFF, 0xFF] with accin := some 0xFFFF }))).bind
      (·.accout) = some 0xB76C := by decide +kernel

/-- V-CRC-14. -/
theorem test_crc16Fin :
    (resOf (exec .crc16Fin (withOpnd { Operands.unwritten with accin := some 0xD91D }))).bind (·.crc) = some 0xE226 := by
  decide +kernel

/-- V-LRC-7 and V-LRC-1. -/
theorem test_lrc :
    (resOf (exec .lrc (onInput [0x0A, 0x22, 0x01, 0x02, 0x07, 0x02, 0xAA, 0xBB]))).bind (·.lrc) = some 0x6A ∧
    (resOf (exec .lrc (onInput []))).bind (·.lrc) = some 0x55 := by decide +kernel

/-- V-LRC-8 and V-LRC-11. -/
theorem test_lrcUpd :
    (resOf (exec .lrcUpd (withOpnd { input [0x0A, 0x22] with accin := some 0x0055 }))).bind (·.accout) = some 0x007D ∧
    (resOf (exec .lrcUpd (withOpnd { input [] with accin := some 0xAB55 }))).bind (·.accout) = some 0x0055 := by
  decide +kernel

/-- V-HDR-12, V-HDR-10 and V-HDR-5. -/
theorem test_hdrDec :
    (resOf (exec .hdrDec (onInput [0x1F, 0x01, 0x10]))).map (fun r => (r.hsize, r.rcmdid, r.rcmdsize)) =
      some (some 3, some 0x011F, some 16) ∧
    (resOf (exec .hdrDec (onInput [0x07, 0x02, 0xAA, 0xBB]))).map (fun r => (r.hsize, r.rcmdid, r.rcmdsize)) =
      some (some 2, some 0x0007, some 2) ∧
    (resOf (exec .hdrDec (onInput [0xFF]))).map (fun r => (r.hsize, r.rcmdid, r.rcmdsize)) =
      some (some 1, some 0x00E0, some 31) := by decide +kernel

/-- V-HDR-1, V-HDR-7, V-HDR-11. -/
theorem test_hdrDec_errors :
    statusOf (exec .hdrDec (onInput [])) = some (.error .emptyBuffer) ∧
    statusOf (exec .hdrDec (onInput [0x1E])) = some (.error .bufferTooShort) ∧
    statusOf (exec .hdrDec (onInput [0x1F, 0x01])) = some (.error .bufferTooShort) := by decide +kernel

/-- The operands of `HDR_ENC`. -/
def header (id : Half) (size : Byte) : State :=
  withOpnd { Operands.unwritten with cmdid := some id, cmdsize := some size }

/-- V-HDR-15 to V-HDR-18. -/
theorem test_hdrEnc :
    outputOf (exec .hdrEnc (header 0x0060 1)) = some [0x61] ∧ outputOf (exec .hdrEnc (header 0x001E 255)) = some [0x1E, 0xFF] ∧
    outputOf (exec .hdrEnc (header 0xFF1F 0)) = some [0x1F, 0xFF, 0x00] := by decide +kernel

/-- V-HDR-15 and V-HDR-19. -/
theorem test_hdrEnc_errors :
    statusOf (exec .hdrEnc (header 0x0020 32)) = some (.error .invalidCommand) ∧
    statusOf (exec .hdrEnc (header 0x0120 1)) = some (.error .invalidCommand) := by decide +kernel

/-- The `REGISTRY` list `T` with codec references 0 for `RAW` and 1 for `PAIR`. -/
def registryT : List RegEntry := [⟨0x0020, ⟨0⟩⟩, ⟨0x0007, ⟨0⟩⟩, ⟨0x011F, ⟨0⟩⟩, ⟨0x0040, ⟨1⟩⟩]

/-- The block of program P1 after step 1, with operands. -/
def built (o : Operands) : State :=
  { withOpnd o with phase := .run, registry := registryT, reg := regOfList registryT }

/-- P1 step 1, and P4 step 4. -/
theorem test_regBuild :
    exec .regBuild { State.reset with registry := registryT } =
      .next { State.reset with registry := registryT, reg := regOfList registryT, phase := .run } ∧
    statusOf (exec .regBuild (built Operands.unwritten)) = some (.error .illegalOperation) := by
  refine ⟨rfl, by decide +kernel⟩

/-- 42_registry.md R98: straight after reset, with the empty list. -/
theorem test_regBuild_empty :
    exec .regBuild State.reset = .next { State.reset with phase := .run } := rfl

/-- 42_registry.md R98: two entries with one id. -/
theorem test_regBuild_duplicate :
    statusOf (exec .regBuild { State.reset with registry := registryT ++ [⟨0x0007, ⟨1⟩⟩] }) =
      some (.error .badOperand) := by decide +kernel

/-- V-MSG-18. -/
theorem test_resolve :
    (resOf (exec .resolve (built { Operands.unwritten with cmdid := some 0x011F }))).bind (·.found) = some 1 ∧
    statusOf (exec .resolve (built { Operands.unwritten with cmdid := some 0x0021 })) = some (.error .unknownCommand) := by
  decide +kernel

/-- The error of R100 for an id that is not registered. -/
theorem test_cmdEnc_unknown :
    statusOf (exec .cmdEnc (built { Operands.unwritten with cmdid := some 0x0060 })) = some (.error .unknownCommand) := by
  decide +kernel

/-- V-MSG-17, its unknown id, and R101's size test. -/
theorem test_cmdDec :
    (resOf (exec .cmdDec (built { input [0x09] with cmdid := some 0x0060 }))).bind (·.rq) =
      some [.invalid [0x09] (.unknownCommand 0x0060)] ∧
    statusOf (exec .cmdDec (built { Operands.unwritten with ilen := some 256 })) = some (.error .badOperand) := by
  decide +kernel

/-- The command queue of P1 step 4. -/
def queueP1 : List Command := [⟨0x0020, [0x01, 0x02]⟩, ⟨0x0007, [0xAA, 0xBB]⟩]

/-- The operands of `MSG_PACK`. -/
def packing (cq : List Command) : Operands :=
  { Operands.unwritten with msgid := some 0x0A, access := some 0, keyv := some 0, cq := some cq }

/-- P1 step 4, and a body without a header (R109 with V-HDR-19). -/
theorem test_msgPack :
    outputOf (exec .msgPack (withOpnd (packing queueP1))) = some [0x0A, 0x22, 0x01, 0x02, 0x07, 0x02, 0xAA, 0xBB, 0x6A] ∧
    statusOf (exec .msgPack (withOpnd (packing [⟨0x0100, []⟩]))) = some (.error .invalidCommand) := by decide +kernel

/-- The operands of `MSG_UNPACK` and `FRAME_MSG_DEC`. -/
def unpacking (b : Bytes) : State := built { input b with access := some 0, keyv := some 0 }

/-- P4 step 5, and V-SRC-6 in a block with the empty registry. -/
theorem test_msgUnpack :
    resOf (exec .msgUnpack (unpacking [0x01, 0x54])) =
      some { Results.invalid with rmsgid := some 1, raccess := some 0, rchk := some 0x54, rq := some [] } ∧
    (resOf (exec .msgUnpack (running (unpacking [0x02, 0x61, 0x09, 0x22, 0x01, 0x02, 0x1E])))).bind (·.rq) =
      some [.invalid [0x61, 0x09] (.unknownCommand 0x0060), .invalid [0x22, 0x01, 0x02] (.unknownCommand 0x0020)] := by
  decide +kernel

/-- V-ESC-1 and V-ESC-4. -/
theorem test_escape :
    outputOf (exec .escape (onInput [0x13, 0x11, 0x12, 0x91, 0x7E, 0x7D])) =
      some [0x7D, 0x33, 0x7D, 0x31, 0x12, 0x91, 0x7D, 0x5E, 0x7D, 0x5D] ∧
    (resOf (exec .escape (onInput ((List.range 256).map (BitVec.ofNat 8))))).bind (·.olen) = some 260 := by
  decide +kernel

/-- V-ESC-6 and V-ESC-5. -/
theorem test_unescape :
    outputOf (exec .unescape (onInput [0x7D, 0x7D, 0x5D])) = some [0x5D, 0x5D] ∧
    statusOf (exec .unescape (onInput [0x41, 0x7D])) = some (.error .truncatedFrame) := by decide +kernel

/-- The operands of `FRAME_ENC`. -/
def framing (ty : Byte) (d c : Half) (msg : Bytes) : State :=
  withOpnd { input msg with ftype := some ty, dst := some d, src := some c }

/-- V-SRC-1a and V-FRM-4. -/
theorem test_frameEnc :
    outputOf (exec .frameEnc (framing 0x50 0xAAAA 0xFFFF srcMessage)) = some srcFrameEncoded ∧
    outputOf (exec .frameEnc (framing 0x50 1 2 [0x03])) =
      some [0x7E, 0x50, 0x00, 0x01, 0x00, 0x02, 0x03, 0x7D, 0x5E, 0xAA, 0x7E] := by decide +kernel

/-- V-SRC-1b. -/
theorem test_frameDec :
    resOf (exec .frameDec (onInput srcFrame)) =
      some { Results.ofOutput srcMessage with
        rtype := some 0x50, rdst := some 0xAAAA, rsrc := some 0xFFFF, rcrc := some 0xE226 } := by decide +kernel

/-- V-SRC-3 and P4 step 6. -/
theorem test_frameDec_errors :
    statusOf (exec .frameDec (onInput [0x7E, 0x50, 0x7E])) = some (.error .truncatedFrame) ∧
    statusOf (exec .frameDec (onInput [0x7E, 0x50, 0x01, 0x00, 0x00, 0x00, 0x15, 0xBA, 0x7E])) =
      some (.error .frameCrcMismatch) := by decide +kernel

/-- P2 step 1, in a block with the empty registry, so that its second command is unregistered too. -/
theorem test_frameMsgDec :
    resOf (exec .frameMsgDec (running (unpacking
      [0x7E, 0x51, 0x12, 0x34, 0x00, 0x7D, 0x31, 0x02, 0x61, 0x09, 0x22, 0x01, 0x02, 0x1E, 0x1B, 0xAA, 0x7E]))) =
      some { Results.ofOutput [0x02, 0x61, 0x09, 0x22, 0x01, 0x02, 0x1E] with
        rtype := some 0x51, rdst := some 0x1234, rsrc := some 0x0011, rcrc := some 0x1BAA,
        rmsgid := some 0x02, raccess := some 0, rchk := some 0x1E,
        rq := some [.invalid [0x61, 0x09] (.unknownCommand 0x0060),
          .invalid [0x22, 0x01, 0x02] (.unknownCommand 0x0020)] } := by decide +kernel

/-- V-FM-7 and V-FM-9. -/
theorem test_frameMsgDec_errors :
    statusOf (exec .frameMsgDec (unpacking
      [0x7E, 0x50, 0xAA, 0xAA, 0xFF, 0xFF, 0x0A, 0x22, 0x01, 0x03, 0x07, 0x02, 0xAA, 0xBB, 0x6A, 0x74, 0xB9, 0x7E])) =
      some (.error .checksumMismatch) ∧
    statusOf (exec .frameMsgDec (unpacking [0x7E, 0x50, 0x00, 0x00, 0x00, 0x00, 0x15, 0xBA, 0x7E])) =
      some (.error .bufferTooShort) := by decide +kernel

/-- R48 and P4 step 2. -/
theorem test_reserved :
    statusOf (exec .reservedOp00 State.reset) = some (.error .illegalOperation) ∧
    statusOf (exec (.reservedOp18to1F 7) State.reset) = some (.error .illegalOperation) := by decide +kernel

/-- V-HDR-2, V-HDR-9, V-HDR-14 as items. -/
theorem test_header_items :
    (resOf (exec (.hdrShort 1 0) State.reset)).map (fun r => (r.hsize, r.rcmdid, r.rcmdsize)) =
      some (some 1, some 0x0020, some 0) ∧
    (resOf (exec (.hdrMedium 0x1E 255) State.reset)).map (fun r => (r.hsize, r.rcmdid, r.rcmdsize)) =
      some (some 2, some 0x001E, some 255) ∧
    (resOf (exec (.hdrExtended 0xFF 0) State.reset)).map (fun r => (r.hsize, r.rcmdid, r.rcmdsize)) =
      some (some 3, some 0xFF1F, some 0) := by decide +kernel

/-- R59 and V-ESC-6, V-ESC-7 as items. -/
theorem test_escape_items :
    outputOf (exec .escFlag State.reset) = some [0x7E] ∧ outputOf (exec .escEsc State.reset) = some [0x7D] ∧
    outputOf (exec .escFlowA State.reset) = some [0x11] ∧ outputOf (exec .escFlowB State.reset) = some [0x13] ∧
    outputOf (exec (.escAny 0x7E) State.reset) = some [0x5E] ∧ outputOf (exec (.literal 0x11) State.reset) = some [0x11] := by
  decide +kernel

/-- V-FRM-2, and R129 for a lone delimiter. -/
theorem test_frame_item :
    (resOf (exec (.frame 0x50 0 0 [] 0x15BA) State.reset)).bind (·.rcrc) = some 0x15BA ∧
    statusOf (exec .flag State.reset) = some (.error .truncatedFrame) := by decide +kernel

/-- V-MSG-3's shape as an item: an empty region. -/
theorem test_message_item :
    (resOf (exec (.message 0x01 [] 0x54) (unpacking []))).bind (·.rq) = some [] := by decide +kernel

/-! ## Steps -/

/-- P3 step 1 as moves of the host, and what the host then reads. -/
theorem test_step_moves :
    ∃ t, Host.Core.run Sys2Proof.core 4 { State.reset with pending :=
        [.write (.accin 0xFFFF), .write (.ibuf [0x50, 0xAA, 0xAA, 0xFF, 0xFF]), .issue 0x04, .read .accout] } = .next t ∧
      t.cur.res.accout = some 0xB76C ∧ t.pending = [] := by
  refine ⟨_, rfl, ?_, ?_⟩ <;> decide +kernel

/-- An operand no one has written is a fault (R14(e)), and so is a read of a result that holds no value. -/
theorem test_step_faults :
    step { State.reset with pending := [.issue 0x03] } = .fault (.noValue .ilen) ∧
    exec .msgPack (withOpnd { packing [] with keyv := none }) = .fault (.noValue .keyv) ∧
    step { State.reset with pending := [.read .crc] } = .fault (.noValue .crc) ∧
    step { State.reset with pending := [.read .accin] } = .fault (.notReadable .accin) ∧
    step { State.reset with pending := [.select 1] } = .fault (.noEngine 1) := ⟨rfl, rfl, rfl, rfl, rfl⟩

/-! ## Witnesses: a state and operands that meet the hypotheses of each clause of each obligation that has some -/

/-- Operands with everything written. -/
def allWritten : Operands :=
  { accin := some 0, cmdid := some 0x0020, cmdsize := some 0, msgid := some 0, access := some 0, keyv := some 0,
    key := some 0, ftype := some 0, dst := some 0, src := some 0, pin := some ⟨0⟩, ibuf := Memory.ofBytes [0x20],
    ilen := some 1, cq := some [] }

theorem hyp_ChecksumsAreIncremental :
    (∃ t1 t2 t3 t4,
      exec .crc16Upd (withOpnd { input [0x50, 0xAA, 0xAA, 0xFF, 0xFF] with accin := some 0xFFFF }) = .next t1 ∧
      t1.cur.res.accout = some 0xB76C ∧
      exec .crc16Upd (withOpnd { input [0x0A, 0x13, 0x00, 0x3F, 0xE4, 0xE6, 0xF8] with accin := some 0xB76C }) = .next t2 ∧
      t2.cur.res.accout = some 0x3E63 ∧
      exec .crc16Fin (withOpnd { Operands.unwritten with accin := some 0x3E63 }) = .next t3 ∧
      exec .crc16 (onInput ([0x50, 0xAA, 0xAA, 0xFF, 0xFF] ++ [0x0A, 0x13, 0x00, 0x3F, 0xE4, 0xE6, 0xF8])) = .next t4) ∧
    (∃ t1 t2 t3,
      exec .lrcUpd (withOpnd { input [0x0A, 0x22] with accin := some 0x0055 }) = .next t1 ∧ t1.cur.res.accout = some 0x007D ∧
      exec .lrcUpd (withOpnd { input [0x01, 0x02, 0x07] with accin := some 0x007D }) = .next t2 ∧
      exec .lrc (onInput ([0x0A, 0x22] ++ [0x01, 0x02, 0x07])) = .next t3) :=
  ⟨⟨_, _, _, _, rfl, by decide +kernel, rfl, by decide +kernel, rfl, rfl⟩, ⟨_, _, _, rfl, by decide +kernel, rfl, rfl⟩⟩

theorem hyp_CrcOperationsComplete :
    (onInput []).cur.opnd.inputBytes = some [] ∧ (withOpnd allWritten).cur.opnd.accin = some 0 ∧
    (withOpnd allWritten).cur.opnd.inputBytes = some [0x20] := by decide +kernel

theorem hyp_LrcOperationsComplete :
    (onInput []).cur.opnd.inputBytes = some [] ∧ (withOpnd allWritten).cur.opnd.accin = some 0 ∧
    (withOpnd allWritten).cur.opnd.inputBytes = some [0x20] := by decide +kernel

/-- Any input can be there; a first byte for each form, at both ends of its range. -/
theorem hyp_HdrDecOutcome :
    (∀ b, (onInput b).cur.opnd.inputBytes = some b) ∧
    (0x20#8 &&& 0xE0 ≠ 0 ∧ 0xFF#8 &&& 0xE0 ≠ 0 ∧ 0x00#8 &&& 0xE0 = 0 ∧ 0x1E#8 &&& 0xE0 = 0 ∧ 0x1E#8 ≠ 0x1F) :=
  ⟨readSeq_ofBytes, by decide⟩

/-- Any id and size can be there; room for exactly the header of each form; an id for each form, at the ends of its range, and
one with none. -/
theorem hyp_HdrEncOutcome :
    (∀ n id size, (tight n (header id size)).cur.opnd.cmdid = some id ∧
      (tight n (header id size)).cur.opnd.cmdsize = some size) ∧
    (∀ n, n ≤ 3 → withinCap (tight n (header 0 0)).caps.bufMax n = true) ∧
    (0x20#16 ∈ [0x20#16, 0x40#16, 0x60#16, 0x80#16, 0xA0#16, 0xC0#16, 0xE0#16] ∧
      0x21#16 ∉ [0x20#16, 0x40#16, 0x60#16, 0x80#16, 0xA0#16, 0xC0#16, 0xE0#16] ∧
      (0xFF1F#16).extractLsb' 0 8 = 0x1F#8 ∧ (0x21#16).extractLsb' 0 8 ≠ 0x1F#8 ∧ (0x1E#16).toNat ≤ 0x1E ∧
      0x1E < (0x21#16).toNat ∧ (31#8).toNat ≤ 31 ∧ 31 < (32#8).toNat) :=
  ⟨fun _ _ _ => ⟨rfl, rfl⟩, fun n _ => by simp [tight, withinCap], by decide +kernel⟩

theorem hyp_HeaderRoundTripsBothWays :
    (∃ w, hdrEnc 0x011F 16 = .ok w) ∧ (∃ h, hdrDec [0x61, 0x09] = .ok h) := ⟨⟨_, rfl⟩, ⟨_, rfl⟩⟩

theorem hyp_RegBuildOutcome :
    (built allWritten).phase = .run ∧
    (State.reset.phase = .build ∧ ¬ (([⟨7, ⟨0⟩⟩, ⟨7, ⟨1⟩⟩] : List RegEntry).map RegEntry.id).Nodup) ∧
    ({ State.reset with registry := registryT }.phase = .build ∧ (registryT.map RegEntry.id).Nodup) ∧
    (State.reset.registry.map RegEntry.id).Nodup := by
  decide +kernel

theorem hyp_ResolveOutcome :
    State.reset.phase = .build ∧ (built allWritten).phase = .run ∧ (built allWritten).cur.opnd.cmdid = some 0x0020 ∧
    regLookup (built allWritten).reg 0x0020 = some ⟨0⟩ ∧ regLookup (running (built allWritten)).reg 0x0020 = none := by
  decide +kernel

/-- The codec is any function (U12), so one of the three last clauses applies, and which one nobody can say. -/
theorem hyp_CmdEncOutcome :
    (built allWritten).phase = .run ∧ (built allWritten).cur.opnd.cmdid = some 0x0020 ∧
    regLookup (running (built allWritten)).reg 0x0020 = none ∧
    regLookup (built allWritten).reg 0x0020 = some ⟨0⟩ ∧ (built allWritten).cur.opnd.pin = some ⟨0⟩ ∧
    (255 < (Config.codecEncode ⟨0⟩ ⟨0⟩).length ∨
      ((Config.codecEncode ⟨0⟩ ⟨0⟩).length ≤ 255 ∧
        (withinCap (some 0) (Config.codecEncode ⟨0⟩ ⟨0⟩).length = false ∨
          withinCap (some 0) (Config.codecEncode ⟨0⟩ ⟨0⟩).length = true))) := by
  refine ⟨rfl, rfl, rfl, rfl, rfl, ?_⟩
  cases h : withinCap (some 0) (Config.codecEncode ⟨0⟩ ⟨0⟩).length <;> simp <;> omega

/-- The codec is any function (U12), so one of the two last clauses applies. -/
theorem hyp_CmdDecOutcome :
    State.reset.phase = .build ∧ (running (withOpnd { Operands.unwritten with ilen := some 256 })).cur.opnd.ilen = some 256 ∧
    (tight 1 (running (withOpnd { input (List.replicate 255 0) with cmdid := some 0x0020 }))).cur.opnd.inputBytes =
      some (List.replicate 255 0) ∧
    (tight 1 (built allWritten)).caps.rqMax ≠ some 0 ∧ (tight 1 (built allWritten)).cur.opnd.inputBytes = some [0x20] ∧
    regLookup (running (built allWritten)).reg 0x0020 = none ∧ regLookup (built allWritten).reg 0x0020 = some ⟨0⟩ ∧
    (Config.codecDecode ⟨0⟩ [0x20] = none ∨ ∃ p, Config.codecDecode ⟨0⟩ [0x20] = some p) := by
  refine ⟨rfl, rfl, by decide +kernel, by decide +kernel, by decide +kernel, rfl, rfl, ?_⟩
  cases Config.codecDecode ⟨0⟩ [0x20] <;> simp

theorem hyp_ResultsThatDoNotFitAreRefused :
    hdrEnc 0x011F 16 = .ok [0x1F, 0x01, 0x10] ∧ withinCap (tight 2 (header 0x011F 16)).caps.bufMax 3 = false ∧
    (tight 0 (built allWritten)).caps.rqMax = some 0 ∧ (tight 0 (built allWritten)).cur.opnd.inputBytes = some [0x20] :=
  ⟨rfl, rfl, rfl, rfl⟩

theorem hyp_LookupsNeedTheRegistry :
    State.reset.phase = .build ∧ ∃ t, exec .msgPack (withOpnd (packing queueP1)) = .next t := ⟨rfl, ⟨_, rfl⟩⟩

theorem hyp_PackingConcatenatesHeadersAndBodies : packCommands [⟨0x0100, []⟩] = .error .invalidCommand := rfl

/-- Level 3; levels 1 and 2 without a key; a queue without a header; room for exactly the message and for one byte less; a
level that encrypts, with a key. -/
theorem hyp_MsgPackOutcome :
    (withOpnd { allWritten with access := some 3 }).cur.opnd.access = some 3 ∧
    (withOpnd { allWritten with access := some 2 }).cur.opnd.keyv = some 0 ∧
    packCommands [⟨0x0100, []⟩] = .error .invalidCommand ∧
    (packCommands queueP1 = .ok [0x22, 0x01, 0x02, 0x07, 0x02, 0xAA, 0xBB] ∧
      (withOpnd (packing queueP1)).cur.opnd.cq = some queueP1 ∧ (withOpnd (packing queueP1)).cur.opnd.msgid = some 0x0A ∧
      (withOpnd (packing queueP1)).cur.opnd.keyv = some 0 ∧
      withinCap (tight 9 (withOpnd (packing queueP1))).caps.bufMax 9 = true ∧
      withinCap (tight 8 (withOpnd (packing queueP1))).caps.bufMax 9 = false) ∧
    ((withOpnd { allWritten with access := some 1, keyv := some 1 }).cur.opnd.key = some 0 ∧ packCommands [] = .ok []) :=
  ⟨rfl, rfl, rfl, ⟨rfl, rfl, rfl, rfl, rfl, rfl⟩, ⟨rfl, rfl⟩⟩

theorem hyp_PackedMessageLength :
    ∃ t, exec .msgPack (withOpnd (packing queueP1)) = .next t ∧ t.cur.res.olen = some 9 ∧
      (withOpnd (packing queueP1)).cur.opnd.access = some 0 ∧ (withOpnd (packing queueP1)).cur.opnd.cq = some queueP1 :=
  ⟨_, rfl, by decide +kernel, rfl, rfl⟩

/-- The wrong checksum; one command and room for none, then for one; and with a key, whatever the cipher. -/
theorem hyp_MsgUnpackOutcome :
    (running (withOpnd { allWritten with access := some 3 })).cur.opnd.access = some 3 ∧
    ((unpacking [0x01]).cur.opnd.inputBytes = some [0x01] ∧ (unpacking [0x01]).cur.opnd.keyv = some 0) ∧
    ((unpacking [0x01, 0x55]).cur.opnd.inputBytes = some ([0x01] ++ [] ++ [0x55]) ∧
      computeBlockParity Config.lrc [0x01] ≠ 0x55) ∧
    ((unpacking [0x01, 0x20, 0x74]).cur.opnd.inputBytes = some ([0x01] ++ [0x20] ++ [0x74]) ∧
      computeBlockParity Config.lrc [0x01, 0x20] = 0x74 ∧
      withinCap (tight 0 (running (unpacking []))).caps.rqMax (unpackCommands [] [0x20]).length = false ∧
      withinCap (tight 1 (running (unpacking []))).caps.rqMax (unpackCommands [] [0x20]).length = true) ∧
    (∃ (chk : Byte) (s : State), s.phase = .run ∧ s.cur.opnd.access = some 1 ∧ s.cur.opnd.keyv = some 1 ∧
      s.cur.opnd.key = some 0 ∧ s.cur.opnd.inputBytes = some ([0x01] ++ [0x20] ++ [chk]) ∧
      computeBlockParity Config.lrc (0x01#8 :: Config.cipherDec 0 [0x20]) = chk) :=
  ⟨rfl, by decide +kernel, ⟨by decide +kernel, by decide⟩,
    ⟨by decide +kernel, by decide, by decide +kernel, by decide +kernel⟩,
    ⟨_, running (withOpnd { input ([0x01] ++ [0x20] ++ [_]) with access := some 1, keyv := some 1, key := some 0 }),
      rfl, rfl, rfl, rfl, readSeq_ofBytes _, rfl⟩⟩

theorem hyp_UnpackWalksTheRegion :
    hdrDec [0x00] = .error .bufferTooShort ∧
    hdrDec [0x22, 0x01] = .ok { headerSize := 1, commandId := 0x0020, commandSize := 2 } ∧
    hdrDec [0x22, 0x01, 0x02] = .ok { headerSize := 1, commandId := 0x0020, commandSize := 2 } := ⟨rfl, rfl, rfl⟩

/-- A body of one byte, and one of the longest length. -/
theorem hyp_CommandsAreIsolated :
    hdrEnc 0x0060 1 = .ok [0x61] ∧ (List.replicate 255 0#8).length ≤ 255 ∧
    hdrEnc 0x0007 (BitVec.ofNat 8 (List.replicate 255 0#8).length) = .ok [0x07, 0xFF] ∧ regLookup [] 0x0060 = none := by
  refine ⟨rfl, by decide +kernel, ?_, rfl⟩; rw [List.length_replicate]; rfl

theorem hyp_MessageRoundTrip :
    ∃ t, exec .msgPack (withOpnd (packing queueP1)) = .next t ∧ t.cur.status = .ok ∧
      t.cur.res.outputBytes = some [0x0A, 0x22, 0x01, 0x02, 0x07, 0x02, 0xAA, 0xBB, 0x6A] ∧
      (unpacking [0x0A, 0x22, 0x01, 0x02, 0x07, 0x02, 0xAA, 0xBB, 0x6A]).cur.opnd.inputBytes =
        some [0x0A, 0x22, 0x01, 0x02, 0x07, 0x02, 0xAA, 0xBB, 0x6A] ∧
      (unpacking [0x0A, 0x22, 0x01, 0x02, 0x07, 0x02, 0xAA, 0xBB, 0x6A]).caps.rqMax = none ∧
      (unpacking [0x0A, 0x22, 0x01, 0x02, 0x07, 0x02, 0xAA, 0xBB, 0x6A]).cur.opnd.keyv = some 0 ∧
      packMessage Config.lrc (withOpnd (packing queueP1)) = .ok t.cur.res :=
  ⟨_, rfl, rfl, by decide +kernel, by decide +kernel, rfl, rfl, rfl⟩

theorem hyp_EscapeOperationsComplete :
    (onInput [0x7E]).cur.opnd.inputBytes = some [0x7E] ∧ withinCap (tight 2 (onInput [0x7E])).caps.bufMax 2 = true ∧
    withinCap (tight 1 (onInput [0x7E])).caps.bufMax 2 = false ∧ unescape [0x7D, 0x5E] = .ok [0x7E] ∧
    unescape [0x7D] = .error .truncatedFrame := ⟨rfl, rfl, rfl, rfl, rfl⟩

theorem hyp_UnescapeFollowsTheStateMachine : (0x7E#8 : Byte) ≠ 0x7D := by decide

theorem hyp_UnescapeInvertsEscape :
    ∃ t, exec .escape (onInput [0x7E]) = .next t ∧ t.cur.res.outputBytes = some [0x7D, 0x5E] ∧
      (onInput [0x7D, 0x5E]).cur.opnd.inputBytes = some [0x7D, 0x5E] := ⟨_, rfl, rfl, rfl⟩

theorem hyp_EscapedBytesAreClean : escape [0x7D] = [] ++ 0x7D#8 :: [0x5D] := rfl

/-- The minimum frame of V-FRM-1, and room for exactly it and for one byte less. -/
theorem hyp_FrameEncOutcome :
    (framing 0x50 0 0 []).cur.opnd.inputBytes = some [] ∧ (framing 0x50 0 0 []).cur.opnd.ftype = some 0x50 ∧
    (frameEnc Config.crc 0x50 0 0 []).length = 9 ∧ withinCap (tight 9 (framing 0x50 0 0 [])).caps.bufMax 9 = true ∧
    withinCap (tight 8 (framing 0x50 0 0 [])).caps.bufMax 9 = false := by decide +kernel

/-- No delimiters; a trailing escape; six interior bytes; seven, with the right and a wrong CRC field. -/
theorem hyp_FrameDecOutcome :
    (onInput [0x7E]).cur.opnd.inputBytes = some [0x7E] ∧ (¬ ∃ inner, [0x7E#8] = [0x7E#8] ++ inner ++ [0x7E#8]) ∧
    unescape [0x7D] = .error .truncatedFrame ∧ unescape [0, 0, 0, 0, 0, 0] = .ok [0, 0, 0, 0, 0, 0] ∧
    unescape [0x50, 0, 0, 0, 0, 0x15, 0xBA] = .ok ([0x50, 0, 0, 0, 0] ++ [] ++ [0x15, 0xBA]) ∧
    computeFrameCrc Config.crc ([0x50, 0, 0, 0, 0] ++ []) = 0x15BA ∧
    computeFrameCrc Config.crc ([0x50, 1, 0, 0, 0] ++ []) ≠ 0x15BA := by
  refine ⟨by decide +kernel, ?_, rfl, rfl, rfl, by decide +kernel, by decide +kernel⟩
  rintro ⟨inner, h⟩
  simpa using congrArg List.length h

theorem hyp_FrameMsgDecOutcome :
    State.reset.phase = .build ∧ (running (withOpnd { allWritten with access := some 3 })).cur.opnd.access = some 3 ∧
    frameDec Config.crc [0x7E, 0x50, 0x7E] = .error .truncatedFrame ∧
    frameDec Config.crc [0x7E, 0x50, 0x00, 0x00, 0x00, 0x00, 0x15, 0xBA, 0x7E] =
      .ok { type := 0x50, dst := 0, src := 0, msg := [], crc := 0x15BA } ∧
    msgUnpack Config.lrc (unpacking []) (.ok []) = .error (.raise .bufferTooShort) ∧
    (∃ m, msgUnpack Config.lrc (unpacking []) (.ok [0x01, 0x54]) = .ok m) ∧ (unpacking []).cur.opnd.keyv ≠ none :=
  ⟨rfl, rfl, rfl, by decide +kernel, rfl, ⟨_, rfl⟩, by decide +kernel⟩

theorem hyp_FrameRoundTrip :
    ∃ t, exec .frameEnc (framing 0x50 0 0 []) = .next t ∧
      t.cur.res.outputBytes = some [0x7E, 0x50, 0x00, 0x00, 0x00, 0x00, 0x15, 0xBA, 0x7E] ∧
      (onInput [0x7E, 0x50, 0x00, 0x00, 0x00, 0x00, 0x15, 0xBA, 0x7E]).cur.opnd.inputBytes =
        some [0x7E, 0x50, 0x00, 0x00, 0x00, 0x00, 0x15, 0xBA, 0x7E] := ⟨_, rfl, by decide +kernel, rfl⟩

theorem hyp_ReceiveWhatWasSent :
    packCommands queueP1 = .ok [0x22, 0x01, 0x02, 0x07, 0x02, 0xAA, 0xBB] ∧
    ∃ u : State, u.phase = .run ∧ u.cur.opnd.access = some 0 ∧ u.cur.opnd.keyv ≠ none ∧ u.caps.rqMax = none ∧
      u.cur.opnd.inputBytes = some (frameEnc Config.crc 0x50 0xAAAA 0xFFFF
        [0x0A, 0x22, 0x01, 0x02, 0x07, 0x02, 0xAA, 0xBB, 0x6A]) :=
  ⟨rfl, unpacking _, rfl, rfl, by simp [unpacking, built, withOpnd], rfl, readSeq_ofBytes _⟩

theorem hyp_ReservedCodesRaise : 0x13 ≤ (0x13#5).toNat ∧ 0x13 ≤ (0x1F#5).toNat := by decide

theorem hyp_HeaderItemsDecode : (1 : BitVec 3) ≠ 0 ∧ (0x1E : BitVec 5) ≠ 0x1F := by decide

theorem hyp_EscapeItemsDecode : (0x7E : Byte) ≠ 0x7D := by decide

theorem hyp_DelimiterAndFrameItems :
    computeFrameCrc Config.crc ([0x50, 0, 0, 0, 0] ++ []) = 0x15BA ∧
    computeFrameCrc Config.crc ([0x50, 0, 0, 0, 0] ++ []) ≠ 0 := by decide +kernel

/-- In `BUILD`; at level 3; with the wrong checksum; one command and room for none, then for one; with `KEYV = 0` at a level that
encrypts; and with a key, whatever the cipher. -/
theorem hyp_MessageItemUnpacks :
    (State.reset.phase = .build ∧ (running (withOpnd { allWritten with access := some 3 })).cur.opnd.access = some 3) ∧
    ((unpacking []).phase = .run ∧ (unpacking []).cur.opnd.access = some 0 ∧ (unpacking []).cur.opnd.keyv = some 0 ∧
      computeBlockParity Config.lrc [0x01] = 0x54 ∧ computeBlockParity Config.lrc [0x01] ≠ 0x55) ∧
    (computeBlockParity Config.lrc [0x01, 0x20] = 0x74 ∧
      withinCap (tight 0 (running (unpacking []))).caps.rqMax (unpackCommands [] [0x20]).length = false ∧
      withinCap (tight 1 (running (unpacking []))).caps.rqMax (unpackCommands [] [0x20]).length = true) ∧
    ((running (withOpnd { allWritten with access := some 2 })).cur.opnd.access = some 2 ∧
      (running (withOpnd { allWritten with access := some 2 })).cur.opnd.keyv = some 0) ∧
    (∃ (chk : Byte) (plain : Bytes) (s : State), s.phase = .run ∧ s.cur.opnd.access = some 1 ∧ s.cur.opnd.keyv = some 1 ∧
      s.cur.opnd.key = some 0 ∧ plain = Config.cipherDec 0 [0x20] ∧
      computeBlockParity Config.lrc (0x01#8 :: plain) = chk) :=
  ⟨⟨rfl, rfl⟩, by decide +kernel, by decide +kernel, ⟨rfl, rfl⟩,
    ⟨_, _, running (withOpnd { allWritten with access := some 1, keyv := some 1 }), rfl, rfl, rfl, rfl, rfl, rfl⟩⟩

theorem hyp_RaiseLeavesOnlyStatus :
    ∃ t, exec .hdrDec (onInput []) = .next t ∧ t.cur.status = .error .emptyBuffer := ⟨_, rfl, rfl⟩

theorem hyp_ResultsAreThoseTheRowNames :
    (∃ t, exec .crc16 (onInput []) = .next t ∧ t.cur.res.holds .crc = true ∧ t.cur.status = .ok) ∧
    (∃ t, exec .hdrDec (onInput []) = .next t ∧ t.cur.status ≠ .ok) := ⟨⟨_, rfl, rfl, rfl⟩, ⟨_, rfl, by decide⟩⟩

theorem hyp_InstructionFrame :
    (∃ t, exec .regBuild { State.reset with registry := registryT } = .next t) ∧
    (∃ t, exec .crc16 (onInput []) = .next t) ∧ (∃ t, exec (.accessCode 3) State.reset = .next t) :=
  ⟨⟨_, rfl⟩, ⟨_, rfl⟩, ⟨_, rfl⟩⟩

theorem hyp_OnlyRegBuildAndResetChangeTheRegistry :
    (∃ t, step { State.reset with registry := registryT, pending := [.issue 0x08] } = .next t ∧ t.phase = .run) ∧
    (∃ t, step { built allWritten with pending := [.reset] } = .next t ∧ t.phase = .build) ∧
    (∃ t, step State.reset = .next t) := ⟨⟨_, rfl, rfl⟩, ⟨_, rfl, rfl⟩, ⟨_, rfl⟩⟩

theorem hyp_OutcomeDependsOnOperandsAlone :
    (∃ t, (∀ e ∈ operandsOf .crc16, sameOperand (onInput []) t e) ∧ t.cur.opnd ≠ (onInput []).cur.opnd ∧
      t.caps = (onInput []).caps ∧ t.reg = (onInput []).reg ∧ t.phase = (onInput []).phase ∧
      ∃ t', exec .crc16 t = .next t') ∧
    (∃ f, exec .crc16 State.reset = .fault f) :=
  ⟨⟨withOpnd { input [] with accin := some 0, ibuf := Memory.ofBytes [1] }, by simp [operandsOf]; exact ⟨rfl, rfl⟩,
    by decide +kernel, rfl, rfl, rfl, ⟨_, rfl⟩⟩, ⟨_, rfl⟩⟩

theorem hyp_RepeatingAnOperationChangesNothing :
    (∃ t, exec .crc16 (onInput []) = .next t) ∧
    (∃ t, exec .regBuild { State.reset with registry := registryT } = .next t ∧ t.cur.status = .ok) :=
  ⟨⟨_, rfl⟩, ⟨_, rfl, rfl⟩⟩

theorem hyp_EveryOperationEnds : ∀ i : Instr, operandsHeld i (withOpnd allWritten) := by
  have h : ∀ i : Instr, ∀ e ∈ operandsOf i, operandHeld (withOpnd allWritten) e = true := by
    intro i
    cases i <;> simp only [operandsOf] <;> decide +kernel
  exact fun i e he _ => h i e he

theorem hyp_UnwrittenOperandsFault :
    exec .crc16 State.reset = .fault (.noValue .ilen) ∧
    (Element.key ∈ operandsOf .msgPack ∧
      operandNeeded (withOpnd { allWritten with access := some 1, keyv := some 1, key := none }) .key ∧
      operandHeld (withOpnd { allWritten with access := some 1, keyv := some 1, key := none }) .key = false) ∧
    State.reset.cur.opnd.ilen = none ∧
    ((withOpnd { Operands.unwritten with ilen := some 1 }).cur.opnd.ilen ≠ none ∧
      (withOpnd { Operands.unwritten with ilen := some 1 }).cur.opnd.inputBytes = none) ∧
    State.reset.cur.opnd.accin = none ∧
    ((withOpnd { allWritten with cmdsize := none }).cur.opnd.cmdid ≠ none ∧
      (withOpnd { allWritten with cmdsize := none }).cur.opnd.cmdsize = none) ∧
    ((running State.reset).phase = .run ∧ (running State.reset).cur.opnd.cmdid = none ∧
      (running State.reset).cur.opnd.ilen = none ∧ (running State.reset).cur.opnd.access = none) ∧
    ((running (withOpnd { allWritten with keyv := none })).phase = .run ∧
      (running (withOpnd { allWritten with keyv := none })).cur.opnd.access ≠ none ∧
      (running (withOpnd { allWritten with keyv := none })).cur.opnd.access ≠ some 3 ∧
      (running (withOpnd { allWritten with keyv := none })).cur.opnd.keyv = none) ∧
    State.reset.cur.opnd.ftype = none :=
  ⟨rfl, ⟨by simp [operandsOf], fun _ => ⟨rfl, .inl rfl⟩, rfl⟩, by decide +kernel⟩

theorem hyp_ResetEventResetsEveryEngine :
    { built allWritten with pending := [.reset], post := [Engine.reset] }.pending = .reset :: [] := rfl

theorem hyp_StepKeepsTheInvariant :
    { State.reset with pending := [.issue 0x00] }.Inv ∧
    ∃ t, step { State.reset with pending := [.issue 0x00] } = .next t := by
  refine ⟨⟨?_, fun _ => rfl, rfl⟩, ⟨_, rfl⟩⟩
  intro e he
  have : e = Engine.reset := by simpa [State.engines, State.reset] using he
  subst this
  constructor <;> simp [Engine.reset, Operands.unwritten, Memory.empty, Results.invalid, Memory.wf, cellsRiseFrom]

/-- A write of `OP`, an item within and at `BUF_MAX`, a table word, and no move. -/
theorem hyp_StepRunsTheDecodedInstruction :
    { State.reset with pending := [.issue 0x03] }.pending = .issue 0x03 :: [] ∧
    (decode .escapeItem [0x7D, 0x5E] = .ok .escFlag ∧ withinCap (tight 2 State.reset).caps.bufMax 2 = true) ∧
    (decodeTableWord 8 0x03 = some .crc16 ∧ State.reset.caps.bufMax = none) ∧ State.reset.pending = [] :=
  ⟨rfl, ⟨rfl, rfl⟩, ⟨by decide, rfl⟩, rfl⟩

theorem hyp_EnginesAreIsolated :
    (∃ t, step { onInput [] with post := [Engine.reset], pending := [.issue 0x03] } = .next t) ∧
    (∃ t, step { onInput [] with post := [Engine.reset], pending := [.select 1] } = .next t ∧ t.pre.length = 1) ∧
    (∃ t, exec .crc16 (onInput []) = .next t) := ⟨⟨_, rfl⟩, ⟨_, rfl, rfl⟩, ⟨_, rfl⟩⟩

/-- A write of exactly `BUF_MAX` bytes and of one more; of one byte in an unbounded block and at the indexes `BUF_MAX - 1` and
`BUF_MAX` of a bounded one; a queue that fits and one that does not; an element to read. -/
theorem hyp_HostWritesAreReadBack :
    withinCap (tight 1 State.reset).caps.bufMax [0x00#8].length = true ∧
    withinCap (tight 1 State.reset).caps.bufMax [0x00#8, 0x01#8].length = false ∧
    (∀ m, State.reset.caps.bufMax = some m → 0 < m) ∧ (∀ m, (tight 2 State.reset).caps.bufMax = some m → 1 < m) ∧
    ((tight 2 State.reset).caps.bufMax = some 2 ∧ 2 ≤ 2) ∧
    (withinCap (tight 1 State.reset).caps.cqMax ([⟨0, []⟩] : List Command).length = true ∧
      withinCap (tight 0 State.reset).caps.cqMax ([⟨0, []⟩] : List Command).length = false) ∧
    hostReadable .crc = true :=
  ⟨rfl, rfl, (fun _ h => by cases h), (fun _ h => by cases h; decide), ⟨rfl, Nat.le_refl 2⟩, ⟨rfl, rfl⟩, rfl⟩

theorem hyp_TwoByteFieldsAreBigEndian :
    (Memory.ofBytes [1, 2]).wf = true ∧ (Memory.ofBytes [1, 2]).read 0 = some 1 ∧
    (Memory.ofBytes [1, 2]).read 1 = some 2 := ⟨rfl, rfl, rfl⟩

theorem hyp_DecodeOfEncodeIsIdentity :
    Instr.crc16.wellFormed = true ∧ (Instr.hdrShort 7 31).wellFormed = true ∧ (Instr.escAny 0).wellFormed = true ∧
    (Instr.frame 0x7E 0x7D11 0x1300 [0x7E] 0x7E7E).wellFormed = true := ⟨rfl, by decide, by decide, rfl⟩

theorem hyp_DecodedWordsAreCanonical :
    Space.op ≠ .frame ∧ decode .op [0x12] = .ok .frameMsgDec := ⟨by decide, rfl⟩

theorem hyp_CrcStreamEqualsOneShot :
    { State.reset with pending := pseudoCrc16Stream [0x50] [[0xAA], []] }.pending = pseudoCrc16Stream [0x50] [[0xAA], []] ∧
    State.reset.caps.bufMax = none := ⟨rfl, rfl⟩

theorem hyp_SendFramesThePackedMessage :
    { State.reset with pending := pseudoSend 0x0A 0 none 0x50 0xAAAA 0xFFFF queueP1 }.caps = Capacities.unbounded ∧
    packCommands queueP1 = .ok [0x22, 0x01, 0x02, 0x07, 0x02, 0xAA, 0xBB] ∧
    packCommands [⟨0x0100, []⟩] = .error .invalidCommand := ⟨rfl, rfl, rfl⟩

end Sys2Proof.Tests
end

section
/-! PROOFS. How an operation ends, as one rule for each way an operation is put together: a value with a property, an error
kind, or an operand element that holds no value. -/

namespace Sys2Proof.Machine

open Sys2Proof

/-- `x` answers a value that meets `P`, or raises an error kind, or reads an element without a value that meets `N`. -/
def Ends {α : Type} (N : Element → Prop) (P : α → Prop) : Except Stop α → Prop
  | .ok a => P a
  | .error (.raise _) => True
  | .error (.noValue e) => N e

section
variable {α β : Type} {N : Element → Prop} {P : α → Prop} {Q : β → Prop} {x : Except Stop α} {f : α → Except Stop β}

@[simp] theorem ends_ok {a : α} : Ends N P (.ok a) ↔ P a := Iff.rfl
@[simp] theorem ends_raise {k : ErrorKind} : Ends N P (.error (.raise k)) := trivial
@[simp] theorem ends_noValue {e : Element} : Ends N P (.error (.noValue e)) ↔ N e := Iff.rfl

theorem ends_mono {P' : α → Prop} (h : ∀ a, P a → P' a) (hx : Ends N P x) : Ends N P' x := by
  match x, hx with
  | .ok a, hx => exact h a hx
  | .error (.raise _), _ => trivial
  | .error (.noValue _), hx => exact hx

theorem ends_bind (hx : Ends N P x) (hf : ∀ a, P a → Ends N Q (f a)) : Ends N Q (x >>= f) := by
  match x, hx with
  | .ok a, hx => exact hf a hx
  | .error (.raise _), _ => trivial
  | .error (.noValue _), hx => exact hx

theorem ends_orRaise (r : Except ErrorKind α) : Ends N (fun a => r = .ok a) (orRaise r) := by
  cases r <;> simp

/-- A test that must fail for the operation to go on. -/
theorem ends_raiseIf {c : Prop} [Decidable c] {k : ErrorKind} (h : ¬c → Ends N P x) :
    Ends N P (if c then .error (.raise k) else x) := by
  split
  · trivial
  · next hc => exact h hc

/-- A test that must succeed for the operation to go on. -/
theorem ends_raiseUnless {c : Prop} [Decidable c] {k : ErrorKind} (h : c → Ends N P x) :
    Ends N P (if c then x else .error (.raise k)) := by
  split
  · next hc => exact h hc
  · trivial

end

/-! ## Reading operands -/

/-- An element that the row of `i` names and needs, and that holds no value (R14(e), R161). -/
def Unwritten (i : Instr) (s : State) (e : Element) : Prop :=
  e ∈ operandsOf i ∧ operandNeeded s e ∧ operandHeld s e = false

theorem operandNeeded_of_ne {s : State} {e : Element} (h : e ≠ .key) : operandNeeded s e := fun h' => absurd h' h

section
variable {i : Instr} {s : State}

theorem ends_readNeeded {α : Type} {e : Element} {o : Option α} (hi : e ∈ operandsOf i) (hn : operandNeeded s e)
    (ho : operandHeld s e = o.isSome) : Ends (Unwritten i s) (fun v => o = some v) (readElement e o) := by
  cases o with
  | none => exact ⟨hi, hn, ho⟩
  | some v => exact rfl

/-- Reading an operand element other than `KEY`. -/
theorem ends_read {α : Type} {e : Element} {o : Option α} (hi : e ∈ operandsOf i := by simp [operandsOf])
    (hk : e ≠ .key := by decide) (ho : operandHeld s e = o.isSome := by rfl) :
    Ends (Unwritten i s) (fun v => o = some v) (readElement e o) :=
  ends_readNeeded hi (operandNeeded_of_ne hk) ho

theorem ends_readInput (h : [.ibuf, .ilen] ⊆ operandsOf i := by simp [operandsOf]) :
    Ends (Unwritten i s) (fun b => s.cur.opnd.inputBytes = some b) s.cur.opnd.readInput := by
  cases hr : s.cur.opnd.readInput with
  | ok b => exact readInput_ok hr
  | error st =>
    rcases readInput_eq_error hr with ⟨hn, rfl⟩ | ⟨_, hn, rfl⟩
    · exact ⟨h (by simp), operandNeeded_of_ne (by decide), by simp [operandHeld, hn]⟩
    · exact ⟨h (by simp), operandNeeded_of_ne (by decide), by simp [operandHeld, hn]⟩

theorem ends_requireRun {N : Element → Prop} : Ends N (fun _ => s.phase = .run) (requireRun s) := by
  cases hp : s.phase with
  | build => simp [requireRun_build hp]
  | run => simp [requireRun_run hp]

theorem ends_requireAccess (h : .access ∈ operandsOf i := by simp [operandsOf]) :
    Ends (Unwritten i s) (fun a => s.cur.opnd.access = some a) (requireAccess s) :=
  ends_bind ends_requireRun fun _ _ => ends_bind (ends_read h) fun _ ha => ends_raiseIf fun _ => ha

/-! ## The key -/

/-- When `KEY` is needed, in the words of the message packer. -/
theorem operandNeeded_key {a : BitVec 2} {kv : BitVec 1} (ha : s.cur.opnd.access = some a) (hk : s.cur.opnd.keyv = some kv) :
    operandNeeded s .key ↔ requiresEncryption a = true ∧ kv = 1 := by
  simp [operandNeeded, ha, hk, requiresEncryption, and_comm]

/-- `KEY` is read where it is needed; where an operation does without it, it is not needed. -/
theorem ends_decryptRegion {a : BitVec 2} {kv : BitVec 1} (region : Bytes) (hi : .key ∈ operandsOf i)
    (ha : s.cur.opnd.access = some a) (hk : s.cur.opnd.keyv = some kv) :
    Ends (Unwritten i s) (fun _ => operandNeeded s .key → operandHeld s .key = true)
      (decryptRegion s.cur.opnd a kv region) := by
  unfold decryptRegion
  split
  · next hc =>
    refine ends_bind (ends_readNeeded hi ((operandNeeded_key ha hk).2 hc) rfl) fun k hkey => ?_
    simp [operandHeld, hkey]
  · next hc => exact fun hn => absurd ((operandNeeded_key ha hk).1 hn) hc

theorem ends_requireKey {a : BitVec 2} (hi : .keyv ∈ operandsOf i) :
    Ends (Unwritten i s) (fun _ => ∃ kv, s.cur.opnd.keyv = some kv ∧ (requiresEncryption a = true → kv = 1))
      (requireKey s.cur.opnd a) := by
  refine ends_bind (ends_read hi) fun kv hkv => ends_raiseIf fun hc => ⟨kv, hkv, fun he => ?_⟩
  exact (BitVec.eq_zero_or_eq_one kv).resolve_left fun h0 => hc ⟨he, h0⟩

theorem ends_encryptRegion {a : BitVec 2} {kv : BitVec 1} (plain : Bytes) (hi : .key ∈ operandsOf i)
    (ha : s.cur.opnd.access = some a) (hk : s.cur.opnd.keyv = some kv) (h1 : requiresEncryption a = true → kv = 1) :
    Ends (Unwritten i s) (fun _ => operandNeeded s .key → operandHeld s .key = true)
      (encryptRegion s.cur.opnd a plain) := by
  unfold encryptRegion
  split
  · next hc =>
    refine ends_bind (ends_readNeeded hi ((operandNeeded_key ha hk).2 ⟨hc, h1 hc⟩) rfl) fun k hkey => ?_
    simp [operandHeld, hkey]
  · next hc => exact fun hn => absurd ((operandNeeded_key ha hk).1 hn).1 hc

/-! ## The message stage -/

theorem ends_unpackMessage {p : LrcParams} {a : BitVec 2} {kv : BitVec 1} (b : Bytes) (hi : .key ∈ operandsOf i)
    (ha : s.cur.opnd.access = some a) (hk : s.cur.opnd.keyv = some kv) :
    Ends (Unwritten i s)
      (fun m => (∀ e ∈ [Element.access, .keyv, .key], operandNeeded s e → operandHeld s e = true) ∧
        withinCap s.caps.rqMax m.commands.length = true)
      (unpackMessage p s a kv b) := by
  unfold unpackMessage
  split
  · refine ends_bind (ends_decryptRegion _ hi ha hk) fun plain hkey => ?_
    refine ends_raiseIf fun _ => ends_raiseUnless fun hcap => ⟨?_, hcap⟩
    simpa [operandHeld, ha, hk] using hkey
  · trivial

theorem ends_msgUnpack {p : LrcParams} {input : Except Stop Bytes} {R : Prop}
    (h : [.access, .keyv, .key] ⊆ operandsOf i) (hin : Ends (Unwritten i s) (fun _ => R) input) :
    Ends (Unwritten i s)
      (fun m => R ∧ (∀ e ∈ [Element.access, .keyv, .key], operandNeeded s e → operandHeld s e = true) ∧
        withinCap s.caps.rqMax m.commands.length = true)
      (msgUnpack p s input) := by
  refine ends_bind (ends_requireAccess (h (by simp))) fun a ha => ?_
  refine ends_bind (ends_read (h (by simp))) fun kv hk => ?_
  refine ends_bind hin fun b hR => ?_
  exact ends_mono (fun m hm => ⟨hR, hm⟩) (ends_unpackMessage b (h (by simp)) ha hk)

end

end Sys2Proof.Machine
end

section
/-! PROOFS. What an operation delivers: the result elements its row names, each within its bounds. -/

namespace Sys2Proof.Machine

open Sys2Proof

/-- Exactly the elements listed hold a value; `OBUF` where there is a byte to hold (R14(b)). -/
def Results.Names (es : List Element) (r : Results) : Prop :=
  ∀ e, (r.holds e = true → e ∈ es) ∧ (e ∈ es → r.holds e = true ∨ (e = .obuf ∧ r.olen = some 0))

/-- The clauses of `Engine.Inv` about result elements. -/
structure Results.Fits (caps : Capacities) (r : Results) : Prop where
  obuf_olen : (r.olen = none ∧ r.obuf = Memory.empty) ∨
    (∃ o : Bytes, r.olen = some o.length ∧ r.obuf = Memory.ofBytes o)
  olen_cap : ∀ n, r.olen = some n → withinCap caps.bufMax n = true
  rq_cap : ∀ l, r.rq = some l → withinCap caps.rqMax l.length = true
  hsize_ne : r.hsize ≠ some 0
  found_one : r.found ≠ some 0

theorem withinCap_mono {cap : Option Nat} {m n : Nat} (h : m ≤ n) (hn : withinCap cap n = true) :
    withinCap cap m = true := by
  cases cap with
  | none => rfl
  | some c =>
    simp only [withinCap, decide_eq_true_eq] at *
    omega

@[simp] theorem withinCap_zero (cap : Option Nat) : withinCap cap 0 = true := by cases cap <;> simp [withinCap]

/-! ## The element lists of the results -/

theorem names_invalid : Results.invalid.Names [] := by
  intro e; cases e <;> simp [Results.holds, Results.invalid, Memory.empty]

theorem names_lrc (v : Byte) : { Results.invalid with lrc := some v }.Names [.lrc] := by
  intro e; cases e <;> simp [Results.holds, Results.invalid, Memory.empty]

theorem names_crc (v : Half) : { Results.invalid with crc := some v }.Names [.crc] := by
  intro e; cases e <;> simp [Results.holds, Results.invalid, Memory.empty]

theorem names_accout (v : Half) : { Results.invalid with accout := some v }.Names [.accout] := by
  intro e; cases e <;> simp [Results.holds, Results.invalid, Memory.empty]

theorem names_found (v : BitVec 1) : { Results.invalid with found := some v }.Names [.found] := by
  intro e; cases e <;> simp [Results.holds, Results.invalid, Memory.empty]

theorem names_rq (v : List CommandResult) : { Results.invalid with rq := some v }.Names [.rq] := by
  intro e; cases e <;> simp [Results.holds, Results.invalid, Memory.empty]

theorem names_headerRegisters (h : Header) : (headerRegisters h).Names [.hsize, .rcmdid, .rcmdsize] := by
  intro e; cases e <;> simp [Results.holds, headerRegisters, Results.invalid, Memory.empty]

/-- `OBUF` of an output holds a value unless the output is empty. -/
theorem holds_obuf_ofBytes (o : Bytes) : (!(Memory.ofBytes o).cells.isEmpty) = true ∨ o.length = 0 := by
  cases o <;> simp [Memory.ofBytes, cellsOf]

theorem names_ofOutput (o : Bytes) : (Results.ofOutput o).Names [.obuf, .olen] := by
  intro e
  cases e with
  | obuf => simpa [Results.holds] using holds_obuf_ofBytes o
  | _ => simp [Results.holds, Results.ofOutput, Results.invalid]

theorem names_command (o : Bytes) (id : Half) (size : Byte) :
    { Results.ofOutput o with rcmdid := some id, rcmdsize := some size }.Names [.rcmdid, .rcmdsize, .obuf, .olen] := by
  intro e
  cases e with
  | obuf => simpa [Results.holds] using holds_obuf_ofBytes o
  | _ => simp [Results.holds, Results.ofOutput, Results.invalid]

theorem names_frameResults (f : Frame) : (frameResults f).Names [.rtype, .rdst, .rsrc, .rcrc, .obuf, .olen] := by
  intro e
  cases e with
  | obuf => simpa [Results.holds, frameResults] using holds_obuf_ofBytes f.msg
  | _ => simp [Results.holds, frameResults, Results.ofOutput, Results.invalid]

/-- The message stage adds its four elements to those that are there. -/
theorem names_messageResults {es : List Element} {r : Results} (m : MessageResult) (h : r.Names es) :
    (messageResults m r).Names (es ++ [.rmsgid, .raccess, .rchk, .rq]) := by
  intro e
  have he := h e
  cases e with
  | rmsgid | raccess | rchk | rq => simp [Results.holds, messageResults]
  | _ => simpa [Results.holds, messageResults] using he

/-! ## The bounds of the results -/

theorem fits_of_none {caps : Capacities} {r : Results} (holen : r.olen = none) (hobuf : r.obuf = Memory.empty)
    (hrq : r.rq = none) (hh : r.hsize ≠ some 0) (hf : r.found ≠ some 0) : r.Fits caps :=
  ⟨.inl ⟨holen, hobuf⟩, by simp [holen], by simp [hrq], hh, hf⟩

theorem fits_of_output {caps : Capacities} {r : Results} {o : Bytes} (hcap : withinCap caps.bufMax o.length = true)
    (holen : r.olen = some o.length) (hobuf : r.obuf = Memory.ofBytes o) (hrq : r.rq = none)
    (hh : r.hsize = none) (hf : r.found = none) : r.Fits caps :=
  ⟨.inr ⟨o, holen, hobuf⟩, by simp [holen, hcap], by simp [hrq], by simp [hh], by simp [hf]⟩

theorem fits_invalid (caps : Capacities) : Results.invalid.Fits caps :=
  fits_of_none rfl rfl rfl nofun nofun

theorem fits_ofOutput {caps : Capacities} {o : Bytes} (h : withinCap caps.bufMax o.length = true) :
    (Results.ofOutput o).Fits caps :=
  fits_of_output h rfl rfl rfl rfl rfl

theorem fits_frameResults {caps : Capacities} {f : Frame} (h : withinCap caps.bufMax f.msg.length = true) :
    (frameResults f).Fits caps :=
  fits_of_output h rfl rfl rfl rfl rfl

theorem fits_messageResults {caps : Capacities} {r : Results} {m : MessageResult} (hr : r.Fits caps)
    (h : withinCap caps.rqMax m.commands.length = true) : (messageResults m r).Fits caps :=
  ⟨hr.obuf_olen, hr.olen_cap, by simp [messageResults, h], hr.hsize_ne, hr.found_one⟩

/-- A header is 1, 2 or 3 bytes, so its size is not 0 in the two bits of `HSIZE`. -/
theorem fits_headerRegisters {caps : Capacities} {w : Bytes} {h : Header} (hd : hdrDec w = .ok h) :
    (headerRegisters h).Fits caps := by
  refine fits_of_none rfl rfl rfl ?_ nofun
  rcases hdrDec_cases w with ⟨_, h1⟩ | ⟨_, h1⟩ | ⟨h', h1, hsize, _⟩
  · rw [h1] at hd; cases hd
  · rw [h1] at hd; cases hd
  · rw [h1] at hd
    cases hd
    rcases hsize with h2 | h2 | h2 <;> simp [headerRegisters, h2]

/-! ## Frames -/

theorem frameSplit_length {w body : Bytes} {crc : Half} (h : frameSplit w = .ok (body, crc)) : body.length ≤ w.length := by
  unfold frameSplit at h
  split at h
  · cases h
  · next inner hs =>
    rcases unescape_cases inner with hu | ⟨u, hu, hl⟩
    · simp [hu] at h
    · simp only [hu] at h
      split at h
      · cases h
      · cases h
        have hw := congrArg List.length (stripFlags_some.1 hs)
        simp at hw ⊢
        omega

theorem frameFields_length {body : Bytes} {crc : Half} {f : Frame} (h : frameFields body crc = .ok f) :
    body.length = f.msg.length + 5 := by
  unfold frameFields at h
  split at h
  · cases h; simp
  · cases h

/-- A frame that decodes passes the split, and its fields are those of the body. -/
theorem frameDec_ok {p : CrcParams} {w : Bytes} {f : Frame} (h : frameDec p w = .ok f) :
    ∃ body crc, frameSplit w = .ok (body, crc) ∧ frameFields body crc = .ok f := by
  unfold frameDec at h
  split at h
  · cases h
  · next body crc hs =>
    split at h
    · cases h
    · exact ⟨body, crc, hs, h⟩

/-- The message of a frame is shorter than the frame. -/
theorem frameDec_msg_length {p : CrcParams} {w : Bytes} {f : Frame} (h : frameDec p w = .ok f) :
    f.msg.length ≤ w.length := by
  obtain ⟨body, crc, hs, hf⟩ := frameDec_ok h
  have h1 := frameSplit_length hs
  have h2 := frameFields_length hf
  omega

/-- The escape machine undoes what a byte is sent as, whatever follows. -/
theorem unescape_escapeByte (b : Byte) (rest : Bytes) :
    unescapeFrom false (escapeByte b ++ rest) = (unescapeFrom false rest).map (b :: ·) := by
  unfold escapeByte
  split
  · have hx : (b ^^^ Config.escXor) ^^^ Config.escXor = b := by simp
    simp only [List.cons_append, List.nil_append, unescapeFrom, if_true, hx]
    cases unescapeFrom false rest <;> rfl
  · next h =>
    have hb : b ≠ Config.esc := fun h' => h (by simp [inEscapeSet, h'])
    simp only [List.cons_append, List.nil_append, unescapeFrom, if_neg hb]
    cases unescapeFrom false rest <;> rfl

theorem unescape_escape (s : Bytes) : unescape (escape s) = .ok s := by
  induction s with
  | nil => rfl
  | cons b rest ih =>
    show unescapeFrom false (escapeByte b ++ escape rest) = _
    rw [unescape_escapeByte, show unescapeFrom false (escape rest) = .ok rest from ih]
    rfl

/-- A frame's wire form splits into the body and the CRC field it was made of. -/
theorem frameSplit_frameWire {body : Bytes} (crc : Half) (h : 5 ≤ body.length) :
    frameSplit (frameWire body crc) = .ok (body, crc) := by
  have hs : stripFlags (frameWire body crc) = some (escape (body ++ be16Bytes crc)) := stripFlags_some.2 rfl
  have hl : ¬ (body.length + 2 < 7) := by omega
  simp [frameSplit, hs, unescape_escape, be16Bytes, hl]

theorem frameDec_frameWire_msg {p : CrcParams} {type : Byte} {dst src : Half} {msg : Bytes} {crc : Half} {f : Frame}
    (h : frameDec p (frameWire (frameBody type dst src msg) crc) = .ok f) : f.msg = msg := by
  obtain ⟨body, crc', hs, hf⟩ := frameDec_ok h
  rw [frameSplit_frameWire crc (by simp [frameBody, be16Bytes])] at hs
  cases hs
  simp only [frameFields, frameBody, be16Bytes, List.cons_append, List.nil_append, Except.ok.injEq] at hf
  rw [← hf]

end Sys2Proof.Machine
end

section
/-! PROOFS. Everything a row can do, said once for each: what it needs, what it delivers, and how it stops. -/

namespace Sys2Proof.Machine

open Sys2Proof

/-- The most bytes a wire-format row puts into `OBUF`: a frame its message, an escape item no more than it has (R124). -/
def itemOutput : Instr → Nat
  | .frame _ _ _ msg _ => msg.length
  | i => if encodeSpace i = .escapeItem then (encodeBytes i).length else 0

theorem itemOutput_of_ne {i : Instr} (h : encodeSpace i ≠ .frame) :
    itemOutput i = if encodeSpace i = .escapeItem then (encodeBytes i).length else 0 := by
  cases i with
  | frame => exact absurd rfl h
  | _ => rfl

/-- The input of an instruction is one the host can present (20_memory.md R31). -/
def InputFits (i : Instr) (s : State) : Prop :=
  (∀ n, s.cur.opnd.ilen = some n → withinCap s.caps.bufMax n = true) ∧ withinCap s.caps.bufMax (itemOutput i) = true

/-- What it takes for `i` to complete in `s` with the results `r`. -/
structure Delivered (i : Instr) (s : State) (r : Results) : Prop where
  held : operandsHeld i s
  names : r.Names (resultsOf i)
  fits : InputFits i s → r.Fits s.caps

/-- `i` ends in `s` as an operation does: with the results of its row, with an error kind, or at a named operand element that
it needs and that holds no value. -/
def Meets (i : Instr) (s : State) : Prop :=
  ∃ r, exec i s = s.finish r ∧ Ends (Unwritten i s) (Delivered i s) r

section
variable {i : Instr} {s : State}

theorem InputFits.input {b : Bytes} (h : InputFits i s) (hb : s.cur.opnd.inputBytes = some b) :
    withinCap s.caps.bufMax b.length = true :=
  h.1 _ (inputBytes_ilen hb)

/-- A row that names no operand has all it needs. -/
theorem operandsHeld_nil (h : operandsOf i = []) : operandsHeld i s := by simp [operandsHeld, h]

/-- A row that names the input alone has all it needs where its bytes are there. -/
theorem operandsHeld_input {b : Bytes} (h : operandsOf i = [.ibuf, .ilen]) (hb : s.cur.opnd.inputBytes = some b) :
    operandsHeld i s := by
  simp [operandsHeld, h, operandHeld, hb, inputBytes_ilen hb]

/-! ## What the decoding units deliver -/

theorem ends_headerResults {N : Element → Prop} (w : Bytes) (hop : operandsHeld i s)
    (hr : resultsOf i = [.hsize, .rcmdid, .rcmdsize]) : Ends N (Delivered i s) (headerResults w) :=
  ends_bind (ends_orRaise _) fun h hh =>
    ⟨hop, hr ▸ names_headerRegisters h, fun _ => fits_headerRegisters hh⟩

theorem ends_unescapeResults {N : Element → Prop} (w : Bytes) (hop : operandsHeld i s) (hr : resultsOf i = [.obuf, .olen])
    (hw : InputFits i s → withinCap s.caps.bufMax w.length = true) : Ends N (Delivered i s) (unescapeResults w) := by
  refine ends_bind (ends_orRaise _) fun o ho => ⟨hop, hr ▸ names_ofOutput o, fun hin => fits_ofOutput ?_⟩
  rcases unescape_cases w with h | ⟨o', h, hl⟩
  · rw [h] at ho; cases ho
  · rw [h] at ho
    cases ho
    exact withinCap_mono hl (hw hin)

theorem ends_frameDecResults {N : Element → Prop} (w : Bytes) (hop : operandsHeld i s)
    (hr : resultsOf i = [.rtype, .rdst, .rsrc, .rcrc, .obuf, .olen])
    (hw : InputFits i s → ∀ f, frameDec Config.crc w = .ok f → withinCap s.caps.bufMax f.msg.length = true) :
    Ends N (Delivered i s) (frameDecResults w) :=
  ends_bind (ends_orRaise _) fun f hf =>
    ⟨hop, hr ▸ names_frameResults f, fun hin => fits_frameResults (hw hin f hf)⟩

/-- An escape item, given to the unescape machine. -/
theorem ends_escapeItem {N : Element → Prop} (hi : encodeSpace i = .escapeItem) (hr : resultsOf i = [.obuf, .olen])
    (hop : operandsOf i = []) : Ends N (Delivered i s) (unescapeResults (encodeBytes i)) := by
  refine ends_unescapeResults _ (operandsHeld_nil hop) hr fun hin => ?_
  have hout : itemOutput i = (encodeBytes i).length := by rw [itemOutput_of_ne (by simp [hi]), if_pos hi]
  exact hout ▸ hin.2

end

/-! ## The operations -/

variable (s : State)

theorem lrc_meets : Meets .lrc s :=
  ⟨_, rfl, ends_bind ends_readInput fun _ hb =>
    ⟨operandsHeld_input rfl hb, names_lrc _, fun _ => fits_of_none rfl rfl rfl nofun nofun⟩⟩

theorem lrcUpd_meets : Meets .lrcUpd s :=
  ⟨_, rfl, ends_bind ends_read fun _ ha => ends_bind ends_readInput fun _ hb =>
    ⟨by simp [operandsHeld, operandsOf, operandHeld, ha, hb, inputBytes_ilen hb], names_accout _,
      fun _ => fits_of_none rfl rfl rfl nofun nofun⟩⟩

theorem crc16_meets : Meets .crc16 s :=
  ⟨_, rfl, ends_bind ends_readInput fun _ hb =>
    ⟨operandsHeld_input rfl hb, names_crc _, fun _ => fits_of_none rfl rfl rfl nofun nofun⟩⟩

theorem crc16Upd_meets : Meets .crc16Upd s :=
  ⟨_, rfl, ends_bind ends_read fun _ ha => ends_bind ends_readInput fun _ hb =>
    ⟨by simp [operandsHeld, operandsOf, operandHeld, ha, hb, inputBytes_ilen hb], names_accout _,
      fun _ => fits_of_none rfl rfl rfl nofun nofun⟩⟩

theorem crc16Fin_meets : Meets .crc16Fin s :=
  ⟨_, rfl, ends_bind ends_read fun _ ha =>
    ⟨by simp [operandsHeld, operandsOf, operandHeld, ha], names_crc _,
      fun _ => fits_of_none rfl rfl rfl nofun nofun⟩⟩

theorem hdrDec_meets : Meets .hdrDec s :=
  ⟨_, rfl, ends_bind ends_readInput fun _ hb => ends_headerResults _ (operandsHeld_input rfl hb) rfl⟩

theorem hdrEnc_meets : Meets .hdrEnc s :=
  ⟨_, rfl, ends_bind ends_read fun _ hid => ends_bind ends_read fun _ hsize =>
    ends_bind (ends_orRaise _) fun _ _ => ends_raiseUnless fun hcap =>
    ⟨by simp [operandsHeld, operandsOf, operandHeld, hid, hsize], names_ofOutput _, fun _ => fits_ofOutput hcap⟩⟩

theorem resolve_meets : Meets .resolve s := by
  refine ⟨_, rfl, ends_bind ends_requireRun fun _ _ => ends_bind ends_read fun id hid => ?_⟩
  split
  · trivial
  · exact ⟨by simp [operandsHeld, operandsOf, operandHeld, hid], names_found _,
      fun _ => fits_of_none rfl rfl rfl nofun (by decide)⟩

theorem cmdEnc_meets : Meets .cmdEnc s := by
  refine ⟨_, rfl, ends_bind ends_requireRun fun _ _ => ends_bind ends_read fun id hid => ?_⟩
  split
  · trivial
  · exact ends_bind ends_read fun p hp => ends_raiseIf fun _ => ends_raiseUnless fun hcap =>
      ⟨by simp [operandsHeld, operandsOf, operandHeld, hid, hp], names_command _ _ _,
        fun _ => fits_of_output hcap rfl rfl rfl rfl rfl⟩

theorem cmdDec_meets : Meets .cmdDec s :=
  ⟨_, rfl, ends_bind ends_requireRun fun _ _ => ends_bind ends_read fun _ _ => ends_raiseIf fun _ =>
    ends_bind ends_readInput fun _ hb => ends_bind ends_read fun _ hid => ends_raiseUnless fun hcap =>
    ⟨by simp [operandsHeld, operandsOf, operandHeld, hid, hb, inputBytes_ilen hb], names_rq _,
      fun _ => ⟨.inl ⟨rfl, rfl⟩, nofun, by simpa using hcap, nofun, nofun⟩⟩⟩

theorem msgPack_meets : Meets .msgPack s := by
  refine ⟨_, rfl, ends_bind ends_read fun a ha => ends_raiseIf fun _ => ?_⟩
  refine ends_bind (ends_requireKey (by simp [operandsOf])) fun _ ⟨kv, hk, h1⟩ => ?_
  refine ends_bind ends_read fun cq hcq => ends_bind (ends_orRaise _) fun plain _ => ?_
  refine ends_bind ends_read fun mid hmid => ?_
  refine ends_bind (ends_encryptRegion plain (by simp [operandsOf]) ha hk h1) fun region hkey => ?_
  exact ends_raiseUnless fun hcap =>
    ⟨by simpa [operandsHeld, operandsOf, operandHeld, ha, hk, hcq, hmid] using hkey, names_ofOutput _,
      fun _ => fits_ofOutput hcap⟩

theorem msgUnpack_meets : Meets .msgUnpack s := by
  have hin : Ends (Unwritten .msgUnpack s) (fun _ => ∃ b, s.cur.opnd.inputBytes = some b) s.cur.opnd.readInput :=
    ends_mono (fun b hb => ⟨b, hb⟩) ends_readInput
  refine ⟨_, rfl, ends_bind (ends_msgUnpack (by simp [operandsOf]) hin) fun m ⟨⟨b, hb⟩, hheld, hcap⟩ => ?_⟩
  exact ⟨by simpa [operandsHeld, operandsOf, operandHeld, hb, inputBytes_ilen hb] using hheld,
    names_messageResults m names_invalid, fun _ => fits_messageResults (fits_invalid _) hcap⟩

theorem escape_meets : Meets .escape s :=
  ⟨_, rfl, ends_bind ends_readInput fun _ hb => ends_raiseUnless fun hcap =>
    ⟨operandsHeld_input rfl hb, names_ofOutput _, fun _ => fits_ofOutput hcap⟩⟩

theorem unescape_meets : Meets .unescape s :=
  ⟨_, rfl, ends_bind ends_readInput fun _ hb =>
    ends_unescapeResults _ (operandsHeld_input rfl hb) rfl fun hin => hin.input hb⟩

theorem frameEnc_meets : Meets .frameEnc s :=
  ⟨_, rfl, ends_bind ends_read fun _ hty => ends_bind ends_read fun _ hdst => ends_bind ends_read fun _ hsrc =>
    ends_bind ends_readInput fun _ hb => ends_raiseUnless fun hcap =>
    ⟨by simp [operandsHeld, operandsOf, operandHeld, hty, hdst, hsrc, hb, inputBytes_ilen hb], names_ofOutput _,
      fun _ => fits_ofOutput hcap⟩⟩

theorem frameDec_meets : Meets .frameDec s :=
  ⟨_, rfl, ends_bind ends_readInput fun _ hb => ends_frameDecResults _ (operandsHeld_input rfl hb) rfl
    fun hin _ hf => withinCap_mono (frameDec_msg_length hf) (hin.input hb)⟩

theorem frameMsgDec_meets : Meets .frameMsgDec s := by
  refine ⟨_, rfl, ends_bind ends_requireAccess fun a ha => ends_bind ends_readInput fun w hb => ?_⟩
  refine ends_bind (ends_orRaise _) fun f hf => ends_bind ends_read fun kv hk => ?_
  refine ends_bind (ends_unpackMessage _ (by simp [operandsOf]) ha hk) fun m ⟨hheld, hcap⟩ => ?_
  exact ⟨by simpa [operandsHeld, operandsOf, operandHeld, hb, inputBytes_ilen hb] using hheld,
    names_messageResults m (names_frameResults f),
    fun hin => fits_messageResults (fits_frameResults (withinCap_mono (frameDec_msg_length hf) (hin.input hb))) hcap⟩

/-! ## The other rows -/

theorem raise_meets {i : Instr} {k : ErrorKind} (h : exec i s = .next (s.raise k)) : Meets i s :=
  ⟨.error (.raise k), h, trivial⟩

/-- A lone delimiter is no frame. -/
theorem flag_meets : Meets .flag s := raise_meets s rfl

theorem frame_meets (type : Byte) (dst src : Half) (msg : Bytes) (crc : Half) : Meets (.frame type dst src msg crc) s :=
  ⟨_, rfl, ends_frameDecResults _ (operandsHeld_nil rfl) rfl fun hin _ hf => frameDec_frameWire_msg hf ▸ hin.2⟩

theorem message_meets (mid : Byte) (region : Bytes) (chk : Byte) : Meets (.message mid region chk) s :=
  ⟨_, rfl, ends_bind (ends_msgUnpack (R := True) (by simp [operandsOf]) trivial) fun m ⟨_, hheld, hcap⟩ =>
    ⟨hheld, names_messageResults m names_invalid, fun _ => fits_messageResults (fits_invalid _) hcap⟩⟩

theorem statusCode_meets (c : Status) : Meets (.statusCode c) s := by
  cases c with
  | ok => exact ⟨.ok Results.invalid, rfl, operandsHeld_nil rfl, names_invalid, fun _ => fits_invalid _⟩
  | error k => exact raise_meets s rfl

/-- Everything a row can do, but for `REG_BUILD` and the access level code. -/
theorem exec_meets (i : Instr) (h1 : i ≠ .regBuild) (h2 : encodeSpace i ≠ .access) : Meets i s := by
  cases i with
  | lrc => exact lrc_meets s
  | lrcUpd => exact lrcUpd_meets s
  | crc16 => exact crc16_meets s
  | crc16Upd => exact crc16Upd_meets s
  | crc16Fin => exact crc16Fin_meets s
  | hdrDec => exact hdrDec_meets s
  | hdrEnc => exact hdrEnc_meets s
  | regBuild => exact absurd rfl h1
  | resolve => exact resolve_meets s
  | cmdEnc => exact cmdEnc_meets s
  | cmdDec => exact cmdDec_meets s
  | msgPack => exact msgPack_meets s
  | msgUnpack => exact msgUnpack_meets s
  | escape => exact escape_meets s
  | unescape => exact unescape_meets s
  | frameEnc => exact frameEnc_meets s
  | frameDec => exact frameDec_meets s
  | frameMsgDec => exact frameMsgDec_meets s
  | reservedOp00 => exact raise_meets s rfl
  | reservedOp13 => exact raise_meets s rfl
  | reservedOp14to17 low => exact raise_meets s rfl
  | reservedOp18to1F low => exact raise_meets s rfl
  | hdrShort top size => exact ⟨_, rfl, ends_headerResults _ (operandsHeld_nil rfl) rfl⟩
  | hdrMedium id size => exact ⟨_, rfl, ends_headerResults _ (operandsHeld_nil rfl) rfl⟩
  | hdrExtended idHigh size =>
    exact ⟨headerResults (encodeBytes (.hdrExtended idHigh size)), rfl, ends_headerResults _ (operandsHeld_nil rfl) rfl⟩
  | escFlag => exact ⟨_, rfl, ends_escapeItem rfl rfl rfl⟩
  | escEsc => exact ⟨_, rfl, ends_escapeItem rfl rfl rfl⟩
  | escFlowA => exact ⟨_, rfl, ends_escapeItem rfl rfl rfl⟩
  | escFlowB => exact ⟨_, rfl, ends_escapeItem rfl rfl rfl⟩
  | escAny f => exact ⟨_, rfl, ends_escapeItem rfl rfl rfl⟩
  | literal b => exact ⟨_, rfl, ends_escapeItem rfl rfl rfl⟩
  | flag => exact flag_meets s
  | frame type dst src msg crc => exact frame_meets s type dst src msg crc
  | message mid region chk => exact message_meets s mid region chk
  | accessCode a => exact absurd rfl h2
  | statusCode c => exact statusCode_meets s c

end Sys2Proof.Machine
end

section
/-! PROOFS. What operations deliver, leave alone and read (10_state.md R12 to R15, R21, R161). -/

namespace Sys2Proof.Machine

open Sys2Proof

/-! ## Results -/

/-- How an instruction other than the access level code ends in a next state: with the results of its row, or with an error
kind. -/
theorem exec_next {i : Instr} {s t : State} (h2 : encodeSpace i ≠ .access) (h : exec i s = .next t) :
    (∃ r, t.cur = (s.complete r).cur ∧ Delivered i s r) ∨ (∃ k, t = s.raise k) := by
  by_cases h1 : i = .regBuild
  · subst h1
    rcases regBuild_next h with ⟨_, rfl⟩ | ⟨_, _, rfl⟩ | ⟨_, _, rfl⟩
    · exact .inr ⟨_, rfl⟩
    · exact .inr ⟨_, rfl⟩
    · exact .inl ⟨Results.invalid, rfl, by simp [operandsHeld, operandsOf, operandHeld], names_invalid,
        fun _ => fits_invalid _⟩
  · obtain ⟨r, hr, hends⟩ := exec_meets s i h1 h2
    rw [hr] at h
    rcases finish_next h with ⟨res, rfl, rfl⟩ | ⟨k, rfl, rfl⟩
    · exact .inl ⟨res, rfl, hends⟩
    · exact .inr ⟨k, rfl⟩

/-- Settles O41: a row that completes has delivered its results, and one that raises has invalidated them. -/
theorem resultsAreThoseTheRowNames : Obligations.ResultsAreThoseTheRowNames := by
  intro i s t h2 h
  rcases exec_next h2 h with ⟨r, hcur, hd⟩ | ⟨k, rfl⟩
  · rw [hcur, complete_res, complete_status]
    exact ⟨fun e => (hd.names e).1, fun _ e => (hd.names e).2, fun hne => absurd rfl hne⟩
  · rw [raise_res, raise_status]
    have hnone : ∀ e, Results.invalid.holds e = false := fun e => by
      simpa using (names_invalid e).1
    exact ⟨fun e he => by simp [hnone] at he, nofun, fun _ => hnone⟩

/-! ## The frame -/

theorem exec_keeps_opnd {i : Instr} {s t : State} (h2 : encodeSpace i ≠ .access) (h : exec i s = .next t) :
    t.cur.opnd = s.cur.opnd := by
  rcases exec_next h2 h with ⟨r, hcur, _⟩ | ⟨k, rfl⟩
  · rw [hcur, complete_opnd]
  · rfl

theorem accessCode_next {i : Instr} {s t : State} (h2 : encodeSpace i = .access) (h : exec i s = .next t) :
    ∃ a, t = { s with cur := { s.cur with opnd := { s.cur.opnd with access := some a } } } := by
  cases i with
  | accessCode a => cases h; exact ⟨a, rfl⟩
  | _ => cases h2

theorem exec_keeps_reg {i : Instr} {s t : State} (h1 : i ≠ .regBuild) (h : exec i s = .next t) :
    t.reg = s.reg ∧ t.phase = s.phase := by
  by_cases h2 : encodeSpace i = .access
  · obtain ⟨a, rfl⟩ := accessCode_next h2 h
    exact ⟨rfl, rfl⟩
  · obtain ⟨r, hr⟩ := exec_finish i s h1 h2
    rw [hr] at h
    rcases finish_next h with ⟨res, _, rfl⟩ | ⟨k, _, rfl⟩ <;> exact ⟨rfl, rfl⟩

/-- Settles O42: what every row leaves alone, with the two exceptions, `REG_BUILD` and the access level code. -/
theorem instructionFrame : Obligations.InstructionFrame := by
  intro i s t h
  obtain ⟨hregistry, hpre, hpost, hcaps, hpending, hibuf, hilen, hcq⟩ := exec_keeps h
  refine ⟨fun h2 => exec_keeps_opnd h2 h, fun a => by rw [hibuf], hilen, hcq, hregistry, hpre, hpost, hcaps, hpending,
    fun h1 => exec_keeps_reg h1 h, fun h2 => ?_⟩
  obtain ⟨a, rfl⟩ := accessCode_next h2 h
  exact ⟨rfl, rfl⟩

/-! ## What an outcome depends on -/

/-- Two states look alike to `i`. -/
structure LookAlike (i : Instr) (s t : State) : Prop where
  phase : s.phase = t.phase
  reg : s.reg = t.reg
  caps : s.caps = t.caps
  opnd : ∀ e ∈ operandsOf i, sameOperand s t e

/-- Two outcomes that cannot be told apart by results, `STATUS`, `PHASE`, `REG` or the fault, and no refusal. -/
def SameAnswer (x y : Host.Outcome State Fault Refusal) : Prop :=
  (∀ s', x = .next s' → ∃ t', y = .next t' ∧ t'.cur.res = s'.cur.res ∧ t'.cur.status = s'.cur.status ∧
    t'.phase = s'.phase ∧ t'.reg = s'.reg) ∧
  (∀ f, x = .fault f → y = .fault f) ∧ (∀ r, x ≠ .refused r)

theorem sameAnswer_next {s t : State} (hres : t.cur.res = s.cur.res) (hst : t.cur.status = s.cur.status)
    (hph : t.phase = s.phase) (hreg : t.reg = s.reg) : SameAnswer (.next s) (.next t) :=
  ⟨fun s' h => by cases h; exact ⟨t, rfl, hres, hst, hph, hreg⟩, nofun, nofun⟩

theorem sameAnswer_fault (f : Fault) : SameAnswer (.fault f) (.fault f) := 
  ⟨fun _ h => (by cases h), fun _ h => h, fun _ h => (by cases h)⟩

theorem same_bind {α β : Type} {x y : Except Stop α} {f g : α → Except Stop β} (h : x = y) (hf : ∀ a, f a = g a) :
    x >>= f = y >>= g := by
  rw [h, funext hf]

section
variable {i : Instr} {s t : State}

theorem LookAlike.finish (h : LookAlike i s t) (r : Except Stop Results) : SameAnswer (s.finish r) (t.finish r) := by
  match r with
  | .ok res => exact sameAnswer_next rfl rfl h.phase.symm h.reg.symm
  | .error (.raise k) => exact sameAnswer_next rfl rfl h.phase.symm h.reg.symm
  | .error (.noValue e) => exact sameAnswer_fault _

theorem LookAlike.read (h : LookAlike i s t) {α : Type} {e : Element} {o o' : Option α}
    (hi : e ∈ operandsOf i := by simp [operandsOf]) (ho : sameOperand s t e = (o = o') := by rfl) :
    readElement e o = readElement e o' := by
  rw [cast ho (h.opnd e hi)]

theorem LookAlike.readInput (h : LookAlike i s t) (hi : [.ibuf, .ilen] ⊆ operandsOf i := by simp [operandsOf]) :
    s.cur.opnd.readInput = t.cur.opnd.readInput := by
  have hilen : s.cur.opnd.ilen = t.cur.opnd.ilen := h.opnd .ilen (hi (by simp))
  have hibuf : s.cur.opnd.inputBytes = t.cur.opnd.inputBytes := h.opnd .ibuf (hi (by simp))
  cases hn : t.cur.opnd.ilen with
  | none => simp only [Operands.readInput, hilen, hn]
  | some n =>
    simp only [Operands.inputBytes, hilen, hn] at hibuf
    simp only [Operands.readInput, hilen, hn, hibuf]

theorem LookAlike.requireRun (h : LookAlike i s t) : requireRun s = requireRun t := by
  simp only [Machine.requireRun, h.phase]

theorem LookAlike.requireAccess (h : LookAlike i s t) (hi : .access ∈ operandsOf i := by simp [operandsOf]) :
    requireAccess s = requireAccess t :=
  same_bind h.requireRun fun _ => same_bind (h.read hi) fun _ => rfl

theorem LookAlike.unpackMessage (h : LookAlike i s t) (p : LrcParams) (a : BitVec 2) (kv : BitVec 1) (b : Bytes)
    (hi : .key ∈ operandsOf i := by simp [operandsOf]) : unpackMessage p s a kv b = unpackMessage p t a kv b := by
  have hkey : s.cur.opnd.key = t.cur.opnd.key := h.opnd .key hi
  simp only [Machine.unpackMessage, decryptRegion, Operands.readKey, hkey, h.reg, h.caps]

theorem LookAlike.msgUnpack (h : LookAlike i s t) (p : LrcParams) {x y : Except Stop Bytes} (hxy : x = y)
    (hi : [.access, .keyv, .key] ⊆ operandsOf i := by simp [operandsOf]) : msgUnpack p s x = msgUnpack p t y :=
  same_bind (h.requireAccess (hi (by simp))) fun _ => same_bind (h.read (hi (by simp))) fun _ =>
    same_bind hxy fun _ => h.unpackMessage _ _ _ _ (hi (by simp))

theorem LookAlike.packMessage (h : LookAlike .msgPack s t) (p : LrcParams) : packMessage p s = packMessage p t := by
  have hkeyv : s.cur.opnd.keyv = t.cur.opnd.keyv := h.opnd .keyv (by simp [operandsOf])
  have hkey : s.cur.opnd.key = t.cur.opnd.key := h.opnd .key (by simp [operandsOf])
  refine same_bind h.read fun a => ?_
  simp only [requireKey, encryptRegion, Operands.readKeyv, Operands.readKey, hkeyv, hkey, h.caps, Operands.readCq,
    Operands.readMsgid, h.read (e := .cq), h.read (e := .msgid)]

theorem regBuild_sameAnswer (h : LookAlike .regBuild s t) : SameAnswer (exec .regBuild s) (exec .regBuild t) := by
  have hregistry : s.registry = t.registry := h.opnd .registry (by simp [operandsOf])
  simp only [exec, execRegBuild, h.phase, hregistry]
  split
  · exact sameAnswer_next rfl rfl h.phase.symm h.reg.symm
  · split
    · exact sameAnswer_next rfl rfl h.phase.symm h.reg.symm
    · exact sameAnswer_next rfl rfl rfl rfl

/-- A row that names no operand ends the same way in every state. -/
theorem exec_readsNothing (hop : operandsOf i = []) (h2 : encodeSpace i ≠ .access) :
    ∃ r, ∀ s, exec i s = s.finish r := by
  cases i with
  | reservedOp00 => exact ⟨.error (.raise .illegalOperation), fun _ => rfl⟩
  | reservedOp13 => exact ⟨.error (.raise .illegalOperation), fun _ => rfl⟩
  | reservedOp14to17 low => exact ⟨.error (.raise .illegalOperation), fun _ => rfl⟩
  | reservedOp18to1F low => exact ⟨.error (.raise .illegalOperation), fun _ => rfl⟩
  | hdrShort top size => exact ⟨headerResults (encodeBytes (.hdrShort top size)), fun _ => rfl⟩
  | hdrMedium id size => exact ⟨headerResults (encodeBytes (.hdrMedium id size)), fun _ => rfl⟩
  | hdrExtended h size => exact ⟨headerResults (encodeBytes (.hdrExtended h size)), fun _ => rfl⟩
  | escFlag => exact ⟨unescapeResults (encodeBytes .escFlag), fun _ => rfl⟩
  | escEsc => exact ⟨unescapeResults (encodeBytes .escEsc), fun _ => rfl⟩
  | escFlowA => exact ⟨unescapeResults (encodeBytes .escFlowA), fun _ => rfl⟩
  | escFlowB => exact ⟨unescapeResults (encodeBytes .escFlowB), fun _ => rfl⟩
  | escAny f => exact ⟨unescapeResults (encodeBytes (.escAny f)), fun _ => rfl⟩
  | literal b => exact ⟨unescapeResults (encodeBytes (.literal b)), fun _ => rfl⟩
  | flag => exact ⟨frameDecResults (encodeBytes .flag), fun _ => rfl⟩
  | frame ty d c msg crc => exact ⟨frameDecResults (encodeBytes (.frame ty d c msg crc)), fun _ => rfl⟩
  | accessCode a => exact absurd rfl h2
  | statusCode c =>
    cases c with
    | ok => exact ⟨.ok Results.invalid, fun _ => rfl⟩
    | error k => exact ⟨.error (.raise k), fun _ => rfl⟩
  | _ => cases hop

/-- An instruction ends the same way in two states that look alike to it. -/
theorem exec_sameEnd (h1 : i ≠ .regBuild) (h2 : encodeSpace i ≠ .access) (h : LookAlike i s t) :
    ∃ r r', exec i s = s.finish r ∧ exec i t = t.finish r' ∧ r = r' := by
  by_cases hop : operandsOf i = []
  · obtain ⟨r, hr⟩ := exec_readsNothing hop h2
    exact ⟨r, r, hr s, hr t, rfl⟩
  cases i with
  | regBuild => exact absurd rfl h1
  | lrc => exact ⟨_, _, rfl, rfl, same_bind h.readInput fun _ => rfl⟩
  | lrcUpd => exact ⟨_, _, rfl, rfl, same_bind h.read fun _ => same_bind h.readInput fun _ => rfl⟩
  | crc16 => exact ⟨_, _, rfl, rfl, same_bind h.readInput fun _ => rfl⟩
  | crc16Upd => exact ⟨_, _, rfl, rfl, same_bind h.read fun _ => same_bind h.readInput fun _ => rfl⟩
  | crc16Fin => exact ⟨_, _, rfl, rfl, same_bind h.read fun _ => rfl⟩
  | hdrDec => exact ⟨_, _, rfl, rfl, same_bind h.readInput fun _ => rfl⟩
  | hdrEnc =>
    exact ⟨_, _, rfl, rfl, same_bind h.read fun _ => same_bind h.read fun _ => same_bind rfl fun _ => by rw [h.caps]⟩
  | resolve => exact ⟨_, _, rfl, rfl, same_bind h.requireRun fun _ => same_bind h.read fun _ => by rw [h.reg]⟩
  | cmdEnc =>
    refine ⟨_, _, rfl, rfl, same_bind h.requireRun fun _ => same_bind h.read fun id => ?_⟩
    rw [h.reg]
    cases regLookup t.reg id with
    | none => rfl
    | some codec => exact same_bind h.read fun _ => by rw [h.caps]
  | cmdDec =>
    refine ⟨_, _, rfl, rfl, same_bind h.requireRun fun _ => same_bind h.read fun n => ?_⟩
    split
    · rfl
    · exact same_bind h.readInput fun _ => same_bind h.read fun _ => by rw [h.caps, h.reg]
  | msgPack => exact ⟨_, _, rfl, rfl, h.packMessage _⟩
  | msgUnpack => exact ⟨_, _, rfl, rfl, same_bind (h.msgUnpack _ h.readInput) fun _ => rfl⟩
  | escape => exact ⟨_, _, rfl, rfl, same_bind h.readInput fun _ => by rw [h.caps]⟩
  | unescape => exact ⟨_, _, rfl, rfl, same_bind h.readInput fun _ => rfl⟩
  | frameEnc =>
    exact ⟨_, _, rfl, rfl, same_bind h.read fun _ => same_bind h.read fun _ => same_bind h.read fun _ =>
      same_bind h.readInput fun _ => by rw [h.caps]⟩
  | frameDec => exact ⟨_, _, rfl, rfl, same_bind h.readInput fun _ => rfl⟩
  | frameMsgDec =>
    exact ⟨_, _, rfl, rfl, same_bind h.requireAccess fun _ => same_bind h.readInput fun _ => same_bind rfl fun _ =>
      same_bind h.read fun _ => same_bind (h.unpackMessage _ _ _ _) fun _ => rfl⟩
  | message mid region chk => exact ⟨_, _, rfl, rfl, same_bind (h.msgUnpack _ rfl) fun _ => rfl⟩
  | _ => exact absurd rfl hop

end

/-- Settles O44: the outcome is a function of what the two states share. -/
theorem outcomeDependsOnOperandsAlone : Obligations.OutcomeDependsOnOperandsAlone := by
  intro i s t h2 hph hreg hcaps hopnd
  have h : LookAlike i s t := ⟨hph, hreg, hcaps, hopnd⟩
  show SameAnswer (exec i s) (exec i t)
  by_cases h1 : i = .regBuild
  · subst h1
    exact regBuild_sameAnswer h
  · obtain ⟨r, _, hs, ht, rfl⟩ := exec_sameEnd h1 h2 h
    rw [hs, ht]
    exact h.finish r

/-! ## Unwritten operands -/

/-- An operation ends in a fault only where it reads an element that holds no value. -/
theorem finish_fault {s : State} {r : Except Stop Results} {f : Fault} (h : s.finish r = .fault f) :
    ∃ e, r = .error (.noValue e) ∧ f = .noValue e := by
  match r, h with
  | .ok res, h => cases h
  | .error (.raise k), h => cases h
  | .error (.noValue e), h => cases h; exact ⟨e, rfl, rfl⟩

/-- The only fault of an instruction is a read of an operand element that it needs and that holds no value. -/
theorem exec_fault {i : Instr} {s : State} {f : Fault} (h : exec i s = .fault f) : ∃ e, f = .noValue e ∧ Unwritten i s e := by
  by_cases h1 : i = .regBuild
  · subst h1
    simp only [exec, execRegBuild] at h
    split at h
    · cases h
    · split at h <;> cases h
  by_cases h2 : encodeSpace i = .access
  · cases i with
    | accessCode a => cases h
    | _ => cases h2
  obtain ⟨r, hr, hends⟩ := exec_meets s i h1 h2
  rw [hr] at h
  obtain ⟨e, rfl, rfl⟩ := finish_fault h
  exact ⟨e, rfl, hends⟩

/-- An instruction that lacks an operand it needs faults or raises. -/
theorem exec_of_unwritten {i : Instr} {s : State} {e : Element} (he : Unwritten i s e) :
    (∃ e', exec i s = .fault (.noValue e')) ∨ (∃ k, exec i s = .next (s.raise k)) := by
  obtain ⟨hmem, hneed, hheld⟩ := he
  have h1 : i ≠ .regBuild := by
    rintro rfl
    cases List.mem_singleton.1 hmem
    cases hheld
  have h2 : encodeSpace i ≠ .access := by
    intro h
    cases i with
    | accessCode a => cases hmem
    | _ => cases h
  obtain ⟨r, hr, hends⟩ := exec_meets s i h1 h2
  match r, hr with
  | .ok res, hr => rw [hends.held e hmem hneed] at hheld; cases hheld
  | .error (.raise k), hr => exact .inr ⟨k, hr⟩
  | .error (.noValue e'), hr => exact .inl ⟨e', hr⟩

/-- The operations that read their input first. -/
theorem exec_of_readInput_error {s : State} {i : Instr} {e : Element}
    (hi : i ∈ [Instr.lrc, .crc16, .hdrDec, .escape, .unescape, .frameDec])
    (h : s.cur.opnd.readInput = .error (.noValue e)) : exec i s = .fault (.noValue e) := by
  simp only [List.mem_cons, List.not_mem_nil, or_false] at hi
  rcases hi with rfl | rfl | rfl | rfl | rfl | rfl <;>
    simp [exec, execLrc, execCrc16, execHdrDec, execEscape, execUnescape, execFrameDec, h]

theorem readInput_of_ilen_none {o : Operands} (h : o.ilen = none) : o.readInput = .error (.noValue .ilen) := by
  simp [Operands.readInput, h]

theorem readInput_of_bytes_none {o : Operands} (h : o.ilen ≠ none) (hb : o.inputBytes = none) :
    o.readInput = .error (.noValue .ibuf) := by
  cases hr : o.readInput with
  | ok b => rw [readInput_ok hr] at hb; cases hb
  | error st =>
    rcases readInput_eq_error hr with ⟨hn, _⟩ | ⟨_, _, rfl⟩
    · exact absurd hn h
    · rfl

theorem requireAccess_of_none {s : State} (hp : s.phase = .run) (ha : s.cur.opnd.access = none) :
    requireAccess s = .error (.noValue .access) := by
  simp [requireAccess, requireRun_run hp, Operands.readAccess, ha]

theorem readAccess_ne {s : State} (h : s.cur.opnd.access ≠ none) (h3 : s.cur.opnd.access ≠ some 3) :
    ∃ a, s.cur.opnd.access = some a ∧ a ≠ 3 := by
  obtain ⟨a, ha⟩ := Option.ne_none_iff_exists'.1 h
  exact ⟨a, ha, fun h' => h3 (h' ▸ ha)⟩

/-- Settles O47: the two general clauses are what every row meets; the others name the first element each rule reads. -/
theorem unwrittenOperandsFault : Obligations.UnwrittenOperandsFault := by
  refine ⟨fun i s f h => ?_, fun i s e hmem hneed hheld => exec_of_unwritten ⟨hmem, hneed, hheld⟩,
    fun s i hi => ⟨fun hn => exec_of_readInput_error hi (readInput_of_ilen_none hn),
      fun hn hb => exec_of_readInput_error hi (readInput_of_bytes_none hn hb)⟩, ?_, ?_, ?_, ?_, ?_, ?_, ?_, ?_, ?_, ?_⟩
  · obtain ⟨e, rfl, hmem, hneed, hheld⟩ := exec_fault h
    exact ⟨e, hmem, rfl, hneed, hheld⟩
  · intro s i hi ha
    simp only [List.mem_cons, List.not_mem_nil, or_false] at hi
    rcases hi with rfl | rfl | rfl <;> simp [exec, execLrcUpd, execCrc16Upd, execCrc16Fin, Operands.readAccin, ha]
  · intro s hid
    simp [exec, execHdrEnc, Operands.readCmdid, hid]
  · intro s hid hsize
    obtain ⟨id, hid⟩ := Option.ne_none_iff_exists'.1 hid
    simp [exec, execHdrEnc, Operands.readCmdid, Operands.readCmdsize, hid, hsize]
  · intro s i hi hp hid
    simp only [List.mem_cons, List.not_mem_nil, or_false] at hi
    rcases hi with rfl | rfl <;> simp [exec, execResolve, execCmdEnc, requireRun_run hp, Operands.readCmdid, hid]
  · intro s hp hn
    simp [exec, execCmdDec, requireRun_run hp, Operands.readIlen, hn]
  · intro s ha
    simp [exec, execMsgPack, packMessage, Operands.readAccess, ha]
  · intro s ha h3 hk
    obtain ⟨a, ha, ha3⟩ := readAccess_ne ha h3
    simp only [exec, execMsgPack, packMessage, requireKey, Operands.readAccess, Operands.readKeyv, ha, hk,
      readElement_some, readElement_none, ok_bind, error_bind, if_neg ha3, finish_noValue]
  · intro s i hi hp ha
    simp only [List.mem_cons, List.not_mem_nil, or_false] at hi
    rcases hi with rfl | rfl <;> simp [exec, execMsgUnpack, execFrameMsgDec, msgUnpack, requireAccess_of_none hp ha]
  · intro s hp ha h3 hk
    obtain ⟨a, ha, ha3⟩ := readAccess_ne ha h3
    simp only [exec, execMsgUnpack, msgUnpack, requireAccess_run hp ha, Operands.readKeyv, hk, readElement_none,
      ok_bind, error_bind, if_neg ha3, finish_noValue]
  · intro s hty
    simp [exec, execFrameEnc, Operands.readFtype, hty]

end Sys2Proof.Machine
end

section
/-! PROOFS. The invariant of the block (10_state.md R11, R13 to R16; 20_memory.md R30, R31): every move keeps it. -/

namespace Sys2Proof.Machine

open Sys2Proof

/-! ## The parts of an engine's invariant -/

/-- The clauses of `Engine.Inv` about operand elements. -/
structure Operands.Fits (caps : Capacities) (o : Operands) : Prop where
  ibuf_wf : o.ibuf.wf = true
  ibuf_cap : ∀ c ∈ o.ibuf.cells, belowCap caps.bufMax c.1 = true
  ilen_cap : ∀ n, o.ilen = some n → withinCap caps.bufMax n = true
  cq_cap : ∀ l, o.cq = some l → withinCap caps.cqMax l.length = true

theorem engineInv_iff {caps : Capacities} {e : Engine} :
    e.Inv caps ↔ e.opnd.Fits caps ∧ e.res.Fits caps ∧ (e.status ≠ .ok → e.res = Results.invalid) :=
  ⟨fun h => ⟨⟨h.ibuf_wf, h.ibuf_cap, h.ilen_cap, h.cq_cap⟩,
    ⟨h.obuf_olen, h.olen_cap, h.rq_cap, h.hsize_ne, h.found_one⟩, h.error_invalid⟩,
   fun ⟨ho, hr, hst⟩ => ⟨ho.ibuf_wf, ho.ibuf_cap, ho.ilen_cap, ho.cq_cap, hr.obuf_olen, hr.olen_cap, hr.rq_cap,
    hr.hsize_ne, hr.found_one, hst⟩⟩

/-- The invariant speaks of `IBUF`, `ILEN` and `CQ` alone among the operand elements. -/
theorem Operands.Fits.congr {caps : Capacities} {o o' : Operands} (h : o.Fits caps) (hibuf : o'.ibuf = o.ibuf)
    (hilen : o'.ilen = o.ilen) (hcq : o'.cq = o.cq) : o'.Fits caps :=
  ⟨hibuf ▸ h.ibuf_wf, hibuf ▸ h.ibuf_cap, hilen ▸ h.ilen_cap, hcq ▸ h.cq_cap⟩

theorem fits_unwritten (caps : Capacities) : Operands.unwritten.Fits caps := ⟨rfl, nofun, nofun, nofun⟩

theorem engineReset_inv (caps : Capacities) : Engine.reset.Inv caps :=
  engineInv_iff.2 ⟨fits_unwritten caps, fits_invalid caps, fun h => absurd rfl h⟩

/-! ## States that differ from one that meets the invariant -/

section
variable {s : State}

theorem mem_engines {e : Engine} : e ∈ s.engines ↔ e ∈ s.pre ∨ e = s.cur ∨ e ∈ s.post := by
  simp [State.engines]

theorem State.Inv.cur (h : s.Inv) : s.cur.Inv s.caps := h.engines _ (mem_engines.2 (.inr (.inl rfl)))

theorem State.Inv.withCur (h : s.Inv) {c : Engine} (hc : c.Inv s.caps) : { s with cur := c }.Inv := by
  refine ⟨fun e he => ?_, h.reg_build, h.reg_wf⟩
  rcases mem_engines.1 he with he | rfl | he
  · exact h.engines e (mem_engines.2 (.inl he))
  · exact hc
  · exact h.engines e (mem_engines.2 (.inr (.inr he)))

theorem State.Inv.withOpnd (h : s.Inv) {o : Operands} (ho : o.Fits s.caps) :
    { s with cur := { s.cur with opnd := o } }.Inv :=
  h.withCur (engineInv_iff.2 ⟨ho, (engineInv_iff.1 h.cur).2⟩)

theorem State.Inv.opnd_fits (h : s.Inv) : s.cur.opnd.Fits s.caps := (engineInv_iff.1 h.cur).1

theorem State.Inv.withPending (h : s.Inv) (p : List Move) : { s with pending := p }.Inv :=
  ⟨h.engines, h.reg_build, h.reg_wf⟩

theorem State.Inv.raise (h : s.Inv) (k : ErrorKind) : (s.raise k).Inv :=
  h.withCur (engineInv_iff.2 ⟨h.opnd_fits, fits_invalid _, fun _ => rfl⟩)

theorem State.Inv.complete (h : s.Inv) {r : Results} (hr : r.Fits s.caps) : (s.complete r).Inv :=
  h.withCur (engineInv_iff.2 ⟨h.opnd_fits, hr, fun hne => absurd rfl hne⟩)

/-- The registry that `REG_BUILD` builds (42_registry.md R98). -/
theorem State.Inv.build (h : s.Inv) (hd : hasDuplicateId s.registry = false) :
    { s with reg := regOfList s.registry, phase := .run }.Inv :=
  ⟨h.engines, nofun, regRises_ofList _ hd⟩

theorem hostReset_inv : (hostReset s).Inv := by
  refine ⟨fun e he => ?_, fun _ => rfl, rfl⟩
  have hreset : e = Engine.reset := by
    rcases mem_engines.1 he with h | h | h
    · exact (List.mem_map.1 h).elim fun _ hx => hx.2.symm
    · exact h
    · exact (List.mem_map.1 h).elim fun _ hx => hx.2.symm
  exact hreset ▸ engineReset_inv _

end

/-! ## Instructions -/

/-- An instruction whose input the host can present keeps the invariant. -/
theorem exec_keeps_inv {i : Instr} {s t : State} (hinv : s.Inv) (hout : withinCap s.caps.bufMax (itemOutput i) = true)
    (h : exec i s = .next t) : t.Inv := by
  by_cases h2 : encodeSpace i = .access
  · obtain ⟨a, rfl⟩ := accessCode_next h2 h
    exact hinv.withOpnd (hinv.opnd_fits.congr rfl rfl rfl)
  by_cases h1 : i = .regBuild
  · subst h1
    rcases regBuild_next h with ⟨_, rfl⟩ | ⟨_, _, rfl⟩ | ⟨_, hd, rfl⟩
    · exact hinv.raise _
    · exact hinv.raise _
    · exact (hinv.build hd).complete (fits_invalid _)
  · obtain ⟨r, hr, hends⟩ := exec_meets s i h1 h2
    rw [hr] at h
    rcases finish_next h with ⟨res, rfl, rfl⟩ | ⟨k, _, rfl⟩
    · exact hinv.complete (hends.fits ⟨hinv.opnd_fits.ilen_cap, hout⟩)
    · exact hinv.raise k

/-! ## The instruction a move runs -/

theorem decodeOp_space : ∀ c : BitVec 5, encodeSpace (decodeOp c) = .op := by decide

theorem decodeOp_regBuild : ∀ c : BitVec 5, decodeOp c = .regBuild → c = 0x08 := by decide

theorem decodeHeader_space {w : Bytes} {i : Instr} (h : decodeHeader w = .ok i) : encodeSpace i = .header := by
  unfold decodeHeader at h
  repeat' split at h
  all_goals cases h <;> rfl

theorem decodeEscapePair_space (f : Byte) :
    encodeSpace (decodeEscapePair f) = .escapeItem ∧ (encodeBytes (decodeEscapePair f)).length = 2 := by
  unfold decodeEscapePair
  repeat' split
  all_goals exact ⟨rfl, rfl⟩

/-- An escape item decodes to a row of its own length. -/
theorem decodeEscapeItem_ok {w : Bytes} {i : Instr} (h : decodeEscapeItem w = .ok i) :
    encodeSpace i = .escapeItem ∧ (encodeBytes i).length = w.length := by
  unfold decodeEscapeItem at h
  split at h
  · cases h
  · split at h
    · cases h
    · cases h; exact ⟨rfl, rfl⟩
  · split at h
    · cases h; exact decodeEscapePair_space _
    · cases h
  · cases h

/-- A frame decodes to a row whose message is shorter than the frame. -/
theorem decodeFrame_ok {w : Bytes} {i : Instr} (h : decodeFrame w = .ok i) :
    encodeSpace i = .frame ∧ itemOutput i ≤ w.length := by
  unfold decodeFrame at h
  split at h
  · cases h
  · next body crc hs =>
    split at h
    · cases h
    · next f hf =>
      cases h
      have h1 := frameSplit_length hs
      have h2 := frameFields_length hf
      exact ⟨rfl, by simp only [itemOutput]; omega⟩

theorem decodeMessage_space {w : Bytes} {i : Instr} (h : decodeMessage w = .ok i) : encodeSpace i = .message := by
  unfold decodeMessage at h
  split at h
  · cases h; rfl
  · cases h

/-- What decodes in a space is a row of that space. -/
theorem decode_space {sp : Space} {w : Bytes} {i : Instr} (h : decode sp w = .ok i) : encodeSpace i = sp := by
  cases sp with
  | header => exact decodeHeader_space h
  | escapeItem => exact (decodeEscapeItem_ok h).1
  | frame => exact (decodeFrame_ok h).1
  | message => exact decodeMessage_space h
  | op =>
    simp only [decode] at h
    split at h
    · split at h
      · cases h; exact decodeOp_space _
      · cases h
    · cases h
  | delimiter =>
    simp only [decode] at h
    split at h
    · split at h
      · cases h; rfl
      · cases h
    · cases h
  | access =>
    simp only [decode] at h
    split at h
    · split at h
      · cases h; rfl
      · cases h
    · cases h
  | status =>
    simp only [decode] at h
    split at h
    · split at h
      · cases h; rfl
      · cases h
    · cases h

/-- Only escape items and frames bring bytes for `OBUF`. -/
theorem itemOutput_eq_zero {i : Instr} (h1 : encodeSpace i ≠ .escapeItem) (h2 : encodeSpace i ≠ .frame) :
    itemOutput i = 0 := by
  rw [itemOutput_of_ne h2, if_neg h1]

/-- A row puts no more bytes into `OBUF` than its word has. -/
theorem decode_itemOutput {sp : Space} {w : Bytes} {i : Instr} (h : decode sp w = .ok i) : itemOutput i ≤ w.length := by
  by_cases h1 : sp = .escapeItem
  · subst h1
    obtain ⟨hsp, hlen⟩ := decodeEscapeItem_ok h
    rw [itemOutput_of_ne (by simp [hsp]), if_pos hsp, hlen]
  by_cases h2 : sp = .frame
  · subst h2
    exact (decodeFrame_ok h).2
  · rw [← decode_space h] at h1 h2
    rw [itemOutput_eq_zero h1 h2]
    exact Nat.zero_le _

theorem decode_regBuild {sp : Space} {w : Bytes} (h : decode sp w = .ok .regBuild) : sp = .op ∧ w = [0x08] := by
  obtain rfl : Space.op = sp := decode_space h
  refine ⟨rfl, ?_⟩
  simp only [decode] at h
  split at h
  · next b =>
    split at h
    · next hb =>
      have h8 : b.toNat % 32 = 8 := congrArg BitVec.toNat (decodeOp_regBuild _ (Except.ok.inj h))
      have hb8 : b = 0x08 := BitVec.eq_of_toNat_eq (show b.toNat = 8 by omega)
      rw [hb8]
    · cases h
  · cases h

/-! ## Host writes -/

theorem mem_cellsWrite {l : List Host.Cell} {i : Nat} {b : Byte} {c : Host.Cell} (h : c ∈ cellsWrite l i b) :
    c.1 = i ∨ c ∈ l := by
  induction l with
  | nil => simp only [cellsWrite, List.mem_singleton] at h; exact .inl (by rw [h])
  | cons d rest ih =>
    obtain ⟨a, v⟩ := d
    simp only [cellsWrite] at h
    split at h
    · rcases List.mem_cons.1 h with rfl | h
      · exact .inl rfl
      · exact .inr h
    · split at h
      · rcases List.mem_cons.1 h with rfl | h
        · exact .inl rfl
        · exact .inr (List.mem_cons_of_mem _ h)
      · rcases List.mem_cons.1 h with rfl | h
        · exact .inr List.mem_cons_self
        · exact (ih h).imp_right (List.mem_cons_of_mem _)

/-- The cells of a sequence that is written are at its own indexes. -/
theorem mem_writeSeq {s : Bytes} : ∀ {m : Memory} {i : Nat} {c : Host.Cell}, c ∈ (m.writeSeq i s).cells →
    c.1 < i + s.length ∨ c ∈ m.cells := by
  induction s with
  | nil => intro m i c h; exact .inr h
  | cons b rest ih =>
    intro m i c h
    simp only [List.length_cons]
    rcases ih h with h | h
    · left; omega
    · rcases mem_cellsWrite h with h | h
      · left; omega
      · exact .inr h

theorem belowCap_of_lt {cap : Option Nat} {i n : Nat} (hi : i < n) (hn : withinCap cap n = true) : belowCap cap i = true := by
  cases cap with
  | none => rfl
  | some m =>
    simp only [withinCap, belowCap, decide_eq_true_eq] at *
    omega

/-- What a host write does: it changes operand elements within their bounds, or the `REGISTRY` list. -/
theorem hostWrite_next {w : HostWrite} {s t : State} (h : hostWrite w s = .next t) :
    (∃ o, t = { s with cur := { s.cur with opnd := o } } ∧ (s.cur.opnd.Fits s.caps → o.Fits s.caps)) ∨
    (∃ l, t = { s with registry := l }) := by
  cases w with
  | registry l => cases h; exact .inr ⟨l, rfl⟩
  | ibufByte i b =>
    simp only [hostWrite] at h
    split at h
    · next hi =>
      cases h
      refine .inl ⟨_, rfl, fun hf => ⟨write_wf hf.ibuf_wf i b, fun c hc => ?_, hf.ilen_cap, hf.cq_cap⟩⟩
      rcases mem_cellsWrite hc with rfl | hc
      · exact hi
      · exact hf.ibuf_cap c hc
    · cases h
  | ibuf b =>
    simp only [hostWrite] at h
    split at h
    · next hb =>
      cases h
      refine .inl ⟨_, rfl, fun hf => ⟨writeSeq_wf b hf.ibuf_wf 0, fun c hc => ?_, ?_, hf.cq_cap⟩⟩
      · rcases mem_writeSeq hc with hc | hc
        · exact belowCap_of_lt hc (by simpa using hb)
        · exact hf.ibuf_cap c hc
      · rintro n ⟨⟩; exact hb
    · cases h
  | ilen n =>
    simp only [hostWrite] at h
    split at h
    · next hn =>
      cases h
      exact .inl ⟨_, rfl, fun hf => ⟨hf.ibuf_wf, hf.ibuf_cap, by rintro m ⟨⟩; exact hn, hf.cq_cap⟩⟩
    · cases h
  | cq l =>
    simp only [hostWrite] at h
    split at h
    · next hl =>
      cases h
      exact .inl ⟨_, rfl, fun hf => ⟨hf.ibuf_wf, hf.ibuf_cap, hf.ilen_cap, by rintro m ⟨⟩; exact hl⟩⟩
    · cases h
  | _ => cases h; exact .inl ⟨_, rfl, fun hf => hf.congr rfl rfl rfl⟩

theorem hostWrite_keeps_inv {w : HostWrite} {s t : State} (hinv : s.Inv) (h : hostWrite w s = .next t) : t.Inv := by
  rcases hostWrite_next h with ⟨o, rfl, ho⟩ | ⟨l, rfl⟩
  · exact hinv.withOpnd (ho hinv.opnd_fits)
  · exact ⟨hinv.engines, hinv.reg_build, hinv.reg_wf⟩

theorem hostWrite_keeps_reg {w : HostWrite} {s t : State} (h : hostWrite w s = .next t) :
    t.reg = s.reg ∧ t.phase = s.phase := by
  rcases hostWrite_next h with ⟨o, rfl, _⟩ | ⟨l, rfl⟩ <;> exact ⟨rfl, rfl⟩

/-- Turning to another engine changes no engine. -/
theorem hostSelect_next {k : Nat} {s t : State} (h : hostSelect k s = .next t) :
    t.engines = s.engines ∧ t.caps = s.caps ∧ t.reg = s.reg ∧ t.phase = s.phase := by
  unfold hostSelect at h
  split at h
  · next e he =>
    cases h
    obtain ⟨hk, rfl⟩ := List.getElem?_eq_some_iff.1 he
    refine ⟨?_, rfl, rfl, rfl⟩
    show s.engines.take k ++ s.engines[k] :: s.engines.drop (k + 1) = s.engines
    rw [List.getElem_cons_drop, List.take_append_drop]
  · cases h

/-! ## Steps -/

/-- Everything a step that answers a next state can do, by the oldest pending move. -/
inductive StepCase (s t : State) : Prop where
  /-- No move, a read, or moves given up. -/
  | quiet (p : List Move) (ht : t = { s with pending := p })
  | issue (op : BitVec 5) (rest : List Move) (hp : s.pending = .issue op :: rest)
      (h : exec (decodeOp op) { s with pending := rest } = .next t)
  | item (sp : Space) (w : Bytes) (i : Instr) (rest : List Move) (hp : s.pending = .item sp w :: rest)
      (hd : decode sp w = .ok i) (hcap : withinCap s.caps.bufMax w.length = true)
      (h : exec i { s with pending := rest } = .next t)
  /-- A host write, or a copy of `OBUF` or `ACCOUT`, which is one. -/
  | write (w : HostWrite) (rest : List Move) (h : hostWrite w { s with pending := rest } = .next t)
  | select (k : Nat) (rest : List Move) (h : hostSelect k { s with pending := rest } = .next t)
  | reset (rest : List Move) (hp : s.pending = .reset :: rest) (ht : t = hostReset { s with pending := rest })

theorem hostRead_next {e : Element} {s t : State} (h : hostRead e s = .next t) : t = s := by
  unfold hostRead at h
  split at h
  · split at h <;> cases h
    rfl
  · cases h

theorem hostReadObuf_next {i : Nat} {s t : State} (h : hostReadObuf i s = .next t) : t = s := by
  unfold hostReadObuf at h
  split at h <;> cases h
  rfl

theorem hostCopyObuf_next {s t : State} (h : hostCopyObuf s = .next t) : ∃ w, hostWrite w s = .next t := by
  unfold hostCopyObuf at h
  split at h
  · exact ⟨_, h⟩
  · cases h

theorem hostCopyAccout_next {s t : State} (h : hostCopyAccout s = .next t) : ∃ w, hostWrite w s = .next t := by
  unfold hostCopyAccout at h
  split at h
  · exact ⟨_, h⟩
  · cases h

theorem hostSkipUnlessOk_next {n : Nat} {s t : State} (h : hostSkipUnlessOk n s = .next t) :
    ∃ p, t = { s with pending := p } := by
  unfold hostSkipUnlessOk at h
  split at h <;> cases h
  · exact ⟨_, rfl⟩
  · exact ⟨_, rfl⟩

theorem step_cases {s t : State} (h : step s = .next t) : StepCase s t := by
  unfold step nextMove at h
  cases hp : s.pending with
  | nil => rw [hp] at h; cases h; exact .quiet s.pending rfl
  | cons m rest =>
    rw [hp] at h
    cases m with
    | issue op => exact .issue op rest hp h
    | item sp w =>
      cases hd : decode sp w with
      | error e => simp [hd] at h
      | ok i =>
        simp only [hd] at h
        by_cases hcap : withinCap s.caps.bufMax w.length = true
        · simp only [hcap, if_true] at h; exact .item sp w i rest hp hd hcap h
        · simp [hcap] at h
    | write w => exact .write w rest h
    | read e => exact .quiet rest (hostRead_next h)
    | readObuf i => exact .quiet rest (hostReadObuf_next h)
    | copyObuf => obtain ⟨w, hw⟩ := hostCopyObuf_next h; exact .write w rest hw
    | copyAccout => obtain ⟨w, hw⟩ := hostCopyAccout_next h; exact .write w rest hw
    | skipUnlessOk n => obtain ⟨p, rfl⟩ := hostSkipUnlessOk_next h; exact .quiet p rfl
    | select k => exact .select k rest h
    | reset => cases h; exact .reset rest hp rfl

/-- Settles O51: instructions keep the invariant by what they deliver, host writes by the tests of the capacities. -/
theorem stepKeepsTheInvariant : Obligations.StepKeepsTheInvariant := by
  intro s t hinv h
  cases step_cases h with
  | quiet p ht => exact ht ▸ hinv.withPending p
  | issue op rest hp h =>
    have hsp := decodeOp_space op
    have hout : itemOutput (decodeOp op) = 0 := itemOutput_eq_zero (by simp [hsp]) (by simp [hsp])
    exact exec_keeps_inv (hinv.withPending rest) (by rw [hout]; exact withinCap_zero _) h
  | item sp w i rest hp hd hcap h =>
    exact exec_keeps_inv (hinv.withPending rest) (withinCap_mono (decode_itemOutput hd) hcap) h
  | write w rest h => exact hostWrite_keeps_inv (hinv.withPending rest) h
  | select k rest h =>
    obtain ⟨heng, hcaps, hreg, hph⟩ := hostSelect_next h
    have hp := hinv.withPending rest
    exact ⟨by rw [heng, hcaps]; exact hp.engines, by rw [hph, hreg]; exact hp.reg_build, by rw [hreg]; exact hp.reg_wf⟩
  | reset rest hp ht => exact ht ▸ hostReset_inv

/-- `REG_BUILD` leaves `REG` and `PHASE` alone, or takes `PHASE` from `BUILD` to `RUN`. -/
theorem regBuild_phase {s t : State} (h : exec .regBuild s = .next t) :
    (t.reg = s.reg ∧ t.phase = s.phase) ∨ (s.phase = .build ∧ t.phase = .run) := by
  rcases regBuild_next h with ⟨_, rfl⟩ | ⟨_, _, rfl⟩ | ⟨hp, _, rfl⟩
  · exact .inl ⟨rfl, rfl⟩
  · exact .inl ⟨rfl, rfl⟩
  · exact .inr ⟨hp, rfl⟩

/-- Settles O43, by the move a step carries out. -/
theorem onlyRegBuildAndResetChangeTheRegistry : Obligations.OnlyRegBuildAndResetChangeTheRegistry := by
  intro s t h
  cases step_cases h with
  | quiet p ht => subst ht; exact .inl ⟨rfl, rfl⟩
  | issue op rest hp h =>
    by_cases hi : decodeOp op = .regBuild
    · obtain rfl := decodeOp_regBuild op hi
      exact (regBuild_phase h).imp_right fun ⟨hb, hr⟩ => .inl ⟨hb, hr, rest, .inl hp⟩
    · exact .inl (by simpa using exec_keeps_reg hi h)
  | item sp w i rest hp hd _ h =>
    by_cases hi : i = .regBuild
    · subst hi
      obtain ⟨rfl, rfl⟩ := decode_regBuild hd
      exact (regBuild_phase h).imp_right fun ⟨hb, hr⟩ => .inl ⟨hb, hr, rest, .inr hp⟩
    · exact .inl (by simpa using exec_keeps_reg hi h)
  | write w rest h => exact .inl (by simpa using hostWrite_keeps_reg h)
  | select k rest h =>
    obtain ⟨_, _, hreg, hph⟩ := hostSelect_next h
    exact .inl ⟨hreg, hph⟩
  | reset rest hp ht => subst ht; exact .inr (.inr ⟨rfl, rfl, rest, hp⟩)

/-! ## Reset -/

/-- Settles O48: every element of the reset state is as R22 lists it. -/
theorem resetLeavesNothing : Obligations.ResetLeavesNothing := by
  refine ⟨rfl, rfl, rfl, rfl, rfl, rfl, fun e => ?_, fun e he => ?_, empty_read, empty_read⟩
  · cases e <;> rfl
  · cases e with
    | registry => exact absurd rfl he
    | _ => rfl

/-- Settles O50: the reset state is what the reset event makes of it. -/
theorem resetMeetsTheInvariant : Obligations.ResetMeetsTheInvariant :=
  hostReset_inv (s := State.reset)

end Sys2Proof.Machine
end

section
/-! PROOFS. Buffers, capacities and the host's accesses (20_memory.md R30, R31, R35, R37). -/

namespace Sys2Proof.Machine

open Sys2Proof

/-! ## Two-byte accesses -/

theorem read16_of_read {m : Memory} {i : Nat} {hi lo : Byte} (hhi : m.read i = some hi) (hlo : m.read (i + 1) = some lo) :
    m.read16 i = some (be16 hi lo) := by
  simp only [Memory.read16, hhi, hlo]

theorem read_write16_hi (m : Memory) (i : Nat) (v : Half) : (m.write16 i v).read i = some (hiByte v) := by
  rw [Memory.write16, read_write_ne _ _ (Nat.ne_of_lt i.lt_succ_self), read_write_same]

theorem read_write16_lo (m : Memory) (i : Nat) (v : Half) : (m.write16 i v).read (i + 1) = some (loByte v) :=
  read_write_same _ _ _

theorem read_write16_ne (m : Memory) {i j : Nat} (v : Half) (h : j ≠ i) (h1 : j ≠ i + 1) :
    (m.write16 i v).read j = m.read j := by
  rw [Memory.write16, read_write_ne _ _ h1, read_write_ne _ _ h]

theorem read16_write16 (m : Memory) (i : Nat) (v : Half) : (m.write16 i v).read16 i = some v := by
  rw [read16_of_read (read_write16_hi m i v) (read_write16_lo m i v), be16_hi_lo]

/-- Settles O55: a two-byte access is its two one-byte accesses, and the bytes of a word put together are the word. -/
theorem twoByteFieldsAreBigEndian : Obligations.TwoByteFieldsAreBigEndian := fun m i v hwf =>
  ⟨read16_write16 m i v, write16_wf hwf i v, read_write16_hi m i v, read_write16_lo m i v,
    fun _ h h1 => read_write16_ne m v h h1, fun _ _ hhi hlo => read16_of_read hhi hlo⟩

/-! ## Results that do not fit -/

/-- Settles O13: all that comes before the test of the capacity succeeds, and the test fails. -/
theorem resultsThatDoNotFitAreRefused : Obligations.ResultsThatDoNotFitAreRefused := by
  constructor
  · intro s id size w hid hsize henc hcap
    simp [exec, execHdrEnc, Operands.readCmdid, Operands.readCmdsize, hid, hsize, henc, hcap]
  · intro s id body hrun hid hbody hlen hcap
    have hshort : ¬ body.length > 255 := Nat.not_lt.2 hlen
    have hfull : withinCap s.caps.rqMax 1 = false := by simp [hcap, withinCap]
    simp [exec, execCmdDec, requireRun_run hrun, Operands.readIlen, inputBytes_ilen hbody, hshort, readInput_some hbody,
      Operands.readCmdid, hid, hfull]

/-! ## Issuing an operation again -/

theorem sameOperand_of_eq {s t : State} (hopnd : s.cur.opnd = t.cur.opnd) (hregistry : s.registry = t.registry)
    (e : Element) : sameOperand s t e := by
  cases e <;> simp [sameOperand, hopnd, hregistry]

/-- The state an operation answers looks to it like the state it was issued in. -/
theorem lookAlike_of_exec {i : Instr} {s t : State} (h1 : i ≠ .regBuild) (h2 : encodeSpace i ≠ .access)
    (h : exec i s = .next t) : LookAlike i s t := by
  obtain ⟨hreg, hphase⟩ := exec_keeps_reg h1 h
  obtain ⟨hregistry, _, _, hcaps, _⟩ := exec_keeps h
  exact ⟨hphase.symm, hreg.symm, hcaps.symm, fun e _ =>
    sameOperand_of_eq (exec_keeps_opnd h2 h).symm hregistry.symm e⟩

/-- An end reached once is reached again: it replaces the results and `STATUS`, and reads nothing of them. -/
theorem finish_again {s t : State} {r : Except Stop Results} (h : s.finish r = .next t) : t.finish r = .next t := by
  rcases finish_next h with ⟨res, rfl, rfl⟩ | ⟨k, rfl, rfl⟩ <;> rfl

theorem exec_again {i : Instr} {s t : State} (h1 : i ≠ .regBuild) (h : exec i s = .next t) : exec i t = .next t := by
  by_cases h2 : encodeSpace i = .access
  · cases i with
    | accessCode a => cases h; rfl
    | _ => cases h2
  · obtain ⟨r, _, hs, ht, rfl⟩ := exec_sameEnd h1 h2 (lookAlike_of_exec h1 h2 h)
    rw [ht]
    exact finish_again (hs.symm.trans h)

theorem regBuild_run {s : State} (h : s.phase = .run) : exec .regBuild s = .next (s.raise .illegalOperation) := by
  simp only [exec, execRegBuild, h]

/-- A `REG_BUILD` that ends `OK` has built, and leaves `PHASE = RUN` (42_registry.md R98). -/
theorem regBuild_ok_phase {s t : State} (h : exec .regBuild s = .next t) (hok : t.cur.status = .ok) : t.phase = .run := by
  rcases regBuild_next h with ⟨_, rfl⟩ | ⟨_, _, rfl⟩ | ⟨_, _, rfl⟩
  · cases hok
  · cases hok
  · rfl

/-- Settles O45: an operation does not change what it depends on, and `REG_BUILD` changes `PHASE`. -/
theorem repeatingAnOperationChangesNothing : Obligations.RepeatingAnOperationChangesNothing :=
  ⟨fun _ _ _ h1 h => exec_again h1 h, fun _ _ h hok => regBuild_run (regBuild_ok_phase h hok)⟩

/-! ## The host's writes and reads -/

section
variable {s : State} {rest : List Move}

theorem step_write {w : HostWrite} (h : s.pending = .write w :: rest) :
    step s = hostWrite w { s with pending := rest } := by
  simp only [step, nextMove, h]

theorem step_read {e : Element} (h : s.pending = .read e :: rest) : step s = hostRead e { s with pending := rest } := by
  simp only [step, nextMove, h]

theorem step_readObuf {i : Nat} (h : s.pending = .readObuf i :: rest) :
    step s = hostReadObuf i { s with pending := rest } := by
  simp only [step, nextMove, h]

end

theorem belowCap_iff {cap : Option Nat} {i : Nat} : belowCap cap i = true ↔ ∀ m, cap = some m → i < m := by
  cases cap <;> simp [belowCap]

/-- A sequence written at index 0 with its length is the input. -/
theorem inputBytes_writeSeq (o : Operands) (b : Bytes) :
    { o with ibuf := o.ibuf.writeSeq 0 b, ilen := some b.length }.inputBytes = some b :=
  readSeq_writeSeq o.ibuf b

section
variable (s : State)

/-! The writes that a capacity bounds (R31). -/

theorem hostWrite_ibuf (b : Bytes) :
    hostWrite (.ibuf b) s = if withinCap s.caps.bufMax b.length = true then
      .next { s with cur := { s.cur with
        opnd := { s.cur.opnd with ibuf := s.cur.opnd.ibuf.writeSeq 0 b, ilen := some b.length } } }
    else .fault (.doesNotFit .ibuf) := rfl

theorem hostWrite_ibufByte (i : Nat) (b : Byte) :
    hostWrite (.ibufByte i b) s = if belowCap s.caps.bufMax i = true then
      .next { s with cur := { s.cur with opnd := { s.cur.opnd with ibuf := s.cur.opnd.ibuf.write i b } } }
    else .fault (.doesNotFit .ibuf) := rfl

theorem hostWrite_ilen (n : Nat) :
    hostWrite (.ilen n) s = if withinCap s.caps.bufMax n = true then
      .next { s with cur := { s.cur with opnd := { s.cur.opnd with ilen := some n } } }
    else .fault (.doesNotFit .ilen) := rfl

theorem hostWrite_cq (l : List Command) :
    hostWrite (.cq l) s = if withinCap s.caps.cqMax l.length = true then
      .next { s with cur := { s.cur with opnd := { s.cur.opnd with cq := some l } } }
    else .fault (.doesNotFit .cq) := rfl

theorem hostRead_readable {e : Element} (he : hostReadable e = true) :
    hostRead e s = if elementHolds s e = true then .next s else .fault (.noValue e) :=
  if_pos he

theorem hostReadObuf_eq (i : Nat) :
    hostReadObuf i s = if (s.cur.res.obuf.read i).isSome = true then .next s else .fault (.noValue .obuf) := by
  unfold hostReadObuf
  cases s.cur.res.obuf.read i <;> rfl

end

/-- Settles O54: a move of the host is its write or read; a sequence and a byte written are read back by the rules of
buffers, and the other writes replace one element. -/
theorem hostWritesAreReadBack : Obligations.HostWritesAreReadBack := by
  refine ⟨fun s b rest hp => ⟨fun hfit => ?_, fun hover => ?_⟩, fun s i b rest hp => ⟨fun hlt => ?_, fun m hm hle => ?_⟩,
    fun s => ?_⟩
  · refine ⟨_, (step_write hp).trans ((hostWrite_ibuf _ b).trans (if_pos hfit)), inputBytes_writeSeq _ b, rfl, rfl, rfl, rfl,
      fun i hi => writeSeq_read_out b _ 0 i (.inr ?_)⟩
    rwa [Nat.zero_add]
  · exact (step_write hp).trans ((hostWrite_ibuf _ b).trans (if_neg (ne_true_of_eq_false hover)))
  · exact ⟨_, (step_write hp).trans ((hostWrite_ibufByte _ i b).trans (if_pos (belowCap_iff.2 hlt))),
      read_write_same _ i b, rfl, rfl, rfl, fun j hj => read_write_ne _ b hj⟩
  · exact (step_write hp).trans ((hostWrite_ibufByte _ i b).trans
      (if_neg fun hbelow => Nat.not_lt.2 hle (belowCap_iff.1 hbelow m hm)))
  · intro run put
    have hwrite : ∀ w, run (.write w) = hostWrite w s := fun _ => step_write rfl
    have hread : ∀ e, run (.read e) = hostRead e s := fun _ => step_read rfl
    exact ⟨fun v => hwrite (.accin v), fun v => hwrite (.cmdid v), fun v => hwrite (.cmdsize v),
      fun v => hwrite (.msgid v), fun v => hwrite (.access v), fun v => hwrite (.keyv v), fun v => hwrite (.key v),
      fun v => hwrite (.ftype v), fun v => hwrite (.dst v), fun v => hwrite (.src v), fun v => hwrite (.pin v),
      fun n hn => (hwrite _).trans ((hostWrite_ilen s n).trans (if_pos hn)),
      fun n hn => (hwrite _).trans ((hostWrite_ilen s n).trans (if_neg (ne_true_of_eq_false hn))),
      fun l hl => (hwrite _).trans ((hostWrite_cq s l).trans (if_pos hl)),
      fun l hl => (hwrite _).trans ((hostWrite_cq s l).trans (if_neg (ne_true_of_eq_false hl))),
      fun l => hwrite (.registry l), hread .status, hread .phase,
      fun e he => (hread e).trans (hostRead_readable s he),
      fun i => (step_readObuf rfl).trans (hostReadObuf_eq s i)⟩

end Sys2Proof.Machine
end

section
/-! PROOFS. The fields of a header byte (30_encoding.md R50 to R53), and that the header codec undoes itself. -/

namespace Sys2Proof.Machine

open Sys2Proof

/-! ## The two fields of a header byte -/

/-- The first byte of a header form: bits 7 to 5 and bits 4 to 0 (R50, R51). -/
def headerByte (top : BitVec 3) (low : BitVec 5) : Byte := (top.setWidth 8 <<< 5) ||| low.setWidth 8

theorem encodeBytes_hdrShort (top : BitVec 3) (size : BitVec 5) : encodeBytes (.hdrShort top size) = [headerByte top size] :=
  rfl

@[simp] theorem headerByte_top : ∀ (top : BitVec 3) (low : BitVec 5), (headerByte top low).extractLsb' 5 3 = top := by
  decide

@[simp] theorem headerByte_low : ∀ (top : BitVec 3) (low : BitVec 5), (headerByte top low).extractLsb' 0 5 = low := by
  decide

/-- Every byte is a header byte, of the two fields it is read by. -/
theorem headerByte_fields : ∀ b : Byte, headerByte (b.extractLsb' 5 3) (b.extractLsb' 0 5) = b := by decide

/-- The first byte of a medium or extended header is its low field alone. -/
theorem headerByte_zero : ∀ low : BitVec 5, headerByte 0 low = low.setWidth 8 := by decide

theorem headerByte_and_E0 : ∀ (top : BitVec 3) (low : BitVec 5), headerByte top low &&& 0xE0 = headerByte top 0 := by decide

theorem headerByte_and_1F : ∀ (top : BitVec 3) (low : BitVec 5), headerByte top low &&& 0x1F = low.setWidth 8 := by decide

theorem headerByte_eq_zero : ∀ top : BitVec 3, headerByte top 0 = 0 ↔ top = 0 := by decide

theorem zext16_headerByte : ∀ top : BitVec 3, zext16 (headerByte top 0) = top.setWidth 16 <<< 5 := by decide

theorem zext16_low : ∀ low : BitVec 5, zext16 (low.setWidth 8) = low.setWidth 16 := by decide

theorem low_eq_1F : ∀ low : BitVec 5, (low.setWidth 8 : Byte) = 0x1F ↔ low = 0x1F := by decide

/-! ## What the header decoder reads in each form -/

/-- The short form (R50, R86). -/
theorem hdrDec_headerByte {top : BitVec 3} (size : BitVec 5) (rest : Bytes) (h : top ≠ 0) :
    hdrDec (headerByte top size :: rest) =
      .ok { headerSize := 1, commandId := top.setWidth 16 <<< 5, commandSize := size.setWidth 8 } := by
  have hne : headerByte top size &&& 0xE0 ≠ 0 := by rwa [headerByte_and_E0, ne_eq, headerByte_eq_zero]
  rw [hdrDec_short rest hne, headerByte_and_E0, headerByte_and_1F, zext16_headerByte]

/-- The medium form (R51, R86). -/
theorem hdrDec_low {id : BitVec 5} (size : Byte) (rest : Bytes) (h : id ≠ 0x1F) :
    hdrDec (id.setWidth 8 :: size :: rest) =
      .ok { headerSize := 2, commandId := id.setWidth 16, commandSize := size } := by
  have h0 : (id.setWidth 8 : Byte) &&& 0xE0 = 0 := by rw [← headerByte_zero, headerByte_and_E0]; rfl
  rw [hdrDec_medium _ h0 (mt (low_eq_1F id).1 h), hdrDecMedium, zext16_low]

/-- The extended form (R52, R86). -/
theorem hdrDec_1F (idHigh size : Byte) (rest : Bytes) :
    hdrDec (0x1F#8 :: idHigh :: size :: rest) =
      .ok { headerSize := 3, commandId := be16 idHigh 0x1F, commandSize := size } := by
  rw [hdrDec_extended, hdrDecExtended]

/-! ## What the header encoder writes -/

/-- The ids of the short form are those with a non-zero field in bits 7 to 5 and nothing else (R50). -/
theorem isShortId_field {id : Half} (h : isShortId id = true) : ∃ top : BitVec 3, top ≠ 0 ∧ id = top.setWidth 16 <<< 5 := by
  simp only [isShortId, Bool.or_eq_true, beq_iff_eq] at h
  rcases h with (((((rfl | rfl) | rfl) | rfl) | rfl) | rfl) | rfl
  · exact ⟨1, by decide⟩
  · exact ⟨2, by decide⟩
  · exact ⟨3, by decide⟩
  · exact ⟨4, by decide⟩
  · exact ⟨5, by decide⟩
  · exact ⟨6, by decide⟩
  · exact ⟨7, by decide⟩

theorem loByte_field : ∀ top : BitVec 3, loByte (top.setWidth 16 <<< 5) = top.setWidth 8 <<< 5 := by decide

/-- A byte below 32 is a field of 5 bits. -/
theorem byte_of_lt_32 {b : Byte} (h : b.toNat < 32) : (b.setWidth 5).setWidth 8 = b := by
  apply BitVec.eq_of_toNat_eq
  simp only [BitVec.toNat_setWidth]
  omega

/-- A value below 32 is the field of its low byte. -/
theorem half_of_lt_32 {id : Half} (h : id.toNat < 32) :
    loByte id = (id.setWidth 5).setWidth 8 ∧ id = (id.setWidth 5).setWidth 16 := by
  constructor
  · apply BitVec.eq_of_toNat_eq
    simp only [loByte, BitVec.extractLsb'_toNat, BitVec.toNat_setWidth, Nat.shiftRight_zero]
    omega
  · apply BitVec.eq_of_toNat_eq
    simp only [BitVec.toNat_setWidth]
    omega

/-- What the header encoder writes: one of the three forms, with the fields of the id and the size (R50 to R52, R88). -/
theorem hdrEnc_cases {id : Half} {size : Byte} {w : Bytes} (h : hdrEnc id size = .ok w) :
    (∃ (top : BitVec 3) (low : BitVec 5), top ≠ 0 ∧ id = top.setWidth 16 <<< 5 ∧ size = low.setWidth 8 ∧
      w = [headerByte top low]) ∨
    (∃ idHigh : Byte, id = be16 idHigh 0x1F ∧ w = [0x1F, idHigh, size]) ∨
    (∃ low : BitVec 5, low ≠ 0x1F ∧ id = low.setWidth 16 ∧ w = [low.setWidth 8, size]) := by
  unfold hdrEnc at h
  split at h
  · next hshort =>
    obtain ⟨top, htop, rfl⟩ := isShortId_field hshort
    split at h
    · next hle =>
      have hsize := byte_of_lt_32 (Nat.lt_succ_of_le hle)
      cases h
      exact .inl ⟨top, size.setWidth 5, htop, rfl, hsize.symm, by rw [headerByte, loByte_field, hsize]⟩
    · cases h
  · split at h
    · next hlo =>
      cases h
      exact .inr (.inl ⟨hiByte id, by rw [← hlo, be16_hi_lo], rfl⟩)
    · next hlo =>
      split at h
      · next hle =>
        obtain ⟨hbyte, hid⟩ := half_of_lt_32 (Nat.lt_of_le_of_lt hle (by decide : 0x1E < 32))
        cases h
        exact .inr (.inr ⟨id.setWidth 5, fun h => hlo (by rw [hbyte, h]; rfl), hid, by rw [hbyte]⟩)
      · cases h

/-- The header decoder undoes the header encoder, whatever follows (R89). -/
theorem hdrDec_hdrEnc {id : Half} {size : Byte} {w : Bytes} (h : hdrEnc id size = .ok w) (rest : Bytes) :
    hdrDec (w ++ rest) = .ok { headerSize := w.length, commandId := id, commandSize := size } := by
  rcases hdrEnc_cases h with ⟨top, low, htop, rfl, rfl, rfl⟩ | ⟨idHigh, rfl, rfl⟩ | ⟨low, hlow, rfl, rfl⟩
  · exact hdrDec_headerByte low rest htop
  · exact hdrDec_1F idHigh size rest
  · exact hdrDec_low size rest hlow

end Sys2Proof.Machine
end

section
/-! PROOFS. The decoder and the encoder undo each other (30_encoding.md R46 to R60). -/

namespace Sys2Proof.Machine

open Sys2Proof

/-! ## Decoding what was encoded -/

theorem decodeHeader_short {top : BitVec 3} (size : BitVec 5) (h : top ≠ 0) :
    decodeHeader (encodeBytes (.hdrShort top size)) = .ok (.hdrShort top size) := by
  simpa [encodeBytes_hdrShort, decodeHeader] using h

theorem decodeHeader_medium {id : BitVec 5} (size : Byte) (h : id ≠ 0x1F) :
    decodeHeader (encodeBytes (.hdrMedium id size)) = .ok (.hdrMedium id size) := by
  simpa [encodeBytes, ← headerByte_zero, decodeHeader] using h

/-- A pair that has no row of its own (R59, R62). -/
theorem decodeEscapePair_any {f : Byte} (h : f ≠ 0x5E ∧ f ≠ 0x5D ∧ f ≠ 0x31 ∧ f ≠ 0x33) :
    decodeEscapePair f = .escAny f := by
  obtain ⟨h1, h2, h3, h4⟩ := h
  simp only [decodeEscapePair, if_neg h1, if_neg h2, if_neg h3, if_neg h4]

theorem decodeEscapeItem_pair (f : Byte) : decodeEscapeItem [0x7D, f] = .ok (decodeEscapePair f) := rfl

theorem decodeEscapeItem_literal {b : Byte} (h : b ≠ Config.esc) : decodeEscapeItem [b] = .ok (.literal b) :=
  if_neg h

/-- The fields of a frame body are those it was made of (R57). -/
@[simp] theorem frameFields_frameBody (type : Byte) (dst src : Half) (msg : Bytes) (crc : Half) :
    frameFields (frameBody type dst src msg) crc =
      .ok { type := type, dst := dst, src := src, msg := msg, crc := crc } := by
  simp [frameFields, frameBody, be16Bytes]

theorem frameBody_length (type : Byte) (dst src : Half) (msg : Bytes) :
    (frameBody type dst src msg).length = msg.length + 5 := by
  simp [frameBody, be16Bytes]

theorem frameSplit_frameBody (type : Byte) (dst src : Half) (msg : Bytes) (crc : Half) :
    frameSplit (frameWire (frameBody type dst src msg) crc) = .ok (frameBody type dst src msg, crc) :=
  frameSplit_frameWire crc (by rw [frameBody_length]; omega)

theorem decodeFrame_frameWire (type : Byte) (dst src : Half) (msg : Bytes) (crc : Half) :
    decodeFrame (frameWire (frameBody type dst src msg) crc) = .ok (.frame type dst src msg crc) := by
  simp only [decodeFrame, frameSplit_frameBody, frameFields_frameBody]

/-- A message is its first byte, the region and its last byte (R56). -/
theorem decodeMessage_parts (mid : Byte) (region : Bytes) (chk : Byte) :
    decodeMessage (mid :: (region ++ [chk])) = .ok (.message mid region chk) := by
  cases region with
  | nil => rfl
  | cons x r =>
    have hregion : (x :: (r ++ [chk])).dropLast = x :: r := by rw [← List.cons_append, List.dropLast_concat]
    have hchk : (x :: (r ++ [chk])).getLastD 0 = chk := by
      rw [← List.cons_append, List.getLastD_eq_getLast?, List.getLast?_concat]; rfl
    simp only [List.cons_append, decodeMessage, hregion, hchk]

theorem decode_reservedOp14to17 : ∀ low : BitVec 2,
    decode .op [0x14 ||| low.setWidth 8] = .ok (.reservedOp14to17 low) := by decide

theorem decode_reservedOp18to1F : ∀ low : BitVec 3,
    decode .op [0x18 ||| low.setWidth 8] = .ok (.reservedOp18to1F low) := by decide

theorem decode_accessCode : ∀ a : BitVec 2, decode .access [a.setWidth 8] = .ok (.accessCode a) := by decide

theorem decode_statusCode (c : Status) : decode .status [(statusCode c).setWidth 8] = .ok (.statusCode c) := by
  cases c with
  | ok => rfl
  | error k => cases k <;> rfl

/-- Settles O56, row by row: the constraint of a row with fields is what sends its word to that row and no other. -/
theorem decodeOfEncodeIsIdentity : Obligations.DecodeOfEncodeIsIdentity := by
  intro i h
  cases i with
  | reservedOp14to17 low => exact decode_reservedOp14to17 low
  | reservedOp18to1F low => exact decode_reservedOp18to1F low
  | hdrShort top size => exact decodeHeader_short size (of_decide_eq_true h)
  | hdrMedium id size => exact decodeHeader_medium size (of_decide_eq_true h)
  | escAny f => exact (decodeEscapeItem_pair f).trans (congrArg Except.ok (decodeEscapePair_any (of_decide_eq_true h)))
  | literal b => exact decodeEscapeItem_literal (of_decide_eq_true h)
  | frame type dst src msg crc => exact decodeFrame_frameWire type dst src msg crc
  | message mid region chk => exact decodeMessage_parts mid region chk
  | accessCode a => exact decode_accessCode a
  | statusCode c => exact decode_statusCode c
  | _ => rfl

/-! ## Encoding what was decoded -/

/-- The bytes `w` are the word of `i`, and `i` is the row its word belongs to. -/
def IsWordOf (w : Bytes) (i : Instr) : Prop := encodeBytes i = w ∧ i.wellFormed = true

theorem decodeOp_isWord : ∀ c : BitVec 5, encodeBytes (decodeOp c) = [c.setWidth 8] ∧ (decodeOp c).wellFormed = true := by
  decide

theorem decodeHeader_isWord {w : Bytes} {i : Instr} (h : decodeHeader w = .ok i) : IsWordOf w i := by
  unfold decodeHeader at h
  split at h
  · cases h
  · next b0 rest =>
    have hb := headerByte_fields b0
    split at h
    · next htop =>
      split at h
      · cases h
        exact ⟨congrArg (fun b => [b]) hb, decide_eq_true htop⟩
      · cases h
    · next htop =>
      rw [not_not.1 htop, headerByte_zero] at hb
      split at h
      · next hlow =>
        rw [hlow] at hb
        split at h
        · cases h; exact ⟨congrArg (· :: _) hb, rfl⟩
        · cases h
        · cases h
      · next hlow =>
        split at h
        · cases h; exact ⟨congrArg (· :: _) hb, decide_eq_true hlow⟩
        · cases h
        · cases h

theorem decodeEscapePair_isWord (f : Byte) : IsWordOf [0x7D, f] (decodeEscapePair f) := by
  unfold decodeEscapePair
  split
  · next h => exact ⟨by rw [h]; rfl, rfl⟩
  split
  · next h => exact ⟨by rw [h]; rfl, rfl⟩
  split
  · next h => exact ⟨by rw [h]; rfl, rfl⟩
  split
  · next h => exact ⟨by rw [h]; rfl, rfl⟩
  · next h1 h2 h3 h4 => exact ⟨rfl, decide_eq_true ⟨h1, h2, h3, h4⟩⟩

theorem decodeEscapeItem_isWord {w : Bytes} {i : Instr} (h : decodeEscapeItem w = .ok i) : IsWordOf w i := by
  unfold decodeEscapeItem at h
  split at h
  · cases h
  · split at h
    · cases h
    · next hb => cases h; exact ⟨rfl, decide_eq_true hb⟩
  · split at h
    · next hb => cases h; subst hb; exact decodeEscapePair_isWord _
    · cases h
  · cases h

theorem decodeMessage_isWord {w : Bytes} {i : Instr} (h : decodeMessage w = .ok i) : IsWordOf w i := by
  unfold decodeMessage at h
  split at h
  · next mid b rest =>
    cases h
    refine ⟨congrArg (mid :: ·) ?_, rfl⟩
    rw [List.getLastD_eq_getLast?, List.getLast?_eq_getLast_of_ne_nil (List.cons_ne_nil b rest), Option.getD_some,
      List.dropLast_append_getLast]
  · cases h

/-- The code that a status is read from is its own (60_exceptions.md R141). -/
theorem statusOfCode_isCode {n : Nat} {c : Status} (h : statusOfCode n = some c) : (statusCode c).toNat = n := by
  unfold statusOfCode at h
  split at h
  all_goals cases h <;> rfl

/-! The spaces of one byte. -/

theorem decode_op_isWord {w : Bytes} {i : Instr} (h : decode .op w = .ok i) : IsWordOf w i := by
  simp only [decode] at h
  split at h
  · next b =>
    split at h
    · next hb =>
      cases h
      obtain ⟨hw, hwf⟩ := decodeOp_isWord (b.setWidth 5)
      exact ⟨by rw [hw, byte_of_lt_32 hb], hwf⟩
    · cases h
  · cases h

theorem decode_delimiter_isWord {w : Bytes} {i : Instr} (h : decode .delimiter w = .ok i) : IsWordOf w i := by
  simp only [decode] at h
  split at h
  · split at h
    · next hb => cases h; exact ⟨by rw [hb]; rfl, rfl⟩
    · cases h
  · cases h

theorem decode_access_isWord {w : Bytes} {i : Instr} (h : decode .access w = .ok i) : IsWordOf w i := by
  simp only [decode] at h
  split at h
  · next b =>
    split at h
    · next hb =>
      cases h
      have hword : (b.setWidth 2).setWidth 8 = b :=
        BitVec.eq_of_toNat_eq (by simp only [BitVec.toNat_setWidth]; omega)
      exact ⟨congrArg (fun b => [b]) hword, rfl⟩
    · cases h
  · cases h

theorem decode_status_isWord {w : Bytes} {i : Instr} (h : decode .status w = .ok i) : IsWordOf w i := by
  simp only [decode] at h
  split at h
  · next b =>
    split at h
    · next c hc =>
      cases h
      have hword : (statusCode c).setWidth 8 = b :=
        BitVec.eq_of_toNat_eq (by rw [BitVec.toNat_setWidth, statusOfCode_isCode hc]; omega)
      exact ⟨congrArg (fun b => [b]) hword, rfl⟩
    · cases h
  · cases h

theorem decode_isWord {sp : Space} {w : Bytes} {i : Instr} (hsp : sp ≠ .frame) (h : decode sp w = .ok i) : IsWordOf w i := by
  cases sp with
  | op => exact decode_op_isWord h
  | header => exact decodeHeader_isWord h
  | escapeItem => exact decodeEscapeItem_isWord h
  | delimiter => exact decode_delimiter_isWord h
  | frame => exact absurd rfl hsp
  | message => exact decodeMessage_isWord h
  | access => exact decode_access_isWord h
  | status => exact decode_status_isWord h

/-- Settles O57: the row is one of the space (`decode_space`), and the bytes are its word. -/
theorem decodedWordsAreCanonical : Obligations.DecodedWordsAreCanonical := by
  intro sp w i hsp h
  obtain ⟨hw, hwf⟩ := decode_isWord hsp h
  exact ⟨Prod.ext (decode_space h) hw, hwf⟩

/-- Settles O58, one word at a time. -/
theorem sampleWordsDecode : Obligations.SampleWordsDecode :=
  ⟨rfl, rfl, rfl, rfl, rfl, rfl, rfl, rfl, rfl, rfl, rfl, rfl, rfl⟩

end Sys2Proof.Machine
end

section
/-! PROOFS. What the reserved codes, the header and escape items and the enumeration items do (30_encoding.md R48, R50 to R52,
R59, R60; 60_exceptions.md R141). -/

namespace Sys2Proof.Machine

open Sys2Proof

/-! ## Reserved codes -/

/-- The rows of the reserved codes (R48). -/
def IsReserved (i : Instr) : Prop :=
  i = .reservedOp00 ∨ i = .reservedOp13 ∨ (∃ low, i = .reservedOp14to17 low) ∨ (∃ low, i = .reservedOp18to1F low)

theorem decodeOp_reserved : ∀ c : BitVec 5, c = 0 ∨ 0x13 ≤ c.toNat → IsReserved (decodeOp c) := by
  unfold IsReserved
  decide

theorem exec_reserved {i : Instr} (s : State) (h : IsReserved i) : exec i s = .next (s.raise .illegalOperation) := by
  rcases h with rfl | rfl | ⟨low, rfl⟩ | ⟨low, rfl⟩ <;> rfl

/-- Settles O33: a reserved code decodes to one of the four rows, and each of them raises. -/
theorem reservedCodesRaise : Obligations.ReservedCodesRaise :=
  ⟨fun c s hc => exec_reserved s (decodeOp_reserved c hc),
    fun s lo2 lo3 => ⟨exec_reserved s (.inl rfl), exec_reserved s (.inr (.inl rfl)),
      exec_reserved s (.inr (.inr (.inl ⟨lo2, rfl⟩))), exec_reserved s (.inr (.inr (.inr ⟨lo3, rfl⟩)))⟩,
    fun s => ⟨raise_reg _ s, raise_phase _ s, raise_res _ s⟩⟩

/-! ## Header items -/

/-- A header that decodes is delivered in its three registers (R86). -/
theorem headerResults_ok {w : Bytes} {h : Header} (hd : hdrDec w = .ok h) : headerResults w = .ok (headerRegisters h) := by
  simp [headerResults, hd]

/-- Settles O34: each item is the header decoder's input, and what that reads in each form is known. -/
theorem headerItemsDecode : Obligations.HeaderItemsDecode :=
  ⟨fun s _ size h => congrArg s.finish (headerResults_ok (hdrDec_headerByte size [] h)),
    fun s _ size h => congrArg s.finish (headerResults_ok (hdrDec_low size [] h)),
    fun s h size => congrArg s.finish (headerResults_ok (hdrDec_1F h size []))⟩

/-! ## Escape items -/

theorem unescapeResults_pair (f : Byte) :
    unescapeResults [Config.esc, f] = .ok (Results.ofOutput [f ^^^ Config.escXor]) := rfl

theorem unescapeResults_literal {b : Byte} (h : b ≠ Config.esc) : unescapeResults [b] = .ok (Results.ofOutput [b]) := by
  simp [unescapeResults, unescape, unescapeFrom, h]

/-- Settles O35: a pair stands for its follower XOR `20`, and the four pairs with rows of their own are no exception. -/
theorem escapeItemsDecode : Obligations.EscapeItemsDecode := fun s =>
  ⟨congrArg s.finish (unescapeResults_pair 0x5E), congrArg s.finish (unescapeResults_pair 0x5D),
    congrArg s.finish (unescapeResults_pair 0x31), congrArg s.finish (unescapeResults_pair 0x33),
    fun f => congrArg s.finish (unescapeResults_pair f),
    fun _ h => congrArg s.finish (unescapeResults_literal h)⟩

/-! ## Enumeration items -/

/-- Settles O38: an access level code is a host write, and a status code the end of an operation. -/
theorem enumerationItems : Obligations.EnumerationItems := by
  refine ⟨fun s a => ⟨_, rfl, rfl, rfl⟩, fun s c => ?_⟩
  cases c with
  | ok => exact ⟨s.complete Results.invalid, rfl, rfl, rfl⟩
  | error k => exact ⟨s.raise k, rfl, rfl, rfl⟩

end Sys2Proof.Machine
end

section
/-! PROOFS. The way out and the way in (30_encoding.md R64; 43_message.md R109, R112; 44_frame.md R128, R130, R132): what packs
unpacks to its commands, and what is framed decodes to its fields. -/

namespace Sys2Proof.Machine

open Sys2Proof

/-! ## Commands -/

/-- Packing a queue packs its first command and the others (R108, R109). -/
theorem packCommands_cons {c : Command} {cq : List Command} {plain : Bytes} (h : packCommands (c :: cq) = .ok plain) :
    ∃ hd p, c.body.length ≤ 255 ∧ hdrEnc c.id (BitVec.ofNat 8 c.body.length) = .ok hd ∧ packCommands cq = .ok p ∧
      plain = hd ++ c.body ++ p := by
  unfold packCommands at h
  split at h
  · cases h
  · next hlen =>
    split at h
    · cases h
    · next hd hhd =>
      split at h
      · cases h
      · next p hp => cases h; exact ⟨hd, p, Nat.not_lt.1 hlen, hhd, hp, rfl⟩

/-- One round of the unpacker, on a header, the body it announces and what follows (R112). -/
theorem unpackFrom_command (reg : List RegEntry) (fuel : Nat) {id : Half} {hd body : Bytes} (rest : Bytes)
    (hlen : body.length ≤ 255) (henc : hdrEnc id (BitVec.ofNat 8 body.length) = .ok hd) :
    unpackFrom reg (fuel + 1) (hd ++ body ++ rest) =
      dispatchDecode reg id (hd ++ body) body :: unpackFrom reg fuel rest := by
  have hne : (hd ++ body ++ rest).isEmpty = false := by
    have hpos := (hdrEnc_length henc).1
    cases hd with
    | nil => cases hpos
    | cons b hd => rfl
  have hdec := hdrDec_hdrEnc henc (body ++ rest)
  rw [← List.append_assoc] at hdec
  have hsize : (BitVec.ofNat 8 body.length).toNat = body.length := Nat.mod_eq_of_lt (Nat.lt_succ_of_le hlen)
  have hext : hd.length + body.length = (hd ++ body).length := List.length_append.symm
  have hfit : ¬ (hd ++ body).length > (hd ++ body ++ rest).length := by simp
  simp only [unpackFrom, hne, hdec, hsize, hext, if_neg hfit, List.take_left', List.drop_left', Bool.false_eq_true, if_false]

/-- What unpacking the commands `cq`, sent with the headers `hs`, gives (R117). -/
def dispatched (reg : List RegEntry) (cq : List Command) (hs : List Bytes) : List CommandResult :=
  List.zipWith (fun (e : Command) (h : Bytes) => dispatchDecode reg e.id (h ++ e.body) e.body) cq hs

theorem unpackFrom_packCommands (reg : List RegEntry) (cq : List Command) :
    ∀ {plain : Bytes}, packCommands cq = .ok plain →
      ∃ hs : List Bytes,
        List.Forall₂ (fun (e : Command) (h : Bytes) => hdrEnc e.id (BitVec.ofNat 8 e.body.length) = .ok h) cq hs ∧
        ∀ fuel, plain.length ≤ fuel → unpackFrom reg fuel plain = dispatched reg cq hs := by
  induction cq with
  | nil =>
    intro plain h
    cases h
    exact ⟨[], .nil, fun fuel _ => by cases fuel <;> rfl⟩
  | cons c cq ih =>
    intro plain h
    obtain ⟨hd, p, hlen, henc, hp, rfl⟩ := packCommands_cons h
    obtain ⟨hs, hall, hrest⟩ := ih hp
    refine ⟨hd :: hs, .cons henc hall, fun fuel hfuel => ?_⟩
    have hpos := (hdrEnc_length henc).1
    simp only [List.length_append] at hfuel
    obtain ⟨n, rfl⟩ : ∃ n, fuel = n + 1 := ⟨fuel - 1, by omega⟩
    rw [unpackFrom_command reg n p hlen henc, hrest n (by omega)]
    rfl

/-- Unpacking what was packed gives, per command in order, the dispatcher's answer to it (R117). -/
theorem unpackCommands_packCommands (reg : List RegEntry) {cq : List Command} {plain : Bytes}
    (h : packCommands cq = .ok plain) :
    ∃ hs : List Bytes,
      List.Forall₂ (fun (e : Command) (h : Bytes) => hdrEnc e.id (BitVec.ofNat 8 e.body.length) = .ok h) cq hs ∧
      unpackCommands reg plain = dispatched reg cq hs := by
  obtain ⟨hs, hall, hrun⟩ := unpackFrom_packCommands reg cq h
  exact ⟨hs, hall, hrun _ (Nat.le_refl _)⟩

/-! ## Messages and frames -/

/-- A message sent in plain text, with the right checksum, unpacks where its commands have room (R111). -/
theorem unpackMessage_plain {p : LrcParams} {s : State} {a : BitVec 2} {kv : BitVec 1} (mid : Byte) (plain : Bytes)
    (h : a = 0 ∨ kv = 0) (hcap : withinCap s.caps.rqMax (unpackCommands s.reg plain).length = true) :
    unpackMessage p s a kv ([mid] ++ plain ++ [computeBlockParity p (mid :: plain)]) =
      .ok { messageId := mid, accessLevel := a, commands := unpackCommands s.reg plain,
            checksum := computeBlockParity p (mid :: plain) } := by
  rw [unpackMessage_parts, decryptRegion_plain plain h]
  simp [messageChecksum, hcap]

/-- The frame decoder undoes the frame encoder (R133). -/
theorem frameDec_frameEnc (p : CrcParams) (type : Byte) (dst src : Half) (msg : Bytes) :
    frameDec p (frameEnc p type dst src msg) = .ok
      { type := type, dst := dst, src := src, msg := msg, crc := computeFrameCrc p (frameBody type dst src msg) } := by
  simp [frameDec, frameEnc, frameSplit_frameBody]

/-- `FRAME_MSG_DEC` of a frame that decodes, whose message unpacks (R132). -/
theorem exec_frameMsgDec_ok {s : State} {a : BitVec 2} {kv : BitVec 1} {w : Bytes} {f : Frame} {m : MessageResult}
    (hrun : s.phase = .run) (ha : s.cur.opnd.access = some a) (h3 : a ≠ 3) (hk : s.cur.opnd.keyv = some kv)
    (hw : s.cur.opnd.inputBytes = some w) (hf : frameDec Config.crc w = .ok f)
    (hm : unpackMessage Config.lrc s a kv f.msg = .ok m) :
    exec .frameMsgDec s = .next (s.complete (messageResults m (frameResults f))) := by
  simp only [exec, execFrameMsgDec, requireAccess_run hrun ha, if_neg h3, readInput_some hw, hf, Operands.readKeyv, hk, hm,
    readElement_some, orRaise_ok, ok_bind, pure_eq_ok, finish_ok]

/-- Settles O32: the frame stage gives back the message, and the message stage the commands. -/
theorem receiveWhatWasSent : Obligations.ReceiveWhatWasSent := by
  intro u ty mid d c cq plain hpack msg hrun ha hk hrq hw
  obtain ⟨kv, hkv⟩ := Option.ne_none_iff_exists'.1 hk
  obtain ⟨hs, hall, hun⟩ := unpackCommands_packCommands u.reg hpack
  have hcap : withinCap u.caps.rqMax (unpackCommands u.reg plain).length = true := by rw [hrq]; rfl
  have hm : unpackMessage Config.lrc u 0 kv msg = _ := unpackMessage_plain mid plain (.inl rfl) hcap
  exact ⟨hs, hall, _, exec_frameMsgDec_ok hrun ha (by decide) hkv hw (frameDec_frameEnc _ ty d c msg) hm,
    rfl, rfl, rfl, rfl, rfl, rfl, congrArg some hun⟩

end Sys2Proof.Machine
end

section
/-! PROOFS. The instruction a step runs, and runs of the pseudo-operations (30_encoding.md R46, R47, R64). -/

namespace Sys2Proof.Machine

open Sys2Proof

/-! ## One step -/

section
variable {s : State} {rest : List Move}

theorem step_idle (h : s.pending = []) : step s = .next s := by
  simp only [step, nextMove, h]

theorem step_issue {op : BitVec 5} (h : s.pending = .issue op :: rest) :
    step s = exec (decodeOp op) { s with pending := rest } := by
  simp only [step, nextMove, h]

theorem step_item {sp : Space} {w : Bytes} {i : Instr} (h : s.pending = .item sp w :: rest) (hd : decode sp w = .ok i)
    (hcap : withinCap s.caps.bufMax w.length = true) : step s = exec i { s with pending := rest } := by
  simp only [step, nextMove, h, hd, if_pos hcap]

theorem step_copyObuf {b : Bytes} (h : s.pending = .copyObuf :: rest) (hb : s.cur.res.outputBytes = some b) :
    step s = hostWrite (.ibuf b) { s with pending := rest } := by
  simp only [step, nextMove, h, hostCopyObuf, hb]

theorem step_copyAccout {v : Half} (h : s.pending = .copyAccout :: rest) (hv : s.cur.res.accout = some v) :
    step s = hostWrite (.accin v) { s with pending := rest } := by
  simp only [step, nextMove, h, hostCopyAccout, hv]

theorem step_skipUnlessOk_ok {n : Nat} (h : s.pending = .skipUnlessOk n :: rest) (hst : s.cur.status = .ok) :
    step s = .next { s with pending := rest } := by
  simp only [step, nextMove, h, hostSkipUnlessOk, hst]

theorem step_skipUnlessOk_error {n : Nat} {k : ErrorKind} (h : s.pending = .skipUnlessOk n :: rest)
    (hst : s.cur.status = .error k) : step s = .next { s with pending := rest.drop n } := by
  simp only [step, nextMove, h, hostSkipUnlessOk, hst]

end

/-! ## Table words -/

theorem withinCap_of_none {cap : Option Nat} (h : cap = none) (n : Nat) : withinCap cap n = true := by rw [h]; rfl

theorem supplyOperand_caps (s : State) (e : Element) : (supplyOperand s e).caps = s.caps := by
  cases e <;> simp only [supplyOperand] <;> split <;> rfl

theorem foldl_supplyOperand_caps (l : List Element) : ∀ s : State, (l.foldl supplyOperand s).caps = s.caps := by
  induction l with
  | nil => intro s; rfl
  | cons e l ih => intro s; exact (ih _).trans (supplyOperand_caps s e)

theorem supplyOperands_caps (i : Instr) (s : State) : (supplyOperands i s).caps = s.caps :=
  foldl_supplyOperand_caps _ s

theorem decodeTableWord_eq_some {nbits w : Nat} {i : Instr} :
    decodeTableWord nbits w = some i ↔ decode (tableWord nbits w).1 (tableWord nbits w).2 = .ok i := by
  unfold decodeTableWord
  split
  · next h => rw [h]; simp
  · next h => rw [h]; simp

/-- The move for a table word runs the instruction that the word decodes to. -/
theorem step_tableMove {s : State} {nbits w : Nat} {i : Instr} (h : decodeTableWord nbits w = some i)
    (hcap : s.caps.bufMax = none) : step { s with pending := tableMove nbits w :: s.pending } = exec i s := by
  rw [decodeTableWord_eq_some] at h
  unfold tableMove
  split
  · next b hw =>
    rw [hw] at h
    split
    · next hb =>
      have hi : decodeOp (b.setWidth 5) = i := by simpa [decode, hb] using h
      rw [step_issue rfl, hi]
    · exact step_item rfl h (withinCap_of_none hcap _)
  · next sp bytes hw =>
    rw [hw] at h
    exact step_item rfl h (withinCap_of_none hcap _)

theorem step_withFetchWord {s : State} {nbits w : Nat} {i : Instr} (h : decodeTableWord nbits w = some i)
    (hcap : s.caps.bufMax = none) : step (s.withFetchWord nbits w) = exec i (supplyOperands i s) := by
  simp only [State.withFetchWord, h]
  exact step_tableMove h (by rw [supplyOperands_caps, hcap])

/-- Settles O52, by the kind of the oldest pending move. -/
theorem stepRunsTheDecodedInstruction : Obligations.StepRunsTheDecodedInstruction :=
  ⟨fun _ _ _ h => step_issue h, fun _ _ _ _ _ h hd hcap => step_item h hd hcap,
    fun _ _ _ _ h hcap => step_withFetchWord h hcap, fun _ h => step_idle h⟩

/-! ## Runs -/

theorem Steps.trans {s t u : State} (h : Steps s t) (h' : Steps t u) : Steps s u := by
  induction h with
  | refl s => exact h'
  | head hstep _ ih => exact .head hstep (ih h')

/-- `s` with the operand elements `o` of the addressed engine, and `moves` pending: where the host is between two operations of
a pseudo-operation. -/
def State.loaded (s : State) (o : Operands) (moves : List Move) : State :=
  { s with cur := { s.cur with opnd := o }, pending := moves }

section
variable {s t : State} {o : Operands} {moves : List Move}

theorem Steps.of_pending (hp : s.pending = moves) (h : Steps (s.loaded s.cur.opnd moves) t) : Steps s t := by
  subst hp
  exact h

/-- A run that begins with a write of an operand element. -/
theorem Steps.write {w : HostWrite} {o' : Operands} (hw : hostWrite w (s.loaded o moves) = .next (s.loaded o' moves))
    (h : Steps (s.loaded o' moves) t) : Steps (s.loaded o (.write w :: moves)) t :=
  .head ((step_write rfl).trans hw) h

theorem step_loaded_issue {op : BitVec 5} {i : Instr} (hi : decodeOp op = i) :
    step (s.loaded o (.issue op :: moves)) = exec i (s.loaded o moves) :=
  hi ▸ step_issue rfl

/-- A run that begins with an operation that completes. -/
theorem Steps.issue {op : BitVec 5} {i : Instr} {r : Results} (hi : decodeOp op = i)
    (h : exec i (s.loaded o moves) = .next ((s.loaded o moves).complete r)) (ht : Steps ((s.complete r).loaded o moves) t) :
    Steps (s.loaded o (.issue op :: moves)) t :=
  .head ((step_loaded_issue hi).trans h) ht

theorem hostWrite_ibuf_unbounded (b : Bytes) (hcap : s.caps.bufMax = none) :
    hostWrite (.ibuf b) (s.loaded o moves) =
      .next (s.loaded { o with ibuf := o.ibuf.writeSeq 0 b, ilen := some b.length } moves) :=
  (hostWrite_ibuf _ b).trans (if_pos (withinCap_of_none hcap _))

theorem hostWrite_cq_unbounded (l : List Command) (hcap : s.caps.cqMax = none) :
    hostWrite (.cq l) (s.loaded o moves) = .next (s.loaded { o with cq := some l } moves) :=
  (hostWrite_cq _ l).trans (if_pos (withinCap_of_none hcap _))

end

/-! ## A checksum over a stream -/

/-- `CRC16_UPD` (40_checksum.md R76). -/
theorem exec_crc16Upd {s : State} {a : Half} {b : Bytes} (ha : s.cur.opnd.accin = some a)
    (hb : s.cur.opnd.inputBytes = some b) :
    exec .crc16Upd s = .next (s.complete { Results.invalid with accout := some (crcAcc Config.crc a b) }) := by
  simp [exec, execCrc16Upd, Operands.readAccin, ha, readInput_some hb]

/-- `CRC16_FIN` (40_checksum.md R77). -/
theorem exec_crc16Fin {s : State} {a : Half} (ha : s.cur.opnd.accin = some a) :
    exec .crc16Fin s = .next (s.complete { Results.invalid with crc := some (crcFin Config.crc a) }) := by
  simp [exec, execCrc16Fin, Operands.readAccin, ha]

theorem crcAcc_append (p : CrcParams) (acc : Half) (s t : Bytes) : crcAcc p acc (s ++ t) = crcAcc p (crcAcc p acc s) t :=
  List.foldl_append

/-- What a `CRC16_UPD` that accumulates `v` delivers. -/
def accoutResults (v : Half) : Results := { Results.invalid with accout := some v }

/-- One chunk of `CRC16_STREAM`: written, and accumulated by `CRC16_UPD`. -/
theorem steps_crcChunk {s : State} {o : Operands} {a : Half} (chunk : Bytes) (moves : List Move)
    (hcap : s.caps.bufMax = none) (ha : o.accin = some a) :
    ∃ o', Steps (s.loaded o (.write (.ibuf chunk) :: .issue 0x04 :: moves))
      ((s.complete (accoutResults (crcAcc Config.crc a chunk))).loaded o' moves) :=
  ⟨_, .write (hostWrite_ibuf_unbounded chunk hcap)
    (.issue rfl (exec_crc16Upd ha (inputBytes_writeSeq o chunk)) (.refl _))⟩

/-- The moves of `CRC16_STREAM` after its first chunk: the chunks that follow, then `CRC16_FIN` (R64). -/
def crcStreamRest (chunks : List Bytes) : List Move := streamRest 0x04 chunks ++ [.copyAccout, .issue 0x05]

/-- The chunks that follow are accumulated each from the previous `ACCOUT`, and `CRC16_FIN` from the last one. -/
theorem steps_crcStreamRest (chunks : List Bytes) : ∀ {s : State} {a : Half} (o : Operands),
    s.caps.bufMax = none → s.cur.res.accout = some a →
      ∃ t, Steps (s.loaded o (crcStreamRest chunks)) t ∧ t.pending = [] ∧
        t.cur.status = .ok ∧ t.cur.res.crc = some (crcFin Config.crc (crcAcc Config.crc a chunks.flatten)) := by
  induction chunks with
  | nil =>
    intro s a o hcap ha
    have hcopy : step (s.loaded o [.copyAccout, .issue 0x05]) = .next (s.loaded { o with accin := some a } [.issue 0x05]) :=
      step_copyAccout rfl ha
    exact ⟨_, .head hcopy (.issue rfl (exec_crc16Fin rfl) (.refl _)), rfl, rfl, rfl⟩
  | cons chunk chunks ih =>
    intro s a o hcap ha
    have hcopy : step (s.loaded o (crcStreamRest (chunk :: chunks))) =
        .next (s.loaded { o with accin := some a } (.write (.ibuf chunk) :: .issue 0x04 :: crcStreamRest chunks)) :=
      step_copyAccout rfl ha
    obtain ⟨o', hchunk⟩ := steps_crcChunk (s := s) (o := { o with accin := some a }) chunk (crcStreamRest chunks) hcap rfl
    obtain ⟨t, hrest, hp, hok, hcrc⟩ := ih (s := s.complete (accoutResults (crcAcc Config.crc a chunk))) o' hcap rfl
    refine ⟨t, .head hcopy (hchunk.trans hrest), hp, hok, ?_⟩
    rw [hcrc, List.flatten_cons, crcAcc_append]

/-- Settles O59: accumulation chunk by chunk is accumulation over the concatenation. -/
theorem crcStreamEqualsOneShot : Obligations.CrcStreamEqualsOneShot := by
  intro s first rest hp hcap
  obtain ⟨o, hfirst⟩ := steps_crcChunk (s := s) (o := { s.cur.opnd with accin := some 0xFFFF }) first
    (crcStreamRest rest) hcap rfl
  obtain ⟨t, hrest, htp, hok, hcrc⟩ := steps_crcStreamRest rest
    (s := s.complete (accoutResults (crcAcc Config.crc 0xFFFF first))) o hcap rfl
  refine ⟨t, .of_pending hp (.write rfl (hfirst.trans hrest)), htp, hok, ?_⟩
  rw [hcrc, computeFrameCrc, crcAcc_append]
  rfl

/-! ## Sending a queue -/

/-- At level `UNENCRYPTED` no key is asked for. -/
theorem requireKey_unencrypted {o : Operands} {kv : BitVec 1} (hk : o.keyv = some kv) : requireKey o 0 = .ok () :=
  (requireKey_held 0 hk).trans (if_neg fun h => Bool.noConfusion h.1)

theorem encryptRegion_unencrypted (o : Operands) (plain : Bytes) : encryptRegion o 0 plain = .ok plain := rfl

/-- `MSG_PACK` at level `UNENCRYPTED`, for any checksum triple (43_message.md R109). -/
theorem packMessage_unencrypted {p : LrcParams} {s : State} {kv : BitVec 1} {cq : List Command}
    (ha : s.cur.opnd.access = some 0) (hk : s.cur.opnd.keyv = some kv) (hcq : s.cur.opnd.cq = some cq) :
    packMessage p s = (do
      let plain ← orRaise (packCommands cq)
      let mid ← s.cur.opnd.readMsgid
      let m := mid :: (plain ++ [messageChecksum p mid plain])
      if withinCap s.caps.bufMax m.length then return Results.ofOutput m
      else .error (.raise .capacityExceeded)) := by
  have h3 : (0 : BitVec 2) ≠ 3 := by decide
  simp only [packMessage, Operands.readAccess, ha, readElement_some, ok_bind, if_neg h3, requireKey_unencrypted hk,
    Operands.readCq, hcq, encryptRegion_unencrypted]

/-- `MSG_PACK` at level `UNENCRYPTED` of a queue that packs (43_message.md R109). -/
theorem exec_msgPack_ok {s : State} {kv : BitVec 1} {cq : List Command} {plain : Bytes} {mid : Byte}
    (ha : s.cur.opnd.access = some 0) (hk : s.cur.opnd.keyv = some kv) (hcq : s.cur.opnd.cq = some cq)
    (hpack : packCommands cq = .ok plain) (hmid : s.cur.opnd.msgid = some mid) (hcap : s.caps.bufMax = none) :
    exec .msgPack s = .next (s.complete (Results.ofOutput
      ([mid] ++ plain ++ [computeBlockParity Config.lrc (mid :: plain)]))) := by
  simp [exec, execMsgPack, packMessage_unencrypted ha hk hcq, hpack, Operands.readMsgid, hmid, messageChecksum,
    withinCap_of_none hcap]

/-- `MSG_PACK` at level `UNENCRYPTED` of a queue that does not pack (43_message.md R109). -/
theorem exec_msgPack_raise {s : State} {kv : BitVec 1} {cq : List Command} {k : ErrorKind}
    (ha : s.cur.opnd.access = some 0) (hk : s.cur.opnd.keyv = some kv) (hcq : s.cur.opnd.cq = some cq)
    (hpack : packCommands cq = .error k) : exec .msgPack s = .next (s.raise k) := by
  simp [exec, execMsgPack, packMessage_unencrypted ha hk hcq, hpack]

/-- `FRAME_ENC` where the frame fits (44_frame.md R128). -/
theorem exec_frameEnc_ok {s : State} {type : Byte} {dst src : Half} {msg : Bytes} (hty : s.cur.opnd.ftype = some type)
    (hdst : s.cur.opnd.dst = some dst) (hsrc : s.cur.opnd.src = some src) (hmsg : s.cur.opnd.inputBytes = some msg)
    (hcap : withinCap s.caps.bufMax (frameEnc Config.crc type dst src msg).length = true) :
    exec .frameEnc s = .next (s.complete (Results.ofOutput (frameEnc Config.crc type dst src msg))) := by
  simp [exec, execFrameEnc, Operands.readFtype, Operands.readDst, Operands.readSrc, hty, hdst, hsrc, readInput_some hmsg,
    hcap]

/-- The output of an operation is read back whole. -/
theorem outputBytes_ofOutput (o : Bytes) : (Results.ofOutput o).outputBytes = some o := readSeq_ofBytes o

/-- The moves of `SEND` after `MSG_PACK` (R64). -/
def sendFrame (type : Byte) (dst src : Half) : List Move :=
  [.copyObuf, .write (.ftype type), .write (.dst dst), .write (.src src), .issue 0x10]

/-- The operand elements of `MSG_PACK` at level `UNENCRYPTED`, written over `o`. -/
def sendOperands (o : Operands) (mid : Byte) (cq : List Command) : Operands :=
  { o with msgid := some mid, access := some 0, keyv := some 0, cq := some cq }

/-- `SEND` writes the operand elements of `MSG_PACK`. -/
theorem steps_sendOperands {s : State} {mid type : Byte} {dst src : Half} {cq : List Command}
    (hp : s.pending = pseudoSend mid 0 none type dst src cq) (hcap : s.caps.cqMax = none) :
    Steps s (s.loaded (sendOperands s.cur.opnd mid cq) (.issue 0x0C :: .skipUnlessOk 5 :: sendFrame type dst src)) :=
  .of_pending hp (.write rfl (.write rfl (.write rfl (.write (hostWrite_cq_unbounded cq hcap) (.refl _)))))

/-- What `SEND` does with the message that `MSG_PACK` left in `OBUF`: copy it, and frame it. -/
theorem steps_sendFrame {s : State} (type : Byte) (dst src : Half) (msg : Bytes) (o : Operands)
    (hcap : s.caps.bufMax = none) :
    ∃ t, Steps ((s.complete (Results.ofOutput msg)).loaded o (sendFrame type dst src)) t ∧ t.pending = [] ∧
      t.cur.status = .ok ∧ t.cur.res.outputBytes = some (frameEnc Config.crc type dst src msg) := by
  have hcopy : step ((s.complete (Results.ofOutput msg)).loaded o (sendFrame type dst src)) =
      .next ((s.complete (Results.ofOutput msg)).loaded
        { o with ibuf := o.ibuf.writeSeq 0 msg, ilen := some msg.length } (sendFrame type dst src).tail) :=
    (step_copyObuf rfl (outputBytes_ofOutput msg)).trans
      (hostWrite_ibuf_unbounded (s := s.complete (Results.ofOutput msg)) msg hcap)
  exact ⟨_, .head hcopy (.write rfl (.write rfl (.write rfl (.issue rfl
    (exec_frameEnc_ok rfl rfl rfl (inputBytes_writeSeq o msg) (withinCap_of_none hcap _)) (.refl _))))),
    rfl, rfl, outputBytes_ofOutput _⟩

/-- `SEND` goes on after a `MSG_PACK` that packs. -/
theorem steps_packed {s : State} (o : Operands) {mid : Byte} {cq : List Command} {plain : Bytes} (n : Nat)
    (moves : List Move) (hpack : packCommands cq = .ok plain) (hcap : s.caps.bufMax = none) :
    Steps (s.loaded (sendOperands o mid cq) (.issue 0x0C :: .skipUnlessOk n :: moves))
      ((s.complete (Results.ofOutput ([mid] ++ plain ++ [computeBlockParity Config.lrc (mid :: plain)]))).loaded
        (sendOperands o mid cq) moves) :=
  .issue rfl (exec_msgPack_ok rfl rfl rfl hpack rfl hcap) (.head (step_skipUnlessOk_ok rfl rfl) (.refl _))

/-- `SEND` gives up the moves after a `MSG_PACK` that raises. -/
theorem steps_notPacked {s : State} (o : Operands) {mid : Byte} {cq : List Command} {k : ErrorKind} (n : Nat)
    (moves : List Move) (hpack : packCommands cq = .error k) :
    Steps (s.loaded (sendOperands o mid cq) (.issue 0x0C :: .skipUnlessOk n :: moves))
      ((s.raise k).loaded (sendOperands o mid cq) (moves.drop n)) :=
  .head ((step_loaded_issue rfl).trans (exec_msgPack_raise rfl rfl rfl hpack))
    (.head (step_skipUnlessOk_error rfl rfl) (.refl _))

/-- Settles O60: after the writes, `MSG_PACK` packs and the message is framed, or raises and the other moves are given up. -/
theorem sendFramesThePackedMessage : Obligations.SendFramesThePackedMessage := by
  intro s mid ty d c cq hp hcaps
  have hbuf : s.caps.bufMax = none := by rw [hcaps]; rfl
  have hwrites := steps_sendOperands hp (by rw [hcaps]; rfl)
  refine ⟨fun plain hpack => ?_, fun k hpack => ?_⟩
  · have hpacked := hwrites.trans (steps_packed _ 5 (sendFrame ty d c) hpack hbuf)
    obtain ⟨t, hframe, ht⟩ := steps_sendFrame ty d c _ (sendOperands s.cur.opnd mid cq) hbuf
    exact ⟨t, hpacked.trans hframe, ht⟩
  · exact ⟨_, hwrites.trans (steps_notPacked _ 5 (sendFrame ty d c) hpack), rfl, rfl, rfl⟩

end Sys2Proof.Machine
end

section
/-! PROOFS. The checksums (40_checksum.md R71 to R84): the shifts of the CRC step, its table form and its residue, and what the
operations of the CRC16 and LRC units answer. -/

namespace Sys2Proof.Machine

open Sys2Proof

/-! ## The shifts of the CRC step -/

/-- A word is its two bytes, each in its place. -/
theorem be16_eq_xor (hi lo : Byte) : be16 hi lo = zext16 lo ^^^ zext16 hi <<< 8 := by
  ext i h
  rcases Nat.lt_or_ge i 8 with h8 | h8
  · simp [be16, zext16, h8]
  · simp [be16, zext16, Nat.not_lt.2 h8, BitVec.getLsbD_of_ge lo i h8]

theorem zext16_shiftRight_eight (b : Byte) : zext16 b >>> 8 = 0#16 := by
  ext i h
  simp [zext16]

theorem zext16_hiByte (v : Half) : zext16 (hiByte v) = v >>> 8 := by
  ext i h
  rcases Nat.lt_or_ge i 8 with h8 | h8
  · simp [zext16, hiByte, h8]
  · simp [zext16, hiByte, Nat.not_lt.2 h8, BitVec.getLsbD_of_ge v (8 + i) (by omega)]

theorem and_00FF_setWidth (v : Half) : (v &&& 0x00FF#16).setWidth 8 = loByte v := by
  rw [BitVec.setWidth_and, show (0x00FF#16).setWidth 8 = BitVec.allOnes 8 from rfl, BitVec.and_allOnes]
  exact BitVec.setWidth_eq_extractLsb' (by decide)

theorem zext16_shiftLeft_succ (b : Byte) {n : Nat} (h : n < 8) : (zext16 b <<< (n + 1)) >>> 1 = zext16 b <<< n := by
  ext i hi
  rcases Nat.lt_or_ge i n with hin | hin
  · simp [zext16, hin, Nat.add_comm 1 i, Nat.succ_le_of_lt hin]
  · have hsub : 1 + i - (n + 1) = i - n := by omega
    have hpos : ¬ 1 + i ≤ n := by omega
    rcases Nat.lt_or_ge (i - n) 8 with hbyte | hbyte
    · simp [zext16, hsub, hpos, Nat.not_lt.2 hin, show 1 + i < 16 by omega]
    · simp [zext16, hsub, Nat.not_lt.2 hin, BitVec.getLsbD_of_ge b (i - n) hbyte]

section
variable (p : CrcParams)

/-- The shifts are the one shift, iterated. -/
theorem crcShifts_eq_iterate (n : Nat) : crcShifts p n = (crcShift p)^[n] := by
  induction n with
  | zero => rfl
  | succ n ih => funext acc; exact congrFun ih (crcShift p acc)

theorem crcShifts_add (m n : Nat) (acc : Half) : crcShifts p (n + m) acc = crcShifts p n (crcShifts p m acc) := by
  simp only [crcShifts_eq_iterate, Function.iterate_add_apply]

theorem crcShift_even {x : Half} (h : x.getLsbD 0 = false) : crcShift p x = x >>> 1 :=
  if_neg (by rw [h]; exact Bool.false_ne_true)

theorem crcShift_odd {x : Half} (h : x.getLsbD 0 = true) : crcShift p x = x >>> 1 ^^^ p.poly :=
  if_pos h

/-- Bits above the lowest do not choose the branch of a shift; they are only moved. -/
theorem crcShift_xor {y : Half} (x : Half) (hy : y.getLsbD 0 = false) :
    crcShift p (x ^^^ y) = crcShift p x ^^^ y >>> 1 := by
  have hbit : (x ^^^ y).getLsbD 0 = x.getLsbD 0 := by rw [BitVec.getLsbD_xor, hy, Bool.xor_false]
  cases hx : x.getLsbD 0 with
  | false => rw [crcShift_even p (hbit.trans hx), crcShift_even p hx, BitVec.ushiftRight_xor_distrib]
  | true =>
    rw [crcShift_odd p (hbit.trans hx), crcShift_odd p hx, BitVec.ushiftRight_xor_distrib]
    ac_rfl

/-- A byte that lies above the bits shifted out reaches the low end as it is. -/
theorem crcShifts_xor_shiftLeft (b : Byte) {n : Nat} (hn : n ≤ 8) :
    ∀ x, crcShifts p n (x ^^^ zext16 b <<< n) = crcShifts p n x ^^^ zext16 b := by
  induction n with
  | zero => intro x; simp [crcShifts]
  | succ n ih =>
    intro x
    have hshift : crcShift p (x ^^^ zext16 b <<< (n + 1)) = crcShift p x ^^^ zext16 b <<< n := by
      rw [crcShift_xor p x (by simp), zext16_shiftLeft_succ b (by omega)]
    simp only [crcShifts, hshift, ih (by omega)]

/-- Two steps are sixteen shifts of the accumulator XOR the two bytes, the first one low. -/
theorem crcStep_crcStep (acc : Half) (lo hi : Byte) :
    crcStep p (crcStep p acc lo) hi = crcShifts p 16 (acc ^^^ be16 hi lo) := by
  rw [crcShifts_add p 8 8, be16_eq_xor, ← BitVec.xor_assoc, crcShifts_xor_shiftLeft p hi (Nat.le_refl 8)]
  rfl

theorem crcAcc_append_pair (acc : Half) (s : Bytes) (lo hi : Byte) :
    crcAcc p acc (s ++ [lo, hi]) = crcShifts p 16 (crcAcc p acc s ^^^ be16 hi lo) := by
  rw [crcAcc_append]
  exact crcStep_crcStep p _ lo hi

theorem crcStep_zero (b : Byte) : crcStep p 0 b = crcShifts p 8 (zext16 b) :=
  congrArg (crcShifts p 8) BitVec.zero_xor

/-- The table form: eight shifts of a word are eight shifts of its low byte, XOR its high byte (R72). -/
theorem crcShifts_eight (x : Half) : crcShifts p 8 x = x >>> 8 ^^^ crcStep p 0 (loByte x) :=
  calc crcShifts p 8 x
    _ = crcShifts p 8 (zext16 (loByte x) ^^^ zext16 (hiByte x) <<< 8) := by rw [← be16_eq_xor, be16_hi_lo]
    _ = crcStep p 0 (loByte x) ^^^ zext16 (hiByte x) := by
      rw [crcShifts_xor_shiftLeft p _ (Nat.le_refl 8), crcStep_zero]
    _ = _ := by rw [zext16_hiByte, BitVec.xor_comm]

/-- Where the polynomial has a constant term (its highest bit, as it is reflected), the highest bit of the outcome tells which
branch a shift took. -/
theorem msb_crcShift (hp : p.poly.msb = true) (x : Half) : (crcShift p x).msb = x.getLsbD 0 := by
  cases hx : x.getLsbD 0 with
  | false => simp [crcShift_even p hx]
  | true => simp [crcShift_odd p hx, hp]

theorem crcShift_injective (hp : p.poly.msb = true) : Function.Injective (crcShift p) := by
  intro x y h
  have h0 : x.getLsbD 0 = y.getLsbD 0 := by rw [← msb_crcShift p hp, h, msb_crcShift p hp]
  have hshift : x >>> 1 = y >>> 1 := by
    cases hx : x.getLsbD 0 with
    | false => rwa [crcShift_even p hx, crcShift_even p (h0 ▸ hx)] at h
    | true => rwa [crcShift_odd p hx, crcShift_odd p (h0 ▸ hx), BitVec.xor_left_inj] at h
  apply BitVec.eq_of_getLsbD_eq
  intro i hi
  cases i with
  | zero => exact h0
  | succ i =>
    have := congrArg (·.getLsbD i) hshift
    simpa [Nat.add_comm] using this

end

/-- Settles O1: the shifts are iterated by definition, and the low byte alone takes part in the eight of them. -/
theorem crcStepIsEightShiftsAndTableForm : Obligations.CrcStepIsEightShiftsAndTableForm := by
  refine ⟨fun acc b => congrFun (crcShifts_eq_iterate Config.crc 8) (acc ^^^ zext16 b), fun acc b => ?_, ?_⟩
  · have hhi : (acc ^^^ zext16 b) >>> 8 = acc >>> 8 := by
      rw [BitVec.ushiftRight_xor_distrib, zext16_shiftRight_eight, BitVec.xor_zero]
    rw [crcStep, crcShifts_eight, hhi, ← and_00FF_setWidth]
    rfl
  · decide

/-! ## The residue -/

/-- Only from `0xFFFF` do sixteen shifts reach the constant of R84. -/
theorem crcShifts_eq_residue (x : Half) : crcShifts Config.crc 16 x = 0xF0B8#16 ↔ x = 0xFFFF#16 := by
  have hlo : crcShifts Config.crc 8 0xFFFF#16 = 0x0F87#16 := by decide
  have hhi : crcShifts Config.crc 8 0x0F87#16 = 0xF0B8#16 := by decide
  have hres : crcShifts Config.crc 16 0xFFFF#16 = 0xF0B8#16 := by rw [crcShifts_add Config.crc 8 8, hlo, hhi]
  rw [← hres, crcShifts_eq_iterate]
  exact ((crcShift_injective Config.crc rfl).iterate 16).eq_iff

/-- The residue after a body and two more bytes says that the two are the complement of the accumulator, low byte first. -/
theorem crcAcc_eq_residue (acc : Half) (s : Bytes) (lo hi : Byte) :
    crcAcc Config.crc acc (s ++ [lo, hi]) = 0xF0B8#16 ↔ be16 hi lo = crcAcc Config.crc acc s ^^^ 0xFFFF#16 := by
  rw [crcAcc_append_pair, crcShifts_eq_residue, ← BitVec.xor_right_inj (crcAcc Config.crc acc s), ← BitVec.xor_assoc,
    BitVec.xor_self, BitVec.zero_xor]

/-- Exchanging the two bytes undoes itself. -/
theorem be16_lo_hi_eq (v w : Half) : be16 (loByte v) (hiByte v) = w ↔ be16 (loByte w) (hiByte w) = v :=
  ⟨fun h => by rw [← h, loByte_be16, hiByte_be16, be16_hi_lo], fun h => by rw [← h, loByte_be16, hiByte_be16, be16_hi_lo]⟩

/-- Settles O2: both tests say that the field is the complement of the accumulator, its bytes exchanged. -/
theorem crcResidueAcceptsTheSameFrames : Obligations.CrcResidueAcceptsTheSameFrames :=
  ⟨fun body => (crcAcc_eq_residue _ body _ _).2 (be16_hi_lo _),
    fun body field => (be16_lo_hi_eq _ field).trans (crcAcc_eq_residue _ body _ _).symm⟩

/-! ## The operations -/

/-- `CRC16` (R75). -/
theorem exec_crc16 {s : State} {b : Bytes} (hb : s.cur.opnd.inputBytes = some b) :
    exec .crc16 s = .next (s.complete { Results.invalid with crc := some (computeFrameCrc Config.crc b) }) := by
  simp [exec, execCrc16, readInput_some hb]

/-- `LRC` (R79). -/
theorem exec_lrc {s : State} {b : Bytes} (hb : s.cur.opnd.inputBytes = some b) :
    exec .lrc s = .next (s.complete { Results.invalid with lrc := some (computeBlockParity Config.lrc b) }) := by
  simp [exec, execLrc, readInput_some hb]

/-- `LRC_UPD` (R80). -/
theorem exec_lrcUpd {s : State} {a : Half} {b : Bytes} (ha : s.cur.opnd.accin = some a)
    (hb : s.cur.opnd.inputBytes = some b) :
    exec .lrcUpd s =
      .next (s.complete { Results.invalid with accout := some (zext16 (lrcAcc Config.lrc (loByte a) b)) }) := by
  simp [exec, execLrcUpd, Operands.readAccin, ha, readInput_some hb]

/-- Settles O4: what the operations deliver is R73 and R74 by definition. -/
theorem crcOperationsComplete : Obligations.CrcOperationsComplete :=
  ⟨rfl, rfl, rfl, fun _ _ hb => exec_crc16 hb, fun _ _ _ ha hb => exec_crc16Upd ha hb, fun _ _ ha => exec_crc16Fin ha⟩

/-- Settles O5: the accumulation with the default triple is the XOR of the bytes by definition. -/
theorem lrcOperationsComplete : Obligations.LrcOperationsComplete :=
  ⟨rfl, rfl, fun _ _ hb => exec_lrc hb, fun _ _ _ ha hb => exec_lrcUpd ha hb⟩

/-! ## Accumulation in parts -/

theorem lrcAcc_append (p : LrcParams) (acc : Byte) (s t : Bytes) : lrcAcc p acc (s ++ t) = lrcAcc p (lrcAcc p acc s) t :=
  List.foldl_append

theorem eq_complete_of_next {i : Instr} {s t : State} {r : Results} (h : exec i s = .next (s.complete r))
    (ht : exec i s = .next t) : t = s.complete r := by
  rw [h] at ht
  exact (Host.Outcome.next.inj ht).symm

/-- `CRC16_FIN` after two `CRC16_UPD` is `CRC16` of the concatenation (R81). -/
theorem crc16Fin_after_updates {s1 s2 s3 s4 t1 t2 t3 t4 : State} {a b : Bytes}
    (hacc1 : s1.cur.opnd.accin = some 0xFFFF) (hin1 : s1.cur.opnd.inputBytes = some a) (h1 : exec .crc16Upd s1 = .next t1)
    (hacc2 : s2.cur.opnd.accin = t1.cur.res.accout) (hin2 : s2.cur.opnd.inputBytes = some b)
    (h2 : exec .crc16Upd s2 = .next t2)
    (hacc3 : s3.cur.opnd.accin = t2.cur.res.accout) (h3 : exec .crc16Fin s3 = .next t3)
    (hin4 : s4.cur.opnd.inputBytes = some (a ++ b)) (h4 : exec .crc16 s4 = .next t4) :
    t3.cur.res.crc = t4.cur.res.crc := by
  obtain rfl := eq_complete_of_next (exec_crc16Upd hacc1 hin1) h1
  obtain rfl := eq_complete_of_next (exec_crc16Upd hacc2 hin2) h2
  obtain rfl := eq_complete_of_next (exec_crc16Fin hacc3) h3
  obtain rfl := eq_complete_of_next (exec_crc16 hin4) h4
  exact congrArg (fun acc => some (crcFin Config.crc acc)) (crcAcc_append Config.crc 0xFFFF a b).symm

/-- Two `LRC_UPD` leave in the low byte of `ACCOUT` the `LRC` of the concatenation (R81). -/
theorem lrc_after_updates {s1 s2 s3 t1 t2 t3 : State} {a b : Bytes}
    (hacc1 : s1.cur.opnd.accin = some 0x0055) (hin1 : s1.cur.opnd.inputBytes = some a) (h1 : exec .lrcUpd s1 = .next t1)
    (hacc2 : s2.cur.opnd.accin = t1.cur.res.accout) (hin2 : s2.cur.opnd.inputBytes = some b)
    (h2 : exec .lrcUpd s2 = .next t2)
    (hin3 : s3.cur.opnd.inputBytes = some (a ++ b)) (h3 : exec .lrc s3 = .next t3) :
    t2.cur.res.accout.map loByte = t3.cur.res.lrc := by
  obtain rfl := eq_complete_of_next (exec_lrcUpd hacc1 hin1) h1
  obtain rfl := eq_complete_of_next (exec_lrcUpd hacc2 hin2) h2
  obtain rfl := eq_complete_of_next (exec_lrc hin3) h3
  refine congrArg some ?_
  rw [loByte_zext16, loByte_zext16]
  exact (lrcAcc_append Config.lrc 0x55 a b).symm

/-- Settles O3: both accumulations are folds, and each operation hands on its accumulator. -/
theorem checksumsAreIncremental : Obligations.ChecksumsAreIncremental :=
  ⟨crcAcc_append, lrcAcc_append,
    fun _ _ _ _ _ _ _ _ _ _ => crc16Fin_after_updates, fun _ _ _ _ _ _ _ _ => lrc_after_updates⟩

end Sys2Proof.Machine
end

section
/-! PROOFS. The header codec (41_header.md R85 to R89): the equation of the encoder in each form, that each direction undoes
the other, and what the two operations answer. -/

namespace Sys2Proof.Machine

open Sys2Proof

/-! ## The header encoder by the kind of id -/

theorem isShortId_iff {id : Half} :
    isShortId id = true ↔ id ∈ [0x20#16, 0x40#16, 0x60#16, 0x80#16, 0xA0#16, 0xC0#16, 0xE0#16] := by
  simp [isShortId, or_assoc]

theorem isShortId_of_field : ∀ top : BitVec 3, top ≠ 0 → isShortId (top.setWidth 16 <<< 5) = true := by decide

/-- An id of the short form is neither of the extended form nor of the medium form: its low five bits are 0, and it is at
least 32. -/
theorem isShortId_excludes {id : Half} (h : isShortId id = true) : loByte id ≠ 0x1F ∧ 0x1E < id.toNat := by
  have hfield : ∀ top : BitVec 3, top ≠ 0 →
      loByte (top.setWidth 16 <<< 5) ≠ 0x1F ∧ 0x1E < (top.setWidth 16 <<< 5 : Half).toNat := by decide
  obtain ⟨top, htop, rfl⟩ := isShortId_field h
  exact hfield top htop

theorem loByte_ne_1F_of_le {id : Half} (h : id.toNat ≤ 0x1E) : loByte id ≠ 0x1F := by
  intro hlo
  obtain ⟨hbyte, hid⟩ := half_of_lt_32 (Nat.lt_of_le_of_lt h (by decide : 0x1E < 32))
  rw [hid, (low_eq_1F _).1 (hbyte.symm.trans hlo)] at h
  exact absurd h (by decide)

section
variable {id : Half} {size : Byte}

theorem hdrEnc_short (hid : isShortId id = true) (hsize : size.toNat ≤ 31) :
    hdrEnc id size = .ok [loByte id ||| size] := by
  rw [hdrEnc, if_pos hid, if_pos hsize]

theorem hdrEnc_short_tooLong (hid : isShortId id = true) (hsize : 31 < size.toNat) :
    hdrEnc id size = .error .invalidCommand := by
  rw [hdrEnc, if_pos hid, if_neg (Nat.not_le.2 hsize)]

theorem hdrEnc_extended (hid : loByte id = 0x1F) : hdrEnc id size = .ok [0x1F, hiByte id, size] := by
  rw [hdrEnc, if_neg fun h => (isShortId_excludes h).1 hid, if_pos hid]

theorem hdrEnc_medium (hid : id.toNat ≤ 0x1E) : hdrEnc id size = .ok [loByte id, size] := by
  rw [hdrEnc, if_neg fun h => Nat.not_le.2 (isShortId_excludes h).2 hid, if_neg (loByte_ne_1F_of_le hid), if_pos hid]

theorem hdrEnc_noForm (hshort : ¬ isShortId id = true) (hext : loByte id ≠ 0x1F) (hmed : 0x1E < id.toNat) :
    hdrEnc id size = .error .invalidCommand := by
  rw [hdrEnc, if_neg hshort, if_neg hext, if_neg (Nat.not_le.2 hmed)]

end

/-! ## The header encoder by the fields of the form -/

theorem hdrEnc_field {top : BitVec 3} (low : BitVec 5) (h : top ≠ 0) :
    hdrEnc (top.setWidth 16 <<< 5) (low.setWidth 8) = .ok [headerByte top low] := by
  have hsize : ∀ low : BitVec 5, (low.setWidth 8 : Byte).toNat ≤ 31 := by decide
  rw [hdrEnc_short (isShortId_of_field top h) (hsize low), loByte_field, headerByte]

theorem hdrEnc_be16_1F (idHigh size : Byte) : hdrEnc (be16 idHigh 0x1F) size = .ok [0x1F, idHigh, size] := by
  rw [hdrEnc_extended (loByte_be16 _ _), hiByte_be16]

theorem hdrEnc_low {low : BitVec 5} (size : Byte) (h : low ≠ 0x1F) :
    hdrEnc (low.setWidth 16) size = .ok [low.setWidth 8, size] := by
  have hle : ∀ low : BitVec 5, low ≠ 0x1F → (low.setWidth 16 : Half).toNat ≤ 0x1E := by decide
  rw [hdrEnc_medium (hle low h), ← zext16_low, loByte_zext16]

/-! ## Both directions -/

/-- A medium or extended header is more than its first byte. -/
theorem hdrDec_oneByte : ∀ low : BitVec 5, hdrDec [low.setWidth 8] = .error .bufferTooShort := by decide

/-- What the header decoder reads where it answers a header: one of the three forms, whatever follows (R50 to R52, R86). -/
theorem hdrDec_ok_cases {s : Bytes} {h : Header} (hd : hdrDec s = .ok h) :
    (∃ (top : BitVec 3) (low : BitVec 5) (rest : Bytes), top ≠ 0 ∧ s = headerByte top low :: rest ∧
      h = { headerSize := 1, commandId := top.setWidth 16 <<< 5, commandSize := low.setWidth 8 }) ∨
    (∃ (idHigh size : Byte) (rest : Bytes), s = 0x1F :: idHigh :: size :: rest ∧
      h = { headerSize := 3, commandId := be16 idHigh 0x1F, commandSize := size }) ∨
    (∃ (low : BitVec 5) (size : Byte) (rest : Bytes), low ≠ 0x1F ∧ s = low.setWidth 8 :: size :: rest ∧
      h = { headerSize := 2, commandId := low.setWidth 16, commandSize := size }) := by
  cases s with
  | nil => cases hd
  | cons b0 rest =>
    obtain ⟨top, low, rfl⟩ : ∃ top low, b0 = headerByte top low := ⟨_, _, (headerByte_fields b0).symm⟩
    by_cases htop : top = 0
    · subst htop
      rw [headerByte_zero] at hd ⊢
      by_cases hlow : low = 0x1F
      · -- the two inputs that are too short are no cases: there `hd` says that an error is a header
        subst hlow
        match rest, hd with
        | idHigh :: size :: rest, hd =>
          exact .inr (.inl ⟨idHigh, size, rest, rfl, Except.ok.inj (hd.symm.trans (hdrDec_1F idHigh size rest))⟩)
      · match rest, hd with
        | [], hd => rw [hdrDec_oneByte low] at hd; cases hd
        | size :: rest, hd =>
          exact .inr (.inr ⟨low, size, rest, hlow, rfl, Except.ok.inj (hd.symm.trans (hdrDec_low size rest hlow))⟩)
    · exact .inl ⟨top, low, rest, htop, rfl, Except.ok.inj (hd.symm.trans (hdrDec_headerByte low rest htop))⟩

/-- The header encoder undoes the header decoder (R89). -/
theorem hdrEnc_hdrDec {s : Bytes} {h : Header} (hd : hdrDec s = .ok h) :
    hdrEnc h.commandId h.commandSize = .ok (s.take h.headerSize) := by
  rcases hdrDec_ok_cases hd with ⟨top, low, rest, htop, rfl, rfl⟩ | ⟨idHigh, size, rest, rfl, rfl⟩ |
    ⟨low, size, rest, hlow, rfl, rfl⟩
  · exact hdrEnc_field low htop
  · exact hdrEnc_be16_1F idHigh size
  · exact hdrEnc_low size hlow

/-- Settles O8: each direction, by the three forms. -/
theorem headerRoundTripsBothWays : Obligations.HeaderRoundTripsBothWays :=
  ⟨fun _ _ _ rest henc => hdrDec_hdrEnc henc rest, fun _ _ => hdrEnc_hdrDec⟩

/-! ## The operations -/

section
variable {s : State}

/-- `HDR_DEC` where the header decoder answers (R86). -/
theorem exec_hdrDec_ok {b : Bytes} {h : Header} (hb : s.cur.opnd.inputBytes = some b) (hd : hdrDec b = .ok h) :
    exec .hdrDec s = .next (s.complete (headerRegisters h)) := by
  simp [exec, execHdrDec, readInput_some hb, headerResults_ok hd]

theorem exec_hdrDec_raise {b : Bytes} {k : ErrorKind} (hb : s.cur.opnd.inputBytes = some b) (hd : hdrDec b = .error k) :
    exec .hdrDec s = .next (s.raise k) := by
  simp [exec, execHdrDec, readInput_some hb, headerResults, hd]

variable {id : Half} {size : Byte}

/-- `HDR_ENC` where the id and size have a header and it fits `BUF_MAX` (R88). -/
theorem exec_hdrEnc_ok {w : Bytes} (hid : s.cur.opnd.cmdid = some id) (hsize : s.cur.opnd.cmdsize = some size)
    (henc : hdrEnc id size = .ok w) (hcap : withinCap s.caps.bufMax w.length = true) :
    exec .hdrEnc s = .next (s.complete (Results.ofOutput w)) := by
  simp [exec, execHdrEnc, Operands.readCmdid, Operands.readCmdsize, hid, hsize, henc, hcap]

theorem exec_hdrEnc_raise {k : ErrorKind} (hid : s.cur.opnd.cmdid = some id) (hsize : s.cur.opnd.cmdsize = some size)
    (henc : hdrEnc id size = .error k) : exec .hdrEnc s = .next (s.raise k) := by
  simp [exec, execHdrEnc, Operands.readCmdid, Operands.readCmdsize, hid, hsize, henc]

end

theorem hdrDecExtended_tooShort {rest : Bytes} (h : rest.length < 2) : hdrDecExtended rest = .error .bufferTooShort := by
  match rest, h with
  | [], _ => rfl
  | [_], _ => rfl

/-- Settles O6: the header decoder's answer in each case is the operation's. -/
theorem hdrDecOutcome : Obligations.HdrDecOutcome := by
  refine ⟨rfl, fun s b hb => ⟨?_, ?_⟩⟩
  · rintro rfl
    exact exec_hdrDec_raise hb hdrDec_nil
  · rintro b0 rest rfl
    refine ⟨?_, ?_, ?_, ?_, ?_⟩
    · intro hshort
      exact exec_hdrDec_ok hb (hdrDec_short rest hshort)
    · rintro rfl hlen
      exact exec_hdrDec_raise hb ((hdrDec_extended rest).trans (hdrDecExtended_tooShort hlen))
    · rintro h size r rfl rfl
      exact exec_hdrDec_ok hb (hdrDec_1F h size r)
    · rintro h0 h1 rfl
      exact exec_hdrDec_raise hb (hdrDec_medium [] h0 h1)
    · rintro size r h0 h1 rfl
      exact exec_hdrDec_ok hb (hdrDec_medium (size :: r) h0 h1)

/-- Settles O7: the header encoder's answer for each kind of id is the operation's. -/
theorem hdrEncOutcome : Obligations.HdrEncOutcome := by
  refine ⟨rfl, fun s id size hid hsize => ⟨?_, ?_, ?_, ?_, ?_⟩⟩
  · intro hshort hle hcap
    exact exec_hdrEnc_ok hid hsize (hdrEnc_short (isShortId_iff.2 hshort) hle) hcap
  · intro hshort hlt
    exact exec_hdrEnc_raise hid hsize (hdrEnc_short_tooLong (isShortId_iff.2 hshort) hlt)
  · intro hlo hcap
    exact exec_hdrEnc_ok hid hsize (hdrEnc_extended hlo) hcap
  · intro hle hcap
    exact exec_hdrEnc_ok hid hsize (hdrEnc_medium hle) hcap
  · intro hshort hlo hlt
    exact exec_hdrEnc_raise hid hsize (hdrEnc_noForm (fun h => hshort (isShortId_iff.1 h)) hlo hlt)

end Sys2Proof.Machine
end

section
/-! PROOFS. The registry and the dispatcher (42_registry.md R95 to R102): the list read as a map, the phase check, and what
the four operations answer. -/

namespace Sys2Proof.Machine

open Sys2Proof

/-! ## The list as a map -/

theorem regHas_eq_true_iff {l : List RegEntry} {id : Half} : regHas l id = true ↔ id ∈ l.map RegEntry.id := by
  induction l with
  | nil => simp [regHas]
  | cons e rest ih => simp [regHas, ih, eq_comm (a := id)]

/-- The duplicate test of `REG_BUILD` finds out whether the ids are distinct (R98). -/
theorem hasDuplicateId_eq_false_iff {l : List RegEntry} : hasDuplicateId l = false ↔ (l.map RegEntry.id).Nodup := by
  induction l with
  | nil => simp [hasDuplicateId]
  | cons e rest ih =>
    rw [hasDuplicateId, Bool.or_eq_false_iff, ih, ← Bool.not_eq_true, regHas_eq_true_iff, List.map_cons, List.nodup_cons]

/-- With distinct ids a lookup finds exactly the entries of the list. -/
theorem regLookup_eq_some_iff {l : List RegEntry} (h : (l.map RegEntry.id).Nodup) {id : Half} {c : CodecRef} :
    regLookup l id = some c ↔ RegEntry.mk id c ∈ l := by
  induction l with
  | nil => simp [regLookup]
  | cons e rest ih =>
    obtain ⟨eid, codec⟩ := e
    obtain ⟨hnew, hrest⟩ := List.nodup_cons.1 h
    by_cases hid : eid = id
    · subst hid
      have hnot : RegEntry.mk eid c ∉ rest := fun hmem => hnew (List.mem_map.2 ⟨_, hmem, rfl⟩)
      simp [regLookup, hnot, eq_comm]
    · simp [regLookup, hid, Ne.symm hid, ih hrest]

/-! ## The phase check -/

theorem requireAccess_build {s : State} (h : s.phase = .build) : requireAccess s = .error (.raise .illegalOperation) := by
  rw [requireAccess, requireRun_build h, error_bind]

/-- The registry-reading operations test `PHASE` before they look at an operand (R99). -/
theorem exec_readsRegistry_build {i : Instr} {s : State} (h : s.phase = .build)
    (hi : i ∈ [Instr.resolve, .cmdEnc, .cmdDec, .msgUnpack, .frameMsgDec]) :
    exec i s = .next (s.raise .illegalOperation) := by
  simp only [List.mem_cons, List.not_mem_nil, or_false] at hi
  rcases hi with rfl | rfl | rfl | rfl | rfl
  · rw [exec, execResolve, requireRun_build h, error_bind, finish_raise]
  · rw [exec, execCmdEnc, requireRun_build h, error_bind, finish_raise]
  · rw [exec, execCmdDec, requireRun_build h, error_bind, finish_raise]
  · rw [exec, execMsgUnpack, msgUnpack, requireAccess_build h, error_bind, error_bind, finish_raise]
  · rw [exec, execFrameMsgDec, requireAccess_build h, error_bind, finish_raise]

/-- The other operations but `REG_BUILD` end the same way whatever `PHASE` and `REG` hold. -/
theorem exec_readsNoRegistry {i : Instr} (s : State) (ph : Phase) (r : List RegEntry)
    (hi : i ∈ [Instr.lrc, .lrcUpd, .crc16, .crc16Upd, .crc16Fin, .hdrDec, .hdrEnc, .msgPack, .escape, .unescape, .frameEnc,
      .frameDec]) :
    ∃ x, exec i s = s.finish x ∧
      exec i { s with phase := ph, reg := r } = State.finish { s with phase := ph, reg := r } x := by
  simp only [List.mem_cons, List.not_mem_nil, or_false] at hi
  rcases hi with rfl | rfl | rfl | rfl | rfl | rfl | rfl | rfl | rfl | rfl | rfl | rfl <;> exact ⟨_, rfl, rfl⟩

/-- An end changes results and `STATUS`, so `PHASE` and `REG` may be exchanged before it or after it. -/
theorem finish_withRegistry {s t : State} {x : Except Stop Results} (ph : Phase) (r : List RegEntry)
    (h : s.finish x = .next t) :
    State.finish { s with phase := ph, reg := r } x = .next { t with phase := ph, reg := r } := by
  rcases finish_next h with ⟨res, rfl, rfl⟩ | ⟨k, rfl, rfl⟩ <;> rfl

/-- Settles O14: the five operations test `PHASE` first, and the end of each of the twelve does not depend on it. -/
theorem lookupsNeedTheRegistry : Obligations.LookupsNeedTheRegistry := by
  refine ⟨fun s i hbuild hi => exec_readsRegistry_build hbuild hi, fun s t i ph r hi h => ?_⟩
  obtain ⟨x, hs, hother⟩ := exec_readsNoRegistry s ph r hi
  rw [hother]
  exact finish_withRegistry ph r (hs.symm.trans h)

/-! ## `REG_BUILD` -/

section
variable {s : State}

theorem regBuild_duplicate (hbuild : s.phase = .build) (hd : ¬ (s.registry.map RegEntry.id).Nodup) :
    exec .regBuild s = .next (s.raise .badOperand) := by
  have hdup : hasDuplicateId s.registry = true :=
    Bool.eq_true_of_not_eq_false fun h => hd (hasDuplicateId_eq_false_iff.1 h)
  simp only [exec, execRegBuild, hbuild, hdup, if_true]

theorem regBuild_distinct (hbuild : s.phase = .build) (hd : (s.registry.map RegEntry.id).Nodup) :
    exec .regBuild s =
      .next (State.complete Results.invalid { s with reg := regOfList s.registry, phase := .run }) := by
  simp [exec, execRegBuild, hbuild, hasDuplicateId_eq_false_iff.2 hd]

end

/-- The built map has exactly the entries of the list it was built from (R98). -/
theorem regLookup_regOfList_iff {l : List RegEntry} (h : (l.map RegEntry.id).Nodup) {id : Half} {c : CodecRef} :
    regLookup (regOfList l) id = some c ↔ RegEntry.mk id c ∈ l := by
  rw [regLookup_ofList l id (hasDuplicateId_eq_false_iff.2 h), regLookup_eq_some_iff h]

/-- Settles O9: the duplicate test is the distinctness of the ids, and the map built then is the list. -/
theorem regBuildOutcome : Obligations.RegBuildOutcome :=
  ⟨rfl, fun _ => regBuild_run, fun _ => regBuild_duplicate, fun _ hbuild hd =>
    ⟨_, regBuild_distinct hbuild hd, rfl, rfl, rfl, fun _ _ => regLookup_regOfList_iff hd, rfl, rfl, rfl, rfl, rfl, rfl⟩⟩

/-! ## `RESOLVE` -/

section
variable {s : State} {id : Half} (hrun : s.phase = .run) (hid : s.cur.opnd.cmdid = some id)
include hrun hid

theorem exec_resolve_unknown (hreg : regLookup s.reg id = none) :
    exec .resolve s = .next (s.raise .unknownCommand) := by
  simp [exec, execResolve, requireRun_run hrun, Operands.readCmdid, hid, hreg]

theorem exec_resolve_found {c : CodecRef} (hreg : regLookup s.reg id = some c) :
    exec .resolve s = .next (s.complete { Results.invalid with found := some 1 }) := by
  simp [exec, execResolve, requireRun_run hrun, Operands.readCmdid, hid, hreg]

/-! ## `CMD_ENC` -/

theorem exec_cmdEnc_unknown (hreg : regLookup s.reg id = none) :
    exec .cmdEnc s = .next (s.raise .unknownCommand) := by
  simp [exec, execCmdEnc, requireRun_run hrun, Operands.readCmdid, hid, hreg]

/-- `CMD_ENC` of a known id: two tests of the length of what the codec returns (R100). -/
theorem exec_cmdEnc_found {c : CodecRef} {p : Params} (hreg : regLookup s.reg id = some c) (hp : s.cur.opnd.pin = some p) :
    exec .cmdEnc s = s.finish (
      if 255 < (Config.codecEncode c p).length then .error (.raise .invalidCommand)
      else if withinCap s.caps.bufMax (Config.codecEncode c p).length then
        .ok { Results.ofOutput (Config.codecEncode c p) with
          rcmdid := some id, rcmdsize := some (BitVec.ofNat 8 (Config.codecEncode c p).length) }
      else .error (.raise .capacityExceeded)) := by
  simp [exec, execCmdEnc, requireRun_run hrun, Operands.readCmdid, Operands.readPin, hid, hreg, hp]

/-! ## `CMD_DEC` -/

/-- `CMD_DEC` of a body that is not too long: one entry in `RQ`, the dispatcher's (R101). -/
theorem exec_cmdDec_ok {body : Bytes} (hbody : s.cur.opnd.inputBytes = some body) (hlen : body.length ≤ 255)
    (hcap : withinCap s.caps.rqMax 1 = true) :
    exec .cmdDec s =
      .next (s.complete { Results.invalid with rq := some [dispatchDecode s.reg id body body] }) := by
  simp [exec, execCmdDec, requireRun_run hrun, Operands.readIlen, inputBytes_ilen hbody, Nat.not_lt.2 hlen,
    readInput_some hbody, Operands.readCmdid, hid, hcap]

end

theorem exec_cmdDec_tooLong {s : State} {n : Nat} (hrun : s.phase = .run) (hn : s.cur.opnd.ilen = some n) (hlen : 255 < n) :
    exec .cmdDec s = .next (s.raise .badOperand) := by
  simp [exec, execCmdDec, requireRun_run hrun, Operands.readIlen, hn, hlen]

theorem withinCap_one_iff {cap : Option Nat} : withinCap cap 1 = true ↔ cap ≠ some 0 := by
  cases cap with
  | none => simp [withinCap]
  | some m => simp [withinCap, Nat.one_le_iff_ne_zero]

/-! ## The dispatcher, by what the registry and the codec answer (R102) -/

section
variable {reg : List RegEntry} {id : Half} {c : CodecRef} (raw : Bytes) {body : Bytes}

theorem dispatchDecode_unknown (body : Bytes) (hreg : regLookup reg id = none) :
    dispatchDecode reg id raw body = .invalid raw (.unknownCommand id) := by
  simp only [dispatchDecode, hreg]

theorem dispatchDecode_codecError (hreg : regLookup reg id = some c) (hdec : Config.codecDecode c body = none) :
    dispatchDecode reg id raw body = .invalid raw .codecError := by
  simp only [dispatchDecode, hreg, hdec]

theorem dispatchDecode_ok {p : Params} (hreg : regLookup reg id = some c) (hdec : Config.codecDecode c body = some p) :
    dispatchDecode reg id raw body = .ok { id := id, body := body } p := by
  simp only [dispatchDecode, hreg, hdec]

end

/-! ## The outcomes -/

/-- Settles O10: the phase check, then the lookup. -/
theorem resolveOutcome : Obligations.ResolveOutcome :=
  ⟨rfl, fun _ hbuild => exec_readsRegistry_build hbuild (by simp), fun _ _ hrun hid =>
    ⟨exec_resolve_unknown hrun hid, fun _ => exec_resolve_found hrun hid⟩⟩

/-- Settles O11: the phase check, then the lookup, then the two tests of the length. -/
theorem cmdEncOutcome : Obligations.CmdEncOutcome := by
  refine ⟨rfl, fun s hbuild => exec_readsRegistry_build hbuild (by simp), fun s id hrun hid =>
    ⟨exec_cmdEnc_unknown hrun hid, fun c p hreg hp => ?_⟩⟩
  rw [exec_cmdEnc_found hrun hid hreg hp]
  refine ⟨fun hlong => ?_, fun hlen hcap => ?_, fun hlen hcap => ?_⟩
  · rw [if_pos hlong, finish_raise]
  · rw [if_neg (Nat.not_lt.2 hlen), if_neg (Bool.not_eq_true _ ▸ hcap), finish_raise]
  · rw [if_neg (Nat.not_lt.2 hlen), if_pos hcap, finish_ok]

/-- Settles O12: the phase check, then the length, then the dispatcher's entry in each of its three cases. -/
theorem cmdDecOutcome : Obligations.CmdDecOutcome := by
  refine ⟨rfl, fun s hbuild => exec_readsRegistry_build hbuild (by simp), fun s n => exec_cmdDec_tooLong,
    fun s id body hrun hid hbody hlen hcap => ?_⟩
  rw [exec_cmdDec_ok hrun hid hbody hlen (withinCap_one_iff.2 hcap)]
  refine ⟨fun hreg => ?_, fun c hreg hdec => ?_, fun c p hreg hdec => ?_⟩
  · rw [dispatchDecode_unknown body body hreg]
  · rw [dispatchDecode_codecError body hreg hdec]
  · rw [dispatchDecode_ok body hreg hdec]

end Sys2Proof.Machine
end

section
/-! PROOFS. The message packer (43_message.md R106 to R118): packing a queue, the walk over the plaintext region, the region as
it is sent and as it is checked, and what the two operations answer. -/

namespace Sys2Proof.Machine

open Sys2Proof

/-! ## Packing a queue -/

/-- A command with a header and a body of at most 255 bytes is packed before the others (R108, R109). -/
theorem packCommands_cons_ok {c : Command} {cq : List Command} {hd p : Bytes} (hlen : c.body.length ≤ 255)
    (henc : hdrEnc c.id (BitVec.ofNat 8 c.body.length) = .ok hd) (hp : packCommands cq = .ok p) :
    packCommands (c :: cq) = .ok (hd ++ c.body ++ p) := by
  simp only [packCommands, gt_iff_lt, if_neg (Nat.not_lt.2 hlen), henc, hp]

/-- Why a queue does not pack: its first command is too long or has no header, or the others do not pack. -/
theorem packCommands_cons_error {c : Command} {cq : List Command} {k : ErrorKind} (h : packCommands (c :: cq) = .error k) :
    (255 < c.body.length ∧ k = .invalidCommand) ∨ hdrEnc c.id (BitVec.ofNat 8 c.body.length) = .error k ∨
      packCommands cq = .error k := by
  unfold packCommands at h
  split at h
  · next hlen => cases h; exact .inl ⟨hlen, rfl⟩
  · split at h
    · next henc => cases h; exact .inr (.inl henc)
    · split at h
      · next hp => cases h; exact .inr (.inr hp)
      · cases h

/-- The headers `hs` are those of the commands `cq`, whose bodies are of at most 255 bytes. -/
def HeadersOf (cq : List Command) (hs : List Bytes) : Prop :=
  List.Forall₂ (fun (c : Command) (h : Bytes) =>
    c.body.length ≤ 255 ∧ hdrEnc c.id (BitVec.ofNat 8 c.body.length) = .ok h) cq hs

/-- Each header followed by its body, in order (R109). -/
def concatCommands (cq : List Command) (hs : List Bytes) : Bytes :=
  (List.zipWith (fun (c : Command) (h : Bytes) => h ++ c.body) cq hs).flatten

theorem packCommands_of_headersOf {cq : List Command} {hs : List Bytes} (h : HeadersOf cq hs) :
    packCommands cq = .ok (concatCommands cq hs) := by
  induction h with
  | nil => rfl
  | cons hc _ ih => exact packCommands_cons_ok hc.1 hc.2 ih

theorem headersOf_of_packCommands {cq : List Command} : ∀ {plain : Bytes}, packCommands cq = .ok plain →
    ∃ hs, HeadersOf cq hs ∧ plain = concatCommands cq hs := by
  induction cq with
  | nil => intro plain h; cases h; exact ⟨[], .nil, rfl⟩
  | cons c cq ih =>
    intro plain h
    obtain ⟨hd, p, hlen, henc, hp, rfl⟩ := packCommands_cons h
    obtain ⟨hs, hall, rfl⟩ := ih hp
    exact ⟨hd :: hs, .cons ⟨hlen, henc⟩ hall, rfl⟩

/-- A queue that does not pack has a command that is too long or has no header. -/
theorem packCommands_error {cq : List Command} {k : ErrorKind} (h : packCommands cq = .error k) :
    k = .invalidCommand ∧
      ∃ c ∈ cq, 255 < c.body.length ∨ hdrEnc c.id (BitVec.ofNat 8 c.body.length) = .error .invalidCommand := by
  induction cq with
  | nil => cases h
  | cons c cq ih =>
    rcases packCommands_cons_error h with ⟨hlen, rfl⟩ | henc | hrest
    · exact ⟨rfl, c, List.mem_cons_self, .inl hlen⟩
    · obtain rfl := hdrEnc_error henc
      exact ⟨rfl, c, List.mem_cons_self, .inr henc⟩
    · obtain ⟨hk, c', hmem, hc⟩ := ih hrest
      exact ⟨hk, c', List.mem_cons_of_mem _ hmem, hc⟩

/-- Settles O15, by induction on the queue and on the list of its headers. -/
theorem packingConcatenatesHeadersAndBodies : Obligations.PackingConcatenatesHeadersAndBodies := by
  refine ⟨fun cq plain => ⟨headersOf_of_packCommands, ?_⟩, fun _ _ => packCommands_error⟩
  rintro ⟨hs, hall, rfl⟩
  exact packCommands_of_headersOf hall

/-! ## The length of a packed queue -/

theorem length_concatCommands (cq : List Command) (hs : List Bytes) :
    (concatCommands cq hs).length =
      (List.zipWith (fun (c : Command) (h : Bytes) => h.length + c.body.length) cq hs).sum := by
  simp [concatCommands, List.length_flatten, List.map_zipWith]

/-- A command is at most 258 bytes: a header of 3 and a body of 255 (R110). -/
theorem length_concatCommands_le {cq : List Command} {hs : List Bytes} (h : HeadersOf cq hs) :
    (concatCommands cq hs).length ≤ 258 * cq.length := by
  induction h with
  | nil => exact Nat.le_refl 0
  | @cons c hd cq hs hc _ ih =>
    have hlen := (hdrEnc_length hc.2).2
    have hbody := hc.1
    have hcons : (concatCommands (c :: cq) (hd :: hs)).length =
        hd.length + c.body.length + (concatCommands cq hs).length := by simp [concatCommands, Nat.add_assoc]
    rw [hcons, List.length_cons]
    omega

/-! ## The walk over the plaintext region -/

section
variable {reg : List RegEntry} {r : Bytes} {h : Header}

theorem hdrDec_error {k : ErrorKind} (hne : r ≠ []) (hd : hdrDec r = .error k) : k = .bufferTooShort := by
  rcases hdrDec_cases r with ⟨hnil, _⟩ | ⟨_, h1⟩ | ⟨_, h1, _⟩
  · exact absurd hnil hne
  · rw [h1] at hd; cases hd; rfl
  · rw [h1] at hd; cases hd

theorem ne_nil_of_hdrDec_ok (hd : hdrDec r = .ok h) : r ≠ [] := by
  rintro rfl
  cases hd

theorem hdrDec_headerSize_pos (hd : hdrDec r = .ok h) : 1 ≤ h.headerSize := by
  rcases hdrDec_cases r with ⟨_, h1⟩ | ⟨_, h1⟩ | ⟨h', h1, hsize, _⟩
  · rw [h1] at hd; cases hd
  · rw [h1] at hd; cases hd
  · rw [h1] at hd
    cases hd
    omega

@[simp] theorem unpackFrom_nil (fuel : Nat) : unpackFrom reg fuel [] = [] := by cases fuel <;> rfl

/-- A header cut off ends the walk (R112). -/
theorem unpackFrom_headerCut {k : ErrorKind} (fuel : Nat) (hne : r ≠ []) (hd : hdrDec r = .error k) :
    unpackFrom reg (fuel + 1) r = [.invalid r .bufferTooShort] := by
  simp [unpackFrom, hne, hd]

/-- A body cut off ends the walk (R112). -/
theorem unpackFrom_bodyCut (fuel : Nat) (hd : hdrDec r = .ok h) (hcut : r.length < h.headerSize + h.commandSize.toNat) :
    unpackFrom reg (fuel + 1) r = [.invalid r .bufferTooShort] := by
  simp [unpackFrom, ne_nil_of_hdrDec_ok hd, hd, hcut]

/-- A whole command is dispatched, and the walk goes on after it (R112). -/
theorem unpackFrom_whole (fuel : Nat) (hd : hdrDec r = .ok h) (hfit : h.headerSize + h.commandSize.toNat ≤ r.length) :
    unpackFrom reg (fuel + 1) r =
      dispatchDecode reg h.commandId (r.take (h.headerSize + h.commandSize.toNat))
          ((r.take (h.headerSize + h.commandSize.toNat)).drop h.headerSize)
        :: unpackFrom reg fuel (r.drop (h.headerSize + h.commandSize.toNat)) := by
  simp [unpackFrom, ne_nil_of_hdrDec_ok hd, hd, Nat.not_lt.2 hfit]

end

/-- Fuel beyond the number of bytes changes nothing: every round takes at least one byte. -/
theorem unpackFrom_eq_of_le (reg : List RegEntry) (fuel : Nat) :
    ∀ (fuel' : Nat) (r : Bytes), r.length ≤ fuel → r.length ≤ fuel' → unpackFrom reg fuel r = unpackFrom reg fuel' r := by
  induction fuel with
  | zero =>
    intro fuel' r h _
    rw [List.length_eq_zero_iff.1 (Nat.le_zero.1 h), unpackFrom_nil, unpackFrom_nil]
  | succ fuel ih =>
    intro fuel' r h h'
    by_cases hne : r = []
    · rw [hne, unpackFrom_nil, unpackFrom_nil]
    · have hpos := List.length_pos_iff.2 hne
      obtain ⟨n, rfl⟩ : ∃ n, fuel' = n + 1 := ⟨fuel' - 1, by omega⟩
      cases hd : hdrDec r with
      | error k => rw [unpackFrom_headerCut fuel hne hd, unpackFrom_headerCut n hne hd]
      | ok hdr =>
        rcases Nat.lt_or_ge r.length (hdr.headerSize + hdr.commandSize.toNat) with hcut | hfit
        · rw [unpackFrom_bodyCut fuel hd hcut, unpackFrom_bodyCut n hd hcut]
        · have hsize := hdrDec_headerSize_pos hd
          rw [unpackFrom_whole fuel hd hfit, unpackFrom_whole n hd hfit,
            ih n _ (by rw [List.length_drop]; omega) (by rw [List.length_drop]; omega)]

/-- The walk over a region, with any fuel that is enough. -/
theorem unpackFrom_eq_unpackCommands (reg : List RegEntry) {fuel : Nat} {r : Bytes} (h : r.length ≤ fuel) :
    unpackFrom reg fuel r = unpackCommands reg r :=
  unpackFrom_eq_of_le reg fuel r.length r h (Nat.le_refl _)

/-- The walk over a region that is not empty starts with one round. -/
theorem unpackCommands_of_ne_nil (reg : List RegEntry) {r : Bytes} (hne : r ≠ []) :
    unpackCommands reg r = unpackFrom reg (r.length - 1 + 1) r := by
  rw [Nat.sub_add_cancel (List.length_pos_iff.2 hne), unpackCommands]

/-- Settles O19: the walk is one round and the walk over what follows, whatever fuel is left. -/
theorem unpackWalksTheRegion : Obligations.UnpackWalksTheRegion := by
  refine fun reg => ⟨rfl, fun r k hne hd => ⟨hdrDec_error hne hd, ?_⟩, fun r h hd => ?_⟩
  · rw [unpackCommands_of_ne_nil reg hne, unpackFrom_headerCut _ hne hd]
  · have hpos := hdrDec_headerSize_pos hd
    rw [unpackCommands_of_ne_nil reg (ne_nil_of_hdrDec_ok hd)]
    refine ⟨unpackFrom_bodyCut _ hd, fun hfit => ?_⟩
    rw [unpackFrom_whole _ hd hfit,
      unpackFrom_eq_unpackCommands reg (by rw [List.length_drop]; omega)]
    rfl

/-- Settles O20: a truthful header makes one round of the walk take exactly its command. -/
theorem commandsAreIsolated : Obligations.CommandsAreIsolated := by
  intro reg id body w rest hlen henc
  have hpos := (hdrEnc_length henc).1
  have hne : w ++ body ++ rest ≠ [] := by
    rw [← List.length_pos_iff, List.length_append, List.length_append]
    omega
  have hwalk : unpackCommands reg (w ++ body ++ rest) =
      dispatchDecode reg id (w ++ body) body :: unpackCommands reg rest := by
    rw [unpackCommands_of_ne_nil reg hne, unpackFrom_command reg _ rest hlen henc,
      unpackFrom_eq_unpackCommands reg (by simp only [List.length_append]; omega)]
  exact ⟨hwalk, fun hreg => by rw [hwalk, dispatchDecode_unknown _ _ hreg, List.head?_cons]⟩

/-! ## The region as it is sent and as it is checked -/

/-- The levels that encrypt are 1 and 2 (R114). -/
theorem requiresEncryption_iff : ∀ a : BitVec 2, requiresEncryption a = true ↔ a = 1 ∨ a = 2 := by decide

theorem requiresEncryption_of_ne : ∀ a : BitVec 2, a ≠ 3 → a ≠ 0 → requiresEncryption a = true := by decide

/-- Step 3 of `MSG_PACK` at a level that encrypts (R109). -/
theorem encryptRegion_key {o : Operands} {a : BitVec 2} {k : Key} (plain : Bytes) (h : requiresEncryption a = true)
    (hk : o.key = some k) : encryptRegion o a plain = .ok (Config.cipherEnc k plain) := by
  simp only [encryptRegion, h, if_true, Operands.readKey, hk, readElement_some, ok_bind, pure_eq_ok]

/-- The region as it is sent, at every level but 3. -/
theorem encryptRegion_sent {o : Operands} {a : BitVec 2} {plain region : Bytes} (h3 : a ≠ 3)
    (h : (a = 0 ∧ region = plain) ∨ (a ≠ 0 ∧ ∃ k, o.key = some k ∧ region = Config.cipherEnc k plain)) :
    encryptRegion o a plain = .ok region := by
  rcases h with ⟨rfl, rfl⟩ | ⟨h0, k, hk, rfl⟩
  · exact encryptRegion_unencrypted o region
  · exact encryptRegion_key plain (requiresEncryption_of_ne a h3 h0) hk

/-- The region of a level that encrypts comes from the key. -/
theorem encryptRegion_eq_ok {o : Operands} {a : BitVec 2} {plain region : Bytes} (h : requiresEncryption a = true)
    (hr : encryptRegion o a plain = .ok region) : ∃ k, o.key = some k ∧ region = Config.cipherEnc k plain := by
  cases hk : o.key with
  | none => simp [encryptRegion, h, Operands.readKey, hk] at hr
  | some k => rw [encryptRegion_key plain h hk] at hr; cases hr; exact ⟨k, rfl, rfl⟩

/-- The region as it is checked at a level that encrypts, where a key is supplied (R111, R115). -/
theorem decryptRegion_key {o : Operands} {a : BitVec 2} {k : Key} (region : Bytes) (h : requiresEncryption a = true)
    (hk : o.key = some k) : decryptRegion o a 1 region = .ok (Config.cipherDec k region) := by
  simp only [decryptRegion, h, and_self, if_true, Operands.readKey, hk, readElement_some, ok_bind, pure_eq_ok]

/-- The region as it is checked, at every level but 3, with and without a key. -/
theorem decryptRegion_checked {o : Operands} {a : BitVec 2} {kv : BitVec 1} {region plain : Bytes} (h3 : a ≠ 3)
    (h : ((a = 0 ∨ kv = 0) ∧ plain = region) ∨
      (a ≠ 0 ∧ kv = 1 ∧ ∃ k, o.key = some k ∧ plain = Config.cipherDec k region)) :
    decryptRegion o a kv region = .ok plain := by
  rcases h with ⟨hplain, rfl⟩ | ⟨h0, rfl, k, hk, rfl⟩
  · exact decryptRegion_plain plain hplain
  · exact decryptRegion_key region (requiresEncryption_of_ne a h3 h0) hk

/-- Under `CIPHER_INV` the region that was sent is checked as the plaintext it was made of: in plain text, or with the same
key. -/
theorem decryptRegion_encryptRegion {o o' : Operands} {a : BitVec 2} {kv : BitVec 1} {plain region : Bytes} (h3 : a ≠ 3)
    (hsent : encryptRegion o a plain = .ok region)
    (h : a = 0 ∨ (Config.CipherInv ∧ kv = 1 ∧ o'.key = o.key)) : decryptRegion o' a kv region = .ok plain := by
  by_cases h0 : a = 0
  · subst h0
    obtain rfl : plain = region := Except.ok.inj hsent
    exact decryptRegion_plain plain (.inl rfl)
  · obtain ⟨hinv, rfl, hkey⟩ := h.resolve_left h0
    have henc := requiresEncryption_of_ne a h3 h0
    obtain ⟨k, hk, rfl⟩ := encryptRegion_eq_ok henc hsent
    rw [decryptRegion_key _ henc (hkey.trans hk), hinv]

/-! ## `MSG_PACK` -/

section
variable {p : LrcParams} {s : State} {a : BitVec 2} {kv : BitVec 1} {cq : List Command}

theorem exec_msgPack_reservedLevel (ha : s.cur.opnd.access = some 3) :
    exec .msgPack s = .next (s.raise .badOperand) := by
  simp [exec, execMsgPack, packMessage, Operands.readAccess, ha]

/-- A level that encrypts, without a key (R109). -/
theorem exec_msgPack_noKey (ha : s.cur.opnd.access = some a) (henc : requiresEncryption a = true)
    (hk : s.cur.opnd.keyv = some 0) : exec .msgPack s = .next (s.raise .badOperand) := by
  have hkey : requireKey s.cur.opnd a = .error (.raise .badOperand) :=
    (requireKey_held a hk).trans (if_pos ⟨henc, rfl⟩)
  have h3 : a ≠ 3 := by rintro rfl; cases henc
  simp only [exec, execMsgPack, packMessage, Operands.readAccess, ha, readElement_some, ok_bind, if_neg h3, hkey, error_bind,
    finish_raise]

theorem requireKey_keyed {o : Operands} (a : BitVec 2) (hk : o.keyv = some 1) : requireKey o a = .ok () :=
  (requireKey_held a hk).trans (if_neg fun h => absurd h.2 (by decide))

theorem orRaise_eq_ok {α : Type} {x : Except ErrorKind α} {v : α} : orRaise x = .ok v ↔ x = .ok v := by
  cases x <;> simp

/-- `MSG_PACK` past its tests of level and key (R109). -/
theorem packMessage_tested (ha : s.cur.opnd.access = some a) (h3 : a ≠ 3) (hkey : requireKey s.cur.opnd a = .ok ())
    (hcq : s.cur.opnd.cq = some cq) :
    packMessage p s = (do
      let plain ← orRaise (packCommands cq)
      let mid ← s.cur.opnd.readMsgid
      let region ← encryptRegion s.cur.opnd a plain
      if withinCap s.caps.bufMax ([mid] ++ region ++ [computeBlockParity p (mid :: plain)]).length then
        return Results.ofOutput ([mid] ++ region ++ [computeBlockParity p (mid :: plain)])
      else .error (.raise .capacityExceeded)) := by
  simp only [packMessage, Operands.readAccess, ha, readElement_some, ok_bind, if_neg h3, hkey, Operands.readCq, hcq]
  rfl

/-- Where `MSG_PACK` completes, its queue packs and its output is id, region and checksum (R109). -/
theorem packMessage_ok {r : Results} (h : packMessage p s = .ok r) (ha : s.cur.opnd.access = some a)
    (hcq : s.cur.opnd.cq = some cq) :
    a ≠ 3 ∧ ∃ plain mid region, packCommands cq = .ok plain ∧ s.cur.opnd.msgid = some mid ∧
      encryptRegion s.cur.opnd a plain = .ok region ∧
      r = Results.ofOutput ([mid] ++ region ++ [computeBlockParity p (mid :: plain)]) := by
  have h3 : a ≠ 3 := by rintro rfl; simp [packMessage, Operands.readAccess, ha] at h
  have hkey : requireKey s.cur.opnd a = .ok () := by
    simp only [packMessage, Operands.readAccess, ha, readElement_some, ok_bind, if_neg h3] at h
    obtain ⟨_, hkey, _⟩ := bind_eq_ok.1 h
    exact hkey
  rw [packMessage_tested ha h3 hkey hcq] at h
  obtain ⟨plain, hpack, h⟩ := bind_eq_ok.1 h
  obtain ⟨mid, hmid, h⟩ := bind_eq_ok.1 h
  obtain ⟨region, hregion, h⟩ := bind_eq_ok.1 h
  split at h
  · cases h
    exact ⟨h3, plain, mid, region, orRaise_eq_ok.1 hpack, readElement_eq_ok.1 hmid, hregion, rfl⟩
  · cases h

/-- `MSG_PACK` of a queue that does not pack (R109). -/
theorem exec_msgPack_notPacked {k : ErrorKind} (ha : s.cur.opnd.access = some a) (h3 : a ≠ 3)
    (hkey : requireKey s.cur.opnd a = .ok ()) (hcq : s.cur.opnd.cq = some cq) (hpack : packCommands cq = .error k) :
    exec .msgPack s = .next (s.raise k) := by
  rw [exec, execMsgPack, packMessage_tested ha h3 hkey hcq, hpack, orRaise_error, error_bind, finish_raise]

/-- `MSG_PACK` of a queue that packs: the test of the capacity is left (R109). -/
theorem exec_msgPack_packed {plain region : Bytes} {mid : Byte} (ha : s.cur.opnd.access = some a) (h3 : a ≠ 3)
    (hkey : requireKey s.cur.opnd a = .ok ()) (hcq : s.cur.opnd.cq = some cq) (hpack : packCommands cq = .ok plain)
    (hmid : s.cur.opnd.msgid = some mid) (hregion : encryptRegion s.cur.opnd a plain = .ok region) :
    exec .msgPack s = s.finish (
      if withinCap s.caps.bufMax ([mid] ++ region ++ [computeBlockParity Config.lrc (mid :: plain)]).length then
        .ok (Results.ofOutput ([mid] ++ region ++ [computeBlockParity Config.lrc (mid :: plain)]))
      else .error (.raise .capacityExceeded)) := by
  rw [exec, execMsgPack, packMessage_tested ha h3 hkey hcq, hpack, orRaise_ok, ok_bind, Operands.readMsgid, hmid,
    readElement_some, ok_bind, hregion, ok_bind, pure_eq_ok]

end

/-- Settles O16: the tests of level and key, then the packing of the queue, then the test of the capacity. -/
theorem msgPackOutcome : Obligations.MsgPackOutcome := by
  refine ⟨rfl, fun s a ha => ⟨?_, ?_, ?_⟩⟩
  · rintro rfl
    exact exec_msgPack_reservedLevel ha
  · intro henc hk
    exact exec_msgPack_noKey ha ((requiresEncryption_iff a).2 henc) hk
  · intro kv cq hk hlevel hcq
    have h3 : a ≠ 3 := by rcases hlevel with rfl | ⟨rfl | rfl, _⟩ <;> decide
    have hkey : requireKey s.cur.opnd a = .ok () := by
      rcases hlevel with rfl | ⟨_, rfl⟩
      · exact requireKey_unencrypted hk
      · exact requireKey_keyed a hk
    refine ⟨fun k hpack => exec_msgPack_notPacked ha h3 hkey hcq hpack, fun plain region mid hpack hmid hregion => ?_⟩
    rw [exec_msgPack_packed ha h3 hkey hcq hpack hmid (encryptRegion_sent h3 hregion)]
    refine ⟨fun hcap => ?_, fun hcap => ?_⟩
    · rw [if_pos hcap, finish_ok]
    · rw [if_neg (Bool.not_eq_true _ ▸ hcap), finish_raise]

/-- Settles O17: the output is id, region and checksum, and the region is the queue's headers and bodies. -/
theorem packedMessageLength : Obligations.PackedMessageLength := by
  intro s t cq n h hn ha hcq
  rcases finish_next h with ⟨r, hr, rfl⟩ | ⟨k, _, rfl⟩
  · obtain ⟨_, plain, mid, region, hpack, _, hregion, rfl⟩ := packMessage_ok hr ha hcq
    obtain rfl : plain = region := Except.ok.inj hregion
    obtain ⟨hs, hall, rfl⟩ := headersOf_of_packCommands hpack
    have hlen : n = 2 + (concatCommands cq hs).length := by
      simp only [complete_res, ofOutput_olen, Option.some.injEq, List.length_append, List.length_singleton] at hn
      omega
    refine ⟨⟨hs, hall.imp fun _ _ hc => hc.2, hlen.trans (by rw [length_concatCommands])⟩, ?_⟩
    have hle := length_concatCommands_le hall
    omega
  · cases hn

/-! ## `MSG_UNPACK` -/

section
variable {s : State} {i : Instr} {a : BitVec 2} {kv : BitVec 1} {input : Except Stop Bytes} {mid chk : Byte}
  {region plain : Bytes}

/-- A level that does not exist (R111). -/
theorem msgUnpack_reservedLevel {p : LrcParams} (hrun : s.phase = .run) (ha : s.cur.opnd.access = some 3) :
    msgUnpack p s input = .error (.raise .badOperand) := by
  rw [msgUnpack, requireAccess_run hrun ha, if_pos rfl, error_bind]

/-- What a message of at least two bytes unpacks to, by the plaintext it is checked as (R111). -/
theorem msgUnpack_checked {p : LrcParams} (hrun : s.phase = .run) (ha : s.cur.opnd.access = some a) (h3 : a ≠ 3)
    (hk : s.cur.opnd.keyv = some kv) (hplain : decryptRegion s.cur.opnd a kv region = .ok plain) :
    msgUnpack p s (.ok ([mid] ++ region ++ [chk])) =
      if computeBlockParity p (mid :: plain) ≠ chk then .error (.raise .checksumMismatch)
      else if withinCap s.caps.rqMax (unpackCommands s.reg plain).length then
        .ok { messageId := mid, accessLevel := a, commands := unpackCommands s.reg plain, checksum := chk }
      else .error (.raise .capacityExceeded) := by
  rw [msgUnpack_run _ hrun ha h3 hk, ok_bind, unpackMessage_parts, hplain, ok_bind]
  rfl

/-- The three ends of an instruction that unpacks a message, by the plaintext it is checked as (R111). -/
theorem exec_unpacks
    (hi : exec i s = s.finish (do
      let m ← msgUnpack Config.lrc s (.ok ([mid] ++ region ++ [chk]))
      return messageResults m Results.invalid))
    (hrun : s.phase = .run) (ha : s.cur.opnd.access = some a) (h3 : a ≠ 3)
    (hk : s.cur.opnd.keyv = some kv) (hplain : decryptRegion s.cur.opnd a kv region = .ok plain) :
    let sum := computeBlockParity Config.lrc (mid :: plain)
    let l := unpackCommands s.reg plain
    (sum ≠ chk → exec i s = .next (s.raise .checksumMismatch)) ∧
    (sum = chk → withinCap s.caps.rqMax l.length = false → exec i s = .next (s.raise .capacityExceeded)) ∧
    (sum = chk → withinCap s.caps.rqMax l.length = true →
      exec i s = .next (s.complete { Results.invalid with
        rmsgid := some mid, raccess := some a, rchk := some chk, rq := some l })) := by
  rw [hi, msgUnpack_checked hrun ha h3 hk hplain]
  refine ⟨fun hsum => ?_, fun hsum hcap => ?_, fun hsum hcap => ?_⟩
  · rw [if_pos hsum, error_bind, finish_raise]
  · rw [if_neg (not_not.2 hsum), if_neg (Bool.not_eq_true _ ▸ hcap), error_bind, finish_raise]
  · rw [if_neg (not_not.2 hsum), if_pos hcap, ok_bind, pure_eq_ok, finish_ok]
    rfl

theorem exec_msgUnpack {b : Bytes} (hb : s.cur.opnd.inputBytes = some b) :
    exec .msgUnpack s = s.finish (do
      let m ← msgUnpack Config.lrc s (.ok b)
      return messageResults m Results.invalid) := by
  rw [exec, execMsgUnpack, readInput_some hb]

theorem unpackMessage_tooShort {p : LrcParams} {b : Bytes} (h : b.length < 2) :
    unpackMessage p s a kv b = .error (.raise .bufferTooShort) := by
  match b, h with
  | [], _ => rfl
  | [_], _ => rfl

end

/-- Settles O18: the phase, the level, the length, then the three ends of the unpacking. -/
theorem msgUnpackOutcome : Obligations.MsgUnpackOutcome := by
  refine ⟨rfl, fun s hbuild => exec_readsRegistry_build hbuild (by simp), fun s a hrun ha => ⟨?_, ?_, ?_⟩⟩
  · rintro rfl
    rw [exec, execMsgUnpack, msgUnpack_reservedLevel hrun ha, error_bind, finish_raise]
  · intro kv b h3 hk hb hshort
    rw [exec_msgUnpack hb, msgUnpack_run _ hrun ha h3 hk, ok_bind, unpackMessage_tooShort hshort, error_bind, finish_raise]
  · intro kv mid chk region plain h3 hk hb hplain
    exact exec_unpacks (exec_msgUnpack hb) hrun ha h3 hk (decryptRegion_checked h3 hplain)

/-- Settles O37: the same tests and ends, on the bytes of the item. -/
theorem messageItemUnpacks : Obligations.MessageItemUnpacks := by
  refine ⟨fun s mid chk region hbuild => ?_, fun s mid chk region hrun ha => ?_, ?_⟩
  · rw [exec, execMessage, msgUnpack, requireAccess_build hbuild, error_bind, error_bind, finish_raise]
  · rw [exec, execMessage, msgUnpack_reservedLevel hrun ha, error_bind, finish_raise]
  · intro s a kv mid chk region plain hrun ha h3 hk hplain
    exact exec_unpacks rfl hrun ha h3 hk (decryptRegion_checked h3 hplain)

/-! ## The round trip -/

/-- A message that was packed is checked as the plaintext it was made of, and then unpacks to its commands (R117). -/
theorem msgUnpack_packed {p : LrcParams} {s u : State} {r : Results} {cq : List Command} {mid : Byte} {a : BitVec 2}
    {kv : BitVec 1} {b : Bytes} (hr : packMessage p s = .ok r) (hcq : s.cur.opnd.cq = some cq)
    (hmid : s.cur.opnd.msgid = some mid) (ha : s.cur.opnd.access = some a) (hb : r.outputBytes = some b)
    (hrun : u.phase = .run) (hua : u.cur.opnd.access = some a) (hub : u.cur.opnd.inputBytes = some b)
    (huk : u.cur.opnd.keyv = some kv)
    (hkey : a = 0 ∨ (Config.CipherInv ∧ kv = 1 ∧ u.cur.opnd.key = s.cur.opnd.key)) (hrq : u.caps.rqMax = none) :
    ∃ hs chk,
      List.Forall₂ (fun (c : Command) (h : Bytes) => hdrEnc c.id (BitVec.ofNat 8 c.body.length) = .ok h) cq hs ∧
      msgUnpack p u u.cur.opnd.readInput =
        .ok { messageId := mid, accessLevel := a, commands := dispatched u.reg cq hs, checksum := chk } := by
  obtain ⟨h3, plain, mid', region, hpack, hmid', hregion, rfl⟩ := packMessage_ok hr ha hcq
  obtain rfl : mid = mid' := Option.some.inj (hmid.symm.trans hmid')
  obtain rfl : [mid] ++ region ++ [computeBlockParity p (mid :: plain)] = b :=
    Option.some.inj ((outputBytes_ofOutput _).symm.trans hb)
  obtain ⟨hs, hall, hwalk⟩ := unpackCommands_packCommands u.reg hpack
  refine ⟨hs, computeBlockParity p (mid :: plain), hall, ?_⟩
  rw [readInput_some hub, msgUnpack_checked hrun hua h3 huk (decryptRegion_encryptRegion h3 hregion hkey),
    if_neg (not_not.2 rfl), if_pos (withinCap_of_none hrq _), hwalk]

theorem exec_msgUnpack_ok {s : State} {m : MessageResult} (h : msgUnpack Config.lrc s s.cur.opnd.readInput = .ok m) :
    exec .msgUnpack s = .next (s.complete (messageResults m Results.invalid)) := by
  rw [exec, execMsgUnpack, h, ok_bind, pure_eq_ok, finish_ok]

/-- Settles O21: the region that was sent is checked as its plaintext, and the walk over that finds the queue's commands. -/
theorem messageRoundTrip : Obligations.MessageRoundTrip := by
  refine ⟨fun p s u r cq mid a b hr hcq hmid ha hb hrun hua hub hkey hrq => ?_,
    fun s t u cq mid b hexec hok hcq hmid ha hb hrun hua hk hub hrq => ?_⟩
  · obtain ⟨kv, huk, hkey⟩ : ∃ kv, u.cur.opnd.keyv = some kv ∧
        (a = 0 ∨ (Config.CipherInv ∧ kv = 1 ∧ u.cur.opnd.key = s.cur.opnd.key)) := by
      rcases hkey with ⟨h0, kv, huk⟩ | ⟨hinv, huk, hsame⟩
      · exact ⟨kv, huk, .inl h0⟩
      · exact ⟨1, huk, .inr ⟨hinv, rfl, hsame⟩⟩
    obtain ⟨hs, chk, hall, hm⟩ := msgUnpack_packed hr hcq hmid ha hb hrun hua hub huk hkey hrq
    exact ⟨hs, hall, _, hm, rfl, rfl, rfl⟩
  · obtain ⟨kv, huk⟩ := Option.ne_none_iff_exists'.1 hk
    rcases finish_next hexec with ⟨r, hr, rfl⟩ | ⟨k, _, rfl⟩
    · obtain ⟨hs, chk, hall, hm⟩ := msgUnpack_packed hr hcq hmid ha hb hrun hua hub huk (.inl rfl) hrq
      exact ⟨hs, hall, _, exec_msgUnpack_ok hm, rfl, rfl, rfl, rfl⟩
    · cases hok

end Sys2Proof.Machine
end

section
/-! PROOFS. The frame codec (44_frame.md R121 to R134): the escape and the unescape machine by the items of a sequence, what the
split of a received buffer answers for each shape, and what the operations and items of the unit answer. -/

namespace Sys2Proof.Machine

open Sys2Proof

/-! ## The unescape machine, by the items of its input -/

/-- The machine reads `i` as the byte `c`, whatever follows, and is then back in its first state (R125). -/
def ReadAs (i : Bytes) (c : Byte) : Prop := ∀ rest, unescape (i ++ rest) = (unescape rest).map (c :: ·)

theorem readAs_literal {b : Byte} (h : b ≠ Config.esc) : ReadAs [b] b := by
  intro rest
  rw [List.singleton_append, unescape, unescapeFrom, if_neg h, unescape]
  cases unescapeFrom false rest <;> rfl

theorem readAs_pair (f : Byte) : ReadAs [Config.esc, f] (f ^^^ Config.escXor) := by
  intro rest
  rw [List.cons_append, List.singleton_append, unescape, unescapeFrom, if_pos rfl, unescapeFrom, unescape]
  cases unescapeFrom false rest <;> rfl

/-- Settles O23: the table of R125, row by row. -/
theorem unescapeFollowsTheStateMachine : Obligations.UnescapeFollowsTheStateMachine :=
  ⟨rfl, fun _ rest h => readAs_literal h rest, fun f rest => readAs_pair f rest, rfl⟩

/-- A byte sequence as the machine takes it apart: items, and perhaps an escape byte with no follower at the end. -/
theorem items_induction {motive : Bytes → Prop} (nil : motive [])
    (item : ∀ i c rest, ReadAs i c → motive rest → motive (i ++ rest)) (trailing : motive [Config.esc]) :
    ∀ s, motive s
  | [] => nil
  | [b] => if h : b = Config.esc then h ▸ trailing else item [b] b [] (readAs_literal h) nil
  | b :: f :: rest =>
    if h : b = Config.esc then h ▸ item [Config.esc, f] _ rest (readAs_pair f) (items_induction nil item trailing rest)
    else item [b] b (f :: rest) (readAs_literal h) (items_induction nil item trailing (f :: rest))

theorem except_map_eq_ok {α β : Type} {x : Except ErrorKind α} {g : α → β} {v : β} :
    x.map g = .ok v ↔ ∃ a, x = .ok a ∧ g a = v := by
  cases x <;> simp [Except.map]

theorem except_map_eq_error {α β : Type} {x : Except ErrorKind α} {g : α → β} {k : ErrorKind} :
    x.map g = .error k ↔ x = .error k := by
  cases x <;> simp [Except.map]

/-- After an input that the machine accepts it is back in its first state. -/
theorem unescape_append (s t : Bytes) :
    ∀ {o : Bytes}, unescape s = .ok o → unescape (s ++ t) = (unescape t).map (o ++ ·) := by
  induction s using items_induction with
  | nil =>
    rintro _ ⟨⟩
    rw [List.nil_append]
    cases unescape t <;> rfl
  | item i c rest hi ih =>
    intro o h
    rw [hi] at h
    obtain ⟨o, hrest, rfl⟩ := except_map_eq_ok.1 h
    rw [List.append_assoc, hi, ih hrest]
    cases unescape t <;> rfl
  | trailing => nofun

theorem unescape_error_kind {s : Bytes} {k : ErrorKind} (h : unescape s = .error k) : k = .truncatedFrame := by
  rcases unescape_cases s with hs | ⟨o, hs, _⟩
  · exact Except.error.inj (h.symm.trans hs)
  · cases h.symm.trans hs

/-- What the machine rejects ends in an escape byte, and it accepts what stands before that. -/
theorem unescape_rejected {k : ErrorKind} (s : Bytes) :
    unescape s = .error k → ∃ p o, s = p ++ [Config.esc] ∧ unescape p = .ok o := by
  induction s using items_induction with
  | nil => nofun
  | item i c rest hi ih =>
    intro h
    rw [hi] at h
    obtain ⟨p, o, rfl, hp⟩ := ih (except_map_eq_error.1 h)
    exact ⟨i ++ p, c :: o, (List.append_assoc i p _).symm, by rw [hi, hp]; rfl⟩
  | trailing => exact fun _ => ⟨[], [], rfl, rfl⟩

/-- Settles O24: the machine gets to the end of whatever stands before the last byte it rejects. -/
theorem unescapeRejectsOnlyTrailingEscape : Obligations.UnescapeRejectsOnlyTrailingEscape := by
  refine fun s k => ⟨fun h => ⟨unescape_error_kind h, unescape_rejected s h⟩, ?_⟩
  rintro ⟨rfl, p, o, rfl, hp⟩
  exact unescape_append p [Config.esc] hp

/-! ## Escaped sequences -/

theorem inEscapeSet_iff {b : Byte} : inEscapeSet b = true ↔ b = 0x7E#8 ∨ b = 0x7D#8 ∨ b = 0x11#8 ∨ b = 0x13#8 := by
  simp [inEscapeSet, Config.flag, Config.esc, Config.flowA, Config.flowB, or_assoc]

theorem escapeByte_eq (b : Byte) :
    escapeByte b =
      if b = 0x7E#8 ∨ b = 0x7D#8 ∨ b = 0x11#8 ∨ b = 0x13#8 then [0x7D#8, b ^^^ 0x20#8] else [b] :=
  if_congr inEscapeSet_iff rfl rfl

/-- The follower of an escape byte needs no escaping itself (R123). -/
theorem inEscapeSet_follower {b : Byte} (h : inEscapeSet b = true) : inEscapeSet (b ^^^ Config.escXor) = false := by
  rcases inEscapeSet_iff.1 h with rfl | rfl | rfl | rfl <;> decide

/-- The two items one byte can be sent as (R121, R122). -/
theorem escapeByte_cases (b : Byte) :
    (b ≠ Config.esc ∧ inEscapeSet b = false ∧ escapeByte b = [b]) ∨
    (∃ f, inEscapeSet f = false ∧ escapeByte b = [Config.esc, f]) := by
  cases hb : inEscapeSet b with
  | false =>
    have hne : b ≠ Config.esc := fun h => Bool.noConfusion (hb.symm.trans (congrArg inEscapeSet h))
    exact .inl ⟨hne, rfl, if_neg (Bool.not_eq_true _ ▸ hb)⟩
  | true => exact .inr ⟨_, inEscapeSet_follower hb, if_pos hb⟩

theorem escape_cons (b : Byte) (s : Bytes) : escape (b :: s) = escapeByte b ++ escape s := List.flatMap_cons

theorem escape_append (s t : Bytes) : escape (s ++ t) = escape s ++ escape t := List.flatMap_append

theorem escape_length (s : Bytes) : s.length ≤ (escape s).length ∧ (escape s).length ≤ 2 * s.length := by
  induction s with
  | nil => exact ⟨Nat.le_refl 0, Nat.le_refl 0⟩
  | cons b s ih =>
    have hb : (escapeByte b).length = 1 ∨ (escapeByte b).length = 2 := by
      rcases escapeByte_cases b with ⟨_, _, h⟩ | ⟨f, _, h⟩ <;> simp [h]
    rw [escape_cons, List.length_append, List.length_cons]
    omega

/-- Of the bytes that are escaped, only the escape byte itself stands in an escaped sequence. -/
theorem mem_escape {s : Bytes} {c : Byte} (h : c ∈ escape s) : inEscapeSet c = false ∨ c = Config.esc := by
  obtain ⟨b, _, hc⟩ := List.mem_flatMap.1 h
  rcases escapeByte_cases b with ⟨_, hb, he⟩ | ⟨f, hf, he⟩
  · rw [he, List.mem_singleton] at hc
    exact .inl (hc ▸ hb)
  · rw [he, List.mem_pair] at hc
    exact hc.symm.imp_left fun (hcf : c = f) => hcf ▸ hf

theorem notMem_escape {c : Byte} (hc : inEscapeSet c = true) (hne : c ≠ Config.esc) (s : Bytes) : c ∉ escape s := fun h =>
  (mem_escape h).elim (fun hf => Bool.noConfusion (hc.symm.trans hf)) hne

/-- An escape byte in an escaped sequence begins a pair. -/
theorem escape_esc_followed (s : Bytes) : ∀ {p q : Bytes}, escape s = p ++ Config.esc :: q →
    ∃ f r, q = f :: r ∧ inEscapeSet f = false := by
  induction s with
  | nil =>
    intro p q h
    exact absurd h.symm (List.append_ne_nil_of_right_ne_nil p (List.cons_ne_nil _ q))
  | cons b s ih =>
    intro p q h
    rw [escape_cons] at h
    rcases escapeByte_cases b with ⟨hne, _, he⟩ | ⟨f, hf, he⟩
    · rw [he] at h
      match p, h with
      | [], h => exact absurd (List.cons.inj h).1 hne
      | _ :: p, h => exact ih (List.cons.inj h).2
    · rw [he] at h
      match p, h with
      | [], h => exact ⟨f, escape s, (List.cons.inj h).2.symm, hf⟩
      | [_], h =>
        obtain rfl : f = Config.esc := (List.cons.inj (List.cons.inj h).2).1
        cases hf
      | _ :: _ :: p, h => exact ih (List.cons.inj (List.cons.inj h).2).2

/-- Settles O25: all of it is true of the item of one byte, and an escaped sequence is a concatenation of items. -/
theorem escapedBytesAreClean : Obligations.EscapedBytesAreClean := by
  refine ⟨escape_length, fun s => ⟨notMem_escape rfl (by decide) s, notMem_escape rfl (by decide) s,
    notMem_escape rfl (by decide) s⟩, fun s p q h => ?_, escape_append⟩
  obtain ⟨f, r, hq, hf⟩ := escape_esc_followed s h
  refine ⟨f, r, hq, fun hmem => ?_⟩
  rw [inEscapeSet_iff.2 (by simpa using hmem)] at hf
  cases hf

/-! ## Operations that deliver a sequence where it fits -/

/-- The end of `ESCAPE` and of `FRAME_ENC`: the sequence, or `CapacityExceeded` where it does not fit `BUF_MAX` (R31). -/
def outputWhereItFits (s : State) (w : Bytes) : Except Stop Results :=
  if withinCap s.caps.bufMax w.length then .ok (Results.ofOutput w) else .error (.raise .capacityExceeded)

section
variable {i : Instr} {s t : State} {b o w : Bytes}

theorem exec_output (hi : exec i s = s.finish (outputWhereItFits s w)) :
    (withinCap s.caps.bufMax w.length = true → exec i s = .next (s.complete (Results.ofOutput w))) ∧
    (withinCap s.caps.bufMax w.length = false → exec i s = .next (s.raise .capacityExceeded)) := by
  refine ⟨fun hfits => ?_, fun hlong => ?_⟩
  · rw [hi, outputWhereItFits, if_pos hfits, finish_ok]
  · rw [hi, outputWhereItFits, if_neg (Bool.not_eq_true _ ▸ hlong), finish_raise]

/-- What is read from `OBUF` after such an operation is the whole sequence; after an error nothing is. -/
theorem output_of_next (hi : exec i s = s.finish (outputWhereItFits s w)) (h : exec i s = .next t)
    (ho : t.cur.res.outputBytes = some o) : o = w := by
  cases hcap : withinCap s.caps.bufMax w.length with
  | true =>
    obtain rfl := eq_complete_of_next ((exec_output hi).1 hcap) h
    exact Option.some.inj (ho.symm.trans (outputBytes_ofOutput w))
  | false =>
    obtain rfl := Host.Outcome.next.inj (h.symm.trans ((exec_output hi).2 hcap))
    cases ho

/-! ## `ESCAPE` and `UNESCAPE` -/

theorem exec_escape (hb : s.cur.opnd.inputBytes = some b) :
    exec .escape s = s.finish (outputWhereItFits s (escape b)) := by
  rw [exec, execEscape, readInput_some hb]
  rfl

theorem exec_unescape_ok (hb : s.cur.opnd.inputBytes = some b) (ho : unescape b = .ok o) :
    exec .unescape s = .next (s.complete (Results.ofOutput o)) := by
  simp [exec, execUnescape, unescapeResults, readInput_some hb, ho]

theorem exec_unescape_raise {k : ErrorKind} (hb : s.cur.opnd.inputBytes = some b) (hk : unescape b = .error k) :
    exec .unescape s = .next (s.raise k) := by
  simp [exec, execUnescape, unescapeResults, readInput_some hb, hk]

end

theorem unescape_length_le {b o : Bytes} (h : unescape b = .ok o) : o.length ≤ b.length := by
  rcases unescape_cases b with hb | ⟨o', hb, hle⟩
  · cases h.symm.trans hb
  · exact Except.ok.inj (h.symm.trans hb) ▸ hle

/-- Settles O22: the item of each byte is the one R122 names, and the unescape machine rejects with one kind only. -/
theorem escapeOperationsComplete : Obligations.EscapeOperationsComplete := by
  refine ⟨rfl, rfl, fun s b hb => ?_, fun s b hb => ⟨fun o ho => ⟨unescape_length_le ho, exec_unescape_ok hb ho⟩, ?_⟩⟩
  · rw [← funext escapeByte_eq]
    exact exec_output (exec_escape hb)
  · intro k hk
    obtain rfl := unescape_error_kind hk
    exact exec_unescape_raise hb hk

/-- Settles O26: what `ESCAPE` left in `OBUF` is the escaped sequence, which the machine undoes. -/
theorem unescapeInvertsEscape : Obligations.UnescapeInvertsEscape := by
  refine ⟨unescape_escape, fun s t u b o hb h ho hu => ?_, rfl, rfl⟩
  obtain rfl := output_of_next (exec_escape hb) h ho
  exact exec_unescape_ok hu (unescape_escape b)

/-! ## The split of a buffer -/

section
variable {p : CrcParams} {w inner body u : Bytes} {crc : Half} {k : ErrorKind}

theorem frameSplit_noFlags (h : ¬ ∃ inner, w = [Config.flag] ++ inner ++ [Config.flag]) :
    frameSplit w = .error .truncatedFrame := by
  cases hs : stripFlags w with
  | none => rw [frameSplit, hs]
  | some inner => exact absurd ⟨inner, stripFlags_some.1 hs⟩ h

theorem stripFlags_flags (inner : Bytes) : stripFlags ([Config.flag] ++ inner ++ [Config.flag]) = some inner :=
  stripFlags_some.2 rfl

theorem frameSplit_notUnescaped (h : unescape inner = .error k) :
    frameSplit ([Config.flag] ++ inner ++ [Config.flag]) = .error .truncatedFrame := by
  obtain rfl := unescape_error_kind h
  simp only [frameSplit, stripFlags_flags, h]

theorem frameSplit_tooShort (h : unescape inner = .ok u) (hlen : u.length < 7) :
    frameSplit ([Config.flag] ++ inner ++ [Config.flag]) = .error .truncatedFrame := by
  simp only [frameSplit, stripFlags_flags, h, if_pos hlen]

theorem frameSplit_whole {hi lo : Byte} (h : unescape inner = .ok (body ++ [hi, lo])) (hlen : 5 ≤ body.length) :
    frameSplit ([Config.flag] ++ inner ++ [Config.flag]) = .ok (body, be16 hi lo) := by
  have hlong : ¬ (body.length + 2 < 7) := by omega
  simp only [frameSplit, stripFlags_flags, h]
  simp [hlong]

/-! ## The CRC test -/

theorem frameDec_error (h : frameSplit w = .error k) : frameDec p w = .error k := by
  rw [frameDec, h]

theorem frameDec_split (h : frameSplit w = .ok (body, crc)) :
    frameDec p w = if computeFrameCrc p body ≠ crc then .error .frameCrcMismatch else frameFields body crc := by
  rw [frameDec, h]

/-! ## `FRAME_ENC`, `FRAME_DEC` and the frame items -/

variable {i : Instr} {s : State} {f : Frame}

theorem exec_frameEnc {type : Byte} {dst src : Half} {msg : Bytes} (hty : s.cur.opnd.ftype = some type)
    (hdst : s.cur.opnd.dst = some dst) (hsrc : s.cur.opnd.src = some src) (hmsg : s.cur.opnd.inputBytes = some msg) :
    exec .frameEnc s = s.finish (outputWhereItFits s (frameEnc Config.crc type dst src msg)) := by
  rw [exec, execFrameEnc, Operands.readFtype, Operands.readDst, Operands.readSrc, hty, hdst, hsrc, readInput_some hmsg]
  rfl

theorem exec_frameDec (hw : s.cur.opnd.inputBytes = some w) : exec .frameDec s = s.finish (frameDecResults w) := by
  rw [exec, execFrameDec, readInput_some hw, ok_bind]

theorem frameDecResults_ok (hf : frameDec Config.crc w = .ok f) : frameDecResults w = .ok (frameResults f) := by
  simp [frameDecResults, hf]

theorem frameDecResults_error (hk : frameDec Config.crc w = .error k) : frameDecResults w = .error (.raise k) := by
  simp [frameDecResults, hk]

theorem exec_frameDec_raise (hw : s.cur.opnd.inputBytes = some w) (hk : frameSplit w = .error k) :
    exec .frameDec s = .next (s.raise k) := by
  rw [exec_frameDec hw, frameDecResults_error (frameDec_error hk), finish_raise]

/-- The two ends of an instruction that decodes a buffer of the right shape (R130). -/
theorem exec_decodesFrame (hi : exec i s = s.finish (frameDecResults w)) (hs : frameSplit w = .ok (body, crc))
    (hf : frameFields body crc = .ok f) :
    (computeFrameCrc Config.crc body ≠ crc → exec i s = .next (s.raise .frameCrcMismatch)) ∧
    (computeFrameCrc Config.crc body = crc → exec i s = .next (s.complete (frameResults f))) := by
  have hdec := frameDec_split (p := Config.crc) hs
  refine ⟨fun hne => ?_, fun heq => ?_⟩
  · rw [if_pos hne] at hdec
    rw [hi, frameDecResults_error hdec, finish_raise]
  · rw [if_neg (not_not.2 heq), hf] at hdec
    rw [hi, frameDecResults_ok hdec, finish_ok]

end

/-- Settles O27: `FRAME_ENC` delivers `frame_enc` where it fits, and the bytes of the statement are `frame_enc` written out. -/
theorem frameEncOutcome : Obligations.FrameEncOutcome :=
  ⟨rfl, fun _ _ _ _ _ hty hdst hsrc hmsg => exec_output (exec_frameEnc hty hdst hsrc hmsg)⟩

/-- Settles O28: the split answers each shape of buffer, and the CRC test follows it. -/
theorem frameDecOutcome : Obligations.FrameDecOutcome := by
  refine ⟨rfl, fun s w hw => ⟨fun h => exec_frameDec_raise hw (frameSplit_noFlags h), ?_⟩⟩
  rintro inner rfl
  refine ⟨fun k h => ?_, fun u h hlen => ?_, fun ty d1 d0 s1 s0 c1 c0 msg h => ?_⟩
  · exact exec_frameDec_raise hw (frameSplit_notUnescaped h)
  · exact exec_frameDec_raise hw (frameSplit_tooShort h hlen)
  · exact exec_decodesFrame (exec_frameDec hw) (frameSplit_whole h (by simp)) rfl

/-- Settles O36: a delimiter alone has the wrong shape, and a frame item splits into its body and CRC field. -/
theorem delimiterAndFrameItems : Obligations.DelimiterAndFrameItems := by
  refine ⟨fun s => rfl, fun s ty d c crc msg => ?_⟩
  obtain ⟨hbad, hgood⟩ := exec_decodesFrame (i := .frame ty d c msg crc) (s := s) rfl
    (frameSplit_frameBody ty d c msg crc) (frameFields_frameBody ty d c msg crc)
  exact ⟨fun h => hgood h.symm, fun h => hbad (Ne.symm h)⟩

/-- Settles O30: the split of an encoded frame gives its body and CRC back, whether called alone or by `FRAME_DEC`. -/
theorem frameRoundTrip : Obligations.FrameRoundTrip := by
  refine ⟨frameDec_frameEnc, fun s t u ty d c msg w hty hd hc hmsg h hw hu => ?_⟩
  obtain rfl := output_of_next (exec_frameEnc hty hd hc hmsg) h hw
  rw [exec_frameDec hu, frameDecResults_ok (frameDec_frameEnc Config.crc ty d c msg), finish_ok]
  rfl

/-! ## `FRAME_MSG_DEC` -/

/-- `FRAME_MSG_DEC` at a level that exists is the frame stage and then `msg_unpack` of the frame's message (R132). -/
theorem exec_frameMsgDec {s : State} {a : BitVec 2} {w : Bytes} (hrun : s.phase = .run) (ha : s.cur.opnd.access = some a)
    (h3 : a ≠ 3) (hw : s.cur.opnd.inputBytes = some w) :
    exec .frameMsgDec s = s.finish (do
      let f ← orRaise (frameDec Config.crc w)
      let m ← msgUnpack Config.lrc s (.ok f.msg)
      return messageResults m (frameResults f)) := by
  simp only [exec, execFrameMsgDec, msgUnpack, requireAccess_run hrun ha, if_neg h3, readInput_some hw, ok_bind, bind_assoc]

/-- Settles O29: the phase, the level, the frame stage, then the message stage. -/
theorem frameMsgDecOutcome : Obligations.FrameMsgDecOutcome := by
  refine ⟨rfl, fun s hbuild => exec_readsRegistry_build hbuild (by simp), fun s hrun ha => ?_, ?_⟩
  · rw [exec, execFrameMsgDec, requireAccess_run hrun ha, if_pos rfl, error_bind, finish_raise]
  · intro s a w hrun ha h3 hw
    rw [exec_frameMsgDec hrun ha h3 hw]
    refine ⟨fun k hk => ?_, fun f hf _ => ⟨fun k hk => ?_, fun m hm => ?_⟩⟩
    · rw [hk, orRaise_error, error_bind, finish_raise]
    · rw [hf, orRaise_ok, ok_bind, hk, error_bind, finish_raise]
    · rw [hf, orRaise_ok, ok_bind, hm, ok_bind, pure_eq_ok, finish_ok]
      rfl

/-! ## Two buffers for one frame -/

/-- Settles O31: the two buffers split into the same body and CRC field, and escaping that body gives the second. -/
theorem decoderAcceptsMoreThanEncoderMakes : Obligations.DecoderAcceptsMoreThanEncoderMakes := by
  unfold Obligations.DecoderAcceptsMoreThanEncoderMakes
  intro msg printed encoded f
  have hcrc : computeFrameCrc Config.crc (frameBody 0x50 0xAAAA 0xFFFF msg) = 0xE226 := by decide +kernel
  have henc : frameEnc Config.crc 0x50 0xAAAA 0xFFFF msg = encoded := by
    rw [frameEnc, hcrc]
    rfl
  have hprinted : frameSplit printed = .ok (frameBody 0x50 0xAAAA 0xFFFF msg, 0xE226) := rfl
  refine ⟨?_, ?_, henc, by decide⟩
  · rw [frameDec_split hprinted, if_neg (not_not.2 hcrc), frameFields_frameBody]
  · rw [← henc, frameDec_frameEnc, hcrc]

end Sys2Proof.Machine
end

section
/-! PROOFS. The `STATUS` codes, the end by an error and the engines of a block (60_exceptions.md R141, R143, R155). -/

namespace Sys2Proof.Machine

open Sys2Proof

/-! ## The codes of `STATUS` -/

/-- No status has one of the codes 11 to 15 (R141). -/
theorem statusCode_le_ten (c : Status) : (statusCode c).toNat ≤ 10 := by
  cases c with
  | ok => decide
  | error k => cases k <;> decide

theorem statusOfCode_statusCode (c : Status) : statusOfCode (statusCode c).toNat = some c := by
  cases c with
  | ok => rfl
  | error k => cases k <;> rfl

/-- Settles O39: the codes are those of the table, and each reads back as the status it is the code of. -/
theorem statusCodesAreThoseOfTheTable : Obligations.StatusCodesAreThoseOfTheTable :=
  ⟨rfl, rfl, rfl, rfl, rfl, rfl, rfl, rfl, rfl, rfl, rfl, fun c => ⟨statusCode_le_ten c, statusOfCode_statusCode c⟩⟩

/-! ## The end by an error -/

/-- Settles O40: a row that completes ends `OK`, so one that ends with an error kind has raised it. -/
theorem raiseLeavesOnlyStatus : Obligations.RaiseLeavesOnlyStatus := by
  intro i s t k h2 h hst
  rcases exec_next h2 h with ⟨r, hcur, _⟩ | ⟨k', rfl⟩
  · rw [hcur, complete_status] at hst
    cases hst
  · obtain rfl : k' = k := Status.error.inj hst
    rfl

/-! ## The engines that are not addressed -/

theorem hostWrite_keeps_others {w : HostWrite} {s t : State} (h : hostWrite w s = .next t) :
    t.pre = s.pre ∧ t.post = s.post := by
  rcases hostWrite_next h with ⟨o, rfl, _⟩ | ⟨l, rfl⟩ <;> exact ⟨rfl, rfl⟩

theorem exec_keeps_others {i : Instr} {s t : State} (h : exec i s = .next t) : t.pre = s.pre ∧ t.post = s.post := by
  obtain ⟨_, hpre, hpost, _⟩ := exec_keeps h
  exact ⟨hpre, hpost⟩

section
variable {s t : State} {rest : List Move}

/-- An item move that answers a next state has run an instruction. -/
theorem step_item_next {sp : Space} {w : Bytes} (hp : s.pending = .item sp w :: rest) (h : step s = .next t) :
    ∃ i, exec i { s with pending := rest } = .next t := by
  simp only [step, nextMove, hp] at h
  cases hd : decode sp w with
  | error e => simp [hd] at h
  | ok i =>
    by_cases hcap : withinCap s.caps.bufMax w.length = true
    · exact ⟨i, by simpa [hd, hcap] using h⟩
    · simp [hd, hcap] at h

theorem step_select {k : Nat} (hp : s.pending = .select k :: rest) : step s = hostSelect k { s with pending := rest } := by
  simp only [step, nextMove, hp]

/-- Instructions and host writes act on the addressed engine; the other moves but reset and select write no engine. -/
theorem step_keeps_others {m : Move} (hp : s.pending = m :: rest) (h : step s = .next t) (hreset : m ≠ .reset)
    (hselect : ∀ k, m ≠ .select k) : t.pre = s.pre ∧ t.post = s.post := by
  have hmove := h
  rw [step, nextMove, hp] at hmove
  cases m with
  | write w => exact (hostWrite_keeps_others hmove :)
  | issue op => exact (exec_keeps_others hmove :)
  | item sp w =>
    obtain ⟨i, hi⟩ := step_item_next hp h
    exact (exec_keeps_others hi :)
  | read e => exact hostRead_next hmove ▸ ⟨rfl, rfl⟩
  | readObuf i => exact hostReadObuf_next hmove ▸ ⟨rfl, rfl⟩
  | copyObuf =>
    obtain ⟨w, hw⟩ := hostCopyObuf_next hmove
    exact (hostWrite_keeps_others hw :)
  | copyAccout =>
    obtain ⟨w, hw⟩ := hostCopyAccout_next hmove
    exact (hostWrite_keeps_others hw :)
  | skipUnlessOk n =>
    obtain ⟨p, rfl⟩ := hostSkipUnlessOk_next hmove
    exact ⟨rfl, rfl⟩
  | select k => exact absurd rfl (hselect k)
  | reset => exact absurd rfl hreset

/-! ## Turning to another engine -/

theorem hostSelect_pre_length {k : Nat} (h : hostSelect k s = .next t) : t.pre.length = k := by
  unfold hostSelect at h
  split at h
  · next e he =>
    cases h
    exact List.length_take_of_le (List.getElem?_eq_some_iff.1 he).1.le
  · cases h

/-- The addressed engine stands behind those before it. -/
theorem engines_getElem?_pre_length (s : State) : s.engines[s.pre.length]? = some s.cur := by
  simp [State.engines]

/-! ## An instruction among other engines -/

/-- An end changes the addressed engine, so the others may be exchanged before it or after it. -/
theorem finish_withOthers {x : Except Stop Results} (pre post : List Engine) (h : s.finish x = .next t) :
    State.finish { s with pre := pre, post := post } x = .next { t with pre := pre, post := post } := by
  rcases finish_next h with ⟨res, rfl, rfl⟩ | ⟨k, rfl, rfl⟩ <;> rfl

theorem regBuild_withOthers (pre post : List Engine) (h : exec .regBuild s = .next t) :
    exec .regBuild { s with pre := pre, post := post } = .next { t with pre := pre, post := post } := by
  rcases regBuild_next h with ⟨hp, rfl⟩ | ⟨hp, hd, rfl⟩ | ⟨hp, hd, rfl⟩
  · exact regBuild_run hp
  · exact regBuild_duplicate hp fun hn => Bool.noConfusion (hd.symm.trans (hasDuplicateId_eq_false_iff.2 hn))
  · exact regBuild_distinct hp (hasDuplicateId_eq_false_iff.1 hd)

/-- An instruction reads and writes the addressed engine and what the engines share. -/
theorem exec_withOthers {i : Instr} (pre post : List Engine) (h : exec i s = .next t) :
    exec i { s with pre := pre, post := post } = .next { t with pre := pre, post := post } := by
  by_cases h1 : i = .regBuild
  · subst h1
    exact regBuild_withOthers pre post h
  by_cases h2 : encodeSpace i = .access
  · cases i with
    | accessCode a => cases h; rfl
    | _ => cases h2
  · have hlike : LookAlike i s { s with pre := pre, post := post } :=
      ⟨rfl, rfl, rfl, fun e _ => sameOperand_of_eq rfl rfl e⟩
    obtain ⟨r, _, hs, hother, rfl⟩ := exec_sameEnd h1 h2 hlike
    rw [hother]
    exact finish_withOthers pre post (hs.symm.trans h)

end

/-- Settles O53: a move acts on the addressed engine, select changes which one that is, and an instruction does not see the
others. -/
theorem enginesAreIsolated : Obligations.EnginesAreIsolated := by
  refine ⟨fun s t m rest hp h => step_keeps_others hp h, fun s t k rest hp h => ?_,
    fun i s t pre post h => exec_withOthers pre post h⟩
  have hsel := (step_select hp).symm.trans h
  obtain ⟨heng, _⟩ := hostSelect_next hsel
  have hlen := hostSelect_pre_length hsel
  exact ⟨heng, hlen ▸ engines_getElem?_pre_length t, hlen⟩

end Sys2Proof.Machine
end

section
/-! PROOFS. The reset event and the end of every operation (70_reset_and_hazards.md R160, R161, R169). -/

namespace Sys2Proof.Machine

open Sys2Proof

/-! ## The end of every operation -/

/-- The end of an operation refuses nothing. -/
theorem finish_next_or_fault (s : State) (r : Except Stop Results) :
    (∃ t, s.finish r = .next t) ∨ ∃ f, s.finish r = .fault f := by
  match r with
  | .ok res => exact .inl ⟨_, finish_ok s res⟩
  | .error (.raise k) => exact .inl ⟨_, finish_raise s k⟩
  | .error (.noValue e) => exact .inr ⟨_, finish_noValue s e⟩

/-- `REG_BUILD` reads no operand that could be unwritten: the `REGISTRY` list is always there (R98). -/
theorem regBuild_answers (s : State) : ∃ t, exec .regBuild s = .next t := by
  cases hp : s.phase with
  | run => exact ⟨_, regBuild_run hp⟩
  | build =>
    by_cases hd : (s.registry.map RegEntry.id).Nodup
    · exact ⟨_, regBuild_distinct hp hd⟩
    · exact ⟨_, regBuild_duplicate hp hd⟩

/-- No instruction is refused. -/
theorem exec_next_or_fault (i : Instr) (s : State) : (∃ t, exec i s = .next t) ∨ ∃ f, exec i s = .fault f := by
  by_cases h1 : i = .regBuild
  · subst h1
    exact .inl (regBuild_answers s)
  by_cases h2 : encodeSpace i = .access
  · cases i with
    | accessCode a => exact .inl ⟨_, rfl⟩
    | _ => cases h2
  · obtain ⟨r, hr⟩ := exec_finish i s h1 h2
    rw [hr]
    exact finish_next_or_fault s r

/-- Settles O46: an instruction is never refused, and it faults only at an element that it needs and that holds no value. -/
theorem everyOperationEnds : Obligations.EveryOperationEnds := by
  intro i s hheld
  rcases exec_next_or_fault i s with hnext | ⟨f, hfault⟩
  · exact hnext
  · obtain ⟨e, _, hmem, hneed, hnone⟩ := exec_fault hfault
    rw [hheld e hmem hneed] at hnone
    cases hnone

/-! ## The reset event -/

theorem step_reset {s : State} {rest : List Move} (h : s.pending = .reset :: rest) :
    step s = .next (hostReset { s with pending := rest }) := by
  simp only [step, nextMove, h]

/-- After the reset event there are as many engines as before, each as after reset. -/
theorem hostReset_engines (s : State) : (hostReset s).engines = List.replicate s.engines.length Engine.reset := by
  rw [← List.map_const']
  simp only [State.engines, List.map_append, List.map_cons]
  rfl

/-- Settles O49: the step is the reset event, which replaces every engine and leaves the parameters. -/
theorem resetEventResetsEveryEngine : Obligations.ResetEventResetsEveryEngine := by
  intro s rest hp
  refine ⟨_, step_reset hp, rfl, rfl, rfl, rfl, fun e he => ?_, ?_, rfl⟩
  · rw [hostReset_engines] at he
    exact List.eq_of_mem_replicate he
  · rw [hostReset_engines, List.length_replicate]
    rfl

end Sys2Proof.Machine
end
